-- ==== Sys2Proof/Word.lean ====
section
/-! DEFINITION. The byte and the 32-bit word of PXR-1 and the two rounding functions of the spec's
notation (00_scope.md R10, R11). -/

namespace Sys2Proof

/-- A byte is 8 bits (R11). -/
abbrev Byte := BitVec 8

/-- A word is 32 bits (R11). -/
abbrev Word := BitVec 32

/-- `ceil(a/b) = (a + b − 1) div b` for naturals (R10). -/
def divCeil (a b : Nat) : Nat := (a + b - 1) / b

/-- `roundup(a, k) = ceil(a/k)·k` (R10). -/
def roundUp (a k : Nat) : Nat := divCeil a k * k

end Sys2Proof
end

