-- ==== Sys2Proof/Syntax.lean ====
section
/-! DEFINITION. The instructions of PXR-1: one constructor for each row of spec/opcode_table.json,
and the decoding context, which is what an element's encoding depends on besides its own bytes
(30_encoding.md R104). -/

namespace Sys2Proof

/-- The 47 instructions. Host commands (R90, R91) carry the other fields of the word written;
stream elements (R92 to R101) carry the operands their bytes give. -/
inductive Instr where
  /-- START with OP 0 (R145); the word's IRQ_EN and ABORT bits. -/
  | startDefilter (irqEn abort : Bool)
  /-- START with OP 1 (R146). -/
  | startAdam7 (irqEn abort : Bool)
  /-- START with OP 2 (R147). -/
  | startLzwGif (irqEn abort : Bool)
  /-- START with OP 3 (R148). -/
  | startLzwTiff (irqEn abort : Bool)
  /-- START with OP 4 (R149). -/
  | startRle8 (irqEn abort : Bool)
  /-- START with OP 5 (R150). -/
  | startRle4 (irqEn abort : Bool)
  /-- START with OP 6 (R151). -/
  | startPackbits (irqEn abort : Bool)
  /-- START with OP 7 (R152). -/
  | startUnpack (irqEn abort : Bool)
  /-- START with OP 8 (R153). -/
  | startHpred (irqEn abort : Bool)
  /-- START with a reserved OP, 9..15 (R90, R135 check 1). -/
  | startReserved (irqEn abort : Bool) (op : BitVec 4)
  /-- ABORT (R154): a CTRL write with ABORT = 1 and START = 0; the word's IRQ_EN and OP fields. -/
  | abort (irqEn : Bool) (op : BitVec 4)
  /-- ACK (R155): the W1C mask, bit 1 (DONE) and bit 2 (FAULT). -/
  | ack (done fault : Bool)
  /-- PNG row, filter NONE (R172). -/
  | pngNone (raw : List Byte)
  /-- PNG row, filter SUB (R173). -/
  | pngSub (raw : List Byte)
  /-- PNG row, filter UP (R174). -/
  | pngUp (raw : List Byte)
  /-- PNG row, filter AVG (R175). -/
  | pngAvg (raw : List Byte)
  /-- PNG row, filter PAETH (R176). -/
  | pngPaeth (raw : List Byte)
  /-- Illegal PNG filter byte (R177). -/
  | pngIllegal (f : Byte)
  /-- RLE8 encoded run (R242). -/
  | rle8Enc (n v : Byte)
  /-- RLE8 end of line (R243). -/
  | rle8Eol
  /-- RLE8 end of bitmap (R244). -/
  | rle8Eob
  /-- RLE8 delta (R245). -/
  | rle8Delta (dx dy : Byte)
  /-- RLE8 absolute run (R246): the count and the n data bytes. -/
  | rle8Abs (n : Byte) (data : List Byte)
  /-- RLE4 encoded run (R247). -/
  | rle4Enc (n v : Byte)
  /-- RLE4 end of line (R243). -/
  | rle4Eol
  /-- RLE4 end of bitmap (R244). -/
  | rle4Eob
  /-- RLE4 delta (R245). -/
  | rle4Delta (dx dy : Byte)
  /-- RLE4 absolute run (R248): the count and the ceil(n/2) data bytes. -/
  | rle4Abs (n : Byte) (data : List Byte)
  /-- PackBits literal packet (R250): the header's low seven bits and the data bytes that are read. -/
  | pbLit (h : BitVec 7) (data : List Byte)
  /-- PackBits repeat packet (R251): the header byte and the value. -/
  | pbRep (h v : Byte)
  /-- PackBits no-op (R252). -/
  | pbNop
  /-- GIF LZW root code (R204). -/
  | lzwGifRoot (code : BitVec 12)
  /-- GIF LZW clear code (R202). -/
  | lzwGifClear
  /-- GIF LZW end of information (R208). -/
  | lzwGifEoi
  /-- GIF LZW dictionary code (R206). -/
  | lzwGifDict (code : BitVec 12)
  /-- GIF LZW KwKwK code (R207). -/
  | lzwGifKwkwk (code : BitVec 12)
  /-- GIF LZW invalid code (R209). -/
  | lzwGifInvalid (code : BitVec 12)
  /-- TIFF LZW root code (R204). -/
  | lzwTiffRoot (code : BitVec 12)
  /-- TIFF LZW clear code (R202). -/
  | lzwTiffClear
  /-- TIFF LZW end of information (R208). -/
  | lzwTiffEoi
  /-- TIFF LZW dictionary code (R206). -/
  | lzwTiffDict (code : BitVec 12)
  /-- TIFF LZW KwKwK code (R207). -/
  | lzwTiffKwkwk (code : BitVec 12)
  /-- TIFF LZW invalid code (R209). -/
  | lzwTiffInvalid (code : BitVec 12)
  /-- UNPACK row of 1-, 2-, 4- or 8-bit samples (R281): the row's S bytes. -/
  | unpackRowSub8 (row : List Byte)
  /-- UNPACK row of 16-bit samples (R282). -/
  | unpackRow16 (row : List Byte)
  /-- UNPACK row of 32-bit samples (R283). -/
  | unpackRow32 (row : List Byte)
  /-- HPRED row (R220): no input bytes. -/
  | hpredRow
deriving DecidableEq, Repr

/-- The two LZW variants (R200). -/
inductive LzwKind where
  | gif
  | tiff
deriving DecidableEq, Repr

/-- Where the next instruction is read and what its encoding depends on (R104): a register the
host writes, or the running operation's element format with the decoder state that format reads. -/
inductive Ctx where
  /-- A 32-bit write to CTRL (R90). -/
  | ctrl
  /-- A 32-bit write to STATUS (R155). -/
  | status
  /-- A PNG row of `len` data bytes (R94). -/
  | png (len : Nat)
  /-- An RLE8 element (R96). -/
  | rle8
  /-- An RLE4 element (R97). -/
  | rle4
  /-- A PackBits packet with room for `room` more output bytes (R98, R250). -/
  | packbits (room : Nat)
  /-- An LZW code of width `w`, first bit at bit `bit` of the first byte (R99, R100). -/
  | lzw (kind : LzwKind) (min w next : Nat) (hasPrev : Bool) (bit : Nat)
  /-- An UNPACK row of `stride` bytes, `bd` bits per sample (R280). -/
  | unpack (bd stride : Nat)
  /-- An HPRED row (R220). -/
  | hpred
deriving DecidableEq, Repr

end Sys2Proof
end

