-- ==== Sys2Proof/WellFormed.lean ====
section
/-! DEFINITION. Which instructions are well formed where: the operand ranges of 30_encoding.md
R94 to R101 and the class conditions of R99, R100. -/

namespace Sys2Proof

/-- An LZW code of class ROOT, DICT, KWKWK or INVALID fits the width, and `ok min next hasPrev`
holds of it, in a context of the given variant. -/
def Ctx.lzwOk (c : Ctx) (kind : LzwKind) (ok : Nat → Nat → Bool → Bool) (code : Nat → Nat) : Bool :=
  match c with
  | .lzw k min w next hasPrev _ =>
    decide (k = kind) && decide (w ≤ 12) && decide (code min < 2 ^ w) && ok min next hasPrev
  | _ => false

/-- ROOT: `code < CLEAR`, and after a first code `code < next` (R99, R100, R210). -/
def lzwRootOk (code min next : Nat) (hasPrev : Bool) : Bool :=
  decide (code < 2 ^ min) && (!hasPrev || decide (code < next))

/-- DICT: `CLEAR + 2 ≤ code < next` and prev ≠ NONE. -/
def lzwDictOk (code min next : Nat) (hasPrev : Bool) : Bool :=
  hasPrev && decide (2 ^ min + 2 ≤ code) && decide (code < next)

/-- KWKWK: `code = next`, next < 4096 and prev ≠ NONE; CLEAR and EOI are tested first (R210). -/
def lzwKwkwkOk (code min next : Nat) (hasPrev : Bool) : Bool :=
  hasPrev && decide (code ≠ 2 ^ min) && decide (code ≠ 2 ^ min + 1) && decide (code = next)
    && decide (next < 4096)

/-- INVALID: none of the other classes (R209, R210). -/
def lzwInvalidOk (code min next : Nat) (hasPrev : Bool) : Bool :=
  decide (code ≠ 2 ^ min) && decide (code ≠ 2 ^ min + 1) &&
    (if hasPrev then decide (next < code) || (decide (code = next) && decide (4096 ≤ next))
     else decide (2 ^ min + 2 ≤ code))

/-- The context is an UNPACK row of as many bytes as `row` holds, with a sample width `ok` admits. -/
def Ctx.unpackOk (c : Ctx) (row : List Byte) (ok : Nat → Bool) : Bool :=
  match c with
  | .unpack bd stride => ok bd && decide (row.length = stride)
  | _ => false

/-- `Instr.wf c i`: in context `c` the instruction `i` is one that an encoding stands for. -/
def Instr.wf (c : Ctx) : Instr → Bool
  | .startDefilter _ _ | .startAdam7 _ _ | .startLzwGif _ _ | .startLzwTiff _ _ | .startRle8 _ _
  | .startRle4 _ _ | .startPackbits _ _ | .startUnpack _ _ | .startHpred _ _ => decide (c = .ctrl)
  | .startReserved _ _ op => decide (c = .ctrl) && decide (9 ≤ op.toNat)
  | .abort _ _ => decide (c = .ctrl)
  | .ack d f => decide (c = .status) && (d || f)
  | .pngNone raw | .pngSub raw | .pngUp raw | .pngAvg raw | .pngPaeth raw =>
    decide (c = .png raw.length)
  | .pngIllegal f => (match c with | .png _ => true | _ => false) && decide (4 < f.toNat)
  | .rle8Enc n _ => decide (c = .rle8) && decide (n ≠ 0)
  | .rle8Eol | .rle8Eob | .rle8Delta _ _ => decide (c = .rle8)
  | .rle8Abs n data => decide (c = .rle8) && decide (3 ≤ n.toNat) && decide (data.length = n.toNat)
  | .rle4Enc n _ => decide (c = .rle4) && decide (n ≠ 0)
  | .rle4Eol | .rle4Eob | .rle4Delta _ _ => decide (c = .rle4)
  | .rle4Abs n data =>
    decide (c = .rle4) && decide (3 ≤ n.toNat) && decide (data.length = divCeil n.toNat 2)
  | .pbLit h data =>
    match c with
    | .packbits room => decide (data.length = min (h.toNat + 1) room)
    | _ => false
  | .pbRep h _ => (match c with | .packbits _ => true | _ => false) && decide (0x80 < h.toNat)
  | .pbNop => match c with | .packbits _ => true | _ => false
  | .lzwGifRoot code => c.lzwOk .gif (lzwRootOk code.toNat) fun _ => code.toNat
  | .lzwGifClear => c.lzwOk .gif (fun _ _ _ => true) fun min => 2 ^ min
  | .lzwGifEoi => c.lzwOk .gif (fun _ _ _ => true) fun min => 2 ^ min + 1
  | .lzwGifDict code => c.lzwOk .gif (lzwDictOk code.toNat) fun _ => code.toNat
  | .lzwGifKwkwk code => c.lzwOk .gif (lzwKwkwkOk code.toNat) fun _ => code.toNat
  | .lzwGifInvalid code => c.lzwOk .gif (lzwInvalidOk code.toNat) fun _ => code.toNat
  | .lzwTiffRoot code => c.lzwOk .tiff (lzwRootOk code.toNat) fun _ => code.toNat
  | .lzwTiffClear => c.lzwOk .tiff (fun _ _ _ => true) fun min => 2 ^ min
  | .lzwTiffEoi => c.lzwOk .tiff (fun _ _ _ => true) fun min => 2 ^ min + 1
  | .lzwTiffDict code => c.lzwOk .tiff (lzwDictOk code.toNat) fun _ => code.toNat
  | .lzwTiffKwkwk code => c.lzwOk .tiff (lzwKwkwkOk code.toNat) fun _ => code.toNat
  | .lzwTiffInvalid code => c.lzwOk .tiff (lzwInvalidOk code.toNat) fun _ => code.toNat
  | .unpackRowSub8 row =>
    c.unpackOk row fun bd => decide (bd = 1) || decide (bd = 2) || decide (bd = 4) || decide (bd = 8)
  | .unpackRow16 row => c.unpackOk row fun bd => decide (bd = 16)
  | .unpackRow32 row => c.unpackOk row fun bd => decide (bd = 32)
  | .hpredRow => decide (c = .hpred)

end Sys2Proof
end

