-- ==== Sys2Proof/Decode.lean ====
section
/-! DEFINITION. The decoder of the command words and of the stream elements, total on any bytes,
and after it the encoder, both from the tables of 30_encoding.md. -/

namespace Sys2Proof

/-! ### Byte order and bit order -/

/-- The four bytes of a register word, bits 7:0 first (20_memory.md R64). -/
def leBytes (v : Word) : List Byte :=
  [v.extractLsb' 0 8, v.extractLsb' 8 8, v.extractLsb' 16 8, v.extractLsb' 24 8]

/-- The register word of four bytes, lowest address first (R64); fewer bytes are filled with 0. -/
def wordOfLe (bs : List Byte) : Word :=
  BitVec.ofNat 32 ((bs.getD 0 0).toNat + 2 ^ 8 * (bs.getD 1 0).toNat + 2 ^ 16 * (bs.getD 2 0).toNat
    + 2 ^ 24 * (bs.getD 3 0).toNat)

/-- Bit n of a byte string: LSB-first for GIF, MSB-first for TIFF (00_scope.md R12). -/
def streamBit (kind : LzwKind) (bs : List Byte) (n : Nat) : Bool :=
  match kind with
  | .gif => (bs.getD (n / 8) 0).getLsbD (n % 8)
  | .tiff => (bs.getD (n / 8) 0).getLsbD (7 - n % 8)

/-- The unsigned code of the `w` bits from bit `bit`: for GIF the first bit read is the code's bit 0
(30_encoding.md R99), for TIFF it is the most significant bit (R100). -/
def readCode (kind : LzwKind) (bs : List Byte) (bit : Nat) : Nat → Nat
  | 0 => 0
  | w + 1 =>
    match kind with
    | .gif => readCode kind bs bit w + 2 ^ w * (streamBit kind bs (bit + w)).toNat
    | .tiff => 2 * readCode kind bs bit w + (streamBit kind bs (bit + w)).toNat

/-- The first `n` bytes, or none where there are fewer. -/
def takeExact : Nat → List Byte → Option (List Byte)
  | 0, _ => some []
  | _ + 1, [] => none
  | n + 1, b :: bs => (takeExact n bs).map (b :: ·)

/-! ### The decoder -/

/-- What decoding answers. The three rejections are named. -/
inductive Decoded where
  /-- A complete instruction. -/
  | instr (i : Instr)
  /-- The bytes end inside the element: E_TRUNC (R92, R102). -/
  | truncated
  /-- The written word carries no command: no START, ABORT or W1C bit. -/
  | notACommand
  /-- The context is none an operation runs in: an UNPACK row of an illegal sample width. -/
  | illegalContext
deriving DecidableEq, Repr

/-- The command of a word written to CTRL (R90). -/
def decodeCtrl (v : Word) : Decoded :=
  let ie := v.getLsbD 8
  let ab := v.getLsbD 1
  let op := v.extractLsb' 4 4
  if v.getLsbD 0 then
    match op.toNat with
    | 0 => .instr (.startDefilter ie ab)
    | 1 => .instr (.startAdam7 ie ab)
    | 2 => .instr (.startLzwGif ie ab)
    | 3 => .instr (.startLzwTiff ie ab)
    | 4 => .instr (.startRle8 ie ab)
    | 5 => .instr (.startRle4 ie ab)
    | 6 => .instr (.startPackbits ie ab)
    | 7 => .instr (.startUnpack ie ab)
    | 8 => .instr (.startHpred ie ab)
    | _ => .instr (.startReserved ie ab op)
  else if ab then .instr (.abort ie op)
  else .notACommand

/-- The command of a word written to STATUS: ACK where bit 1 or bit 2 is 1 (R155). -/
def decodeStatus (v : Word) : Decoded :=
  if v.getLsbD 1 || v.getLsbD 2 then .instr (.ack (v.getLsbD 1) (v.getLsbD 2)) else .notACommand

/-- The PNG row of filter type `f` (R95). -/
def pngInstr (f : Byte) (raw : List Byte) : Instr :=
  match f.toNat with
  | 0 => .pngNone raw
  | 1 => .pngSub raw
  | 2 => .pngUp raw
  | 3 => .pngAvg raw
  | 4 => .pngPaeth raw
  | _ => .pngIllegal f

/-- A PNG row (R94, R95): the filter byte is checked before the row's bytes are read (R170). -/
def decodePng (len : Nat) : List Byte → Decoded
  | [] => .truncated
  | f :: rest =>
    if 4 < f.toNat then .instr (.pngIllegal f)
    else match takeExact len rest with
      | some raw => .instr (pngInstr f raw)
      | none => .truncated

/-- An RLE8 element (R96); an ABS run of odd n is followed by one pad byte. -/
def decodeRle8 : List Byte → Decoded
  | n :: s :: rest =>
    if n ≠ 0 then .instr (.rle8Enc n s)
    else if s = 0 then .instr .rle8Eol
    else if s = 1 then .instr .rle8Eob
    else if s = 2 then
      match rest with
      | dx :: dy :: _ => .instr (.rle8Delta dx dy)
      | _ => .truncated
    else match takeExact (s.toNat + s.toNat % 2) rest with
      | some d => .instr (.rle8Abs s (d.take s.toNat))
      | none => .truncated
  | _ => .truncated

/-- An RLE4 element (R97); m = ceil(n/2) data bytes, and one pad byte where m is odd. -/
def decodeRle4 : List Byte → Decoded
  | n :: s :: rest =>
    if n ≠ 0 then .instr (.rle4Enc n s)
    else if s = 0 then .instr .rle4Eol
    else if s = 1 then .instr .rle4Eob
    else if s = 2 then
      match rest with
      | dx :: dy :: _ => .instr (.rle4Delta dx dy)
      | _ => .truncated
    else
      let m := divCeil s.toNat 2
      match takeExact (m + m % 2) rest with
      | some d => .instr (.rle4Abs s (d.take m))
      | none => .truncated
  | _ => .truncated

/-- A PackBits packet (R98). A literal packet reads `min(h + 1, room)` data bytes (R250). -/
def decodePackbits (room : Nat) : List Byte → Decoded
  | [] => .truncated
  | h :: rest =>
    if h.toNat < 128 then
      match takeExact (min (h.toNat + 1) room) rest with
      | some d => .instr (.pbLit (h.setWidth 7) d)
      | none => .truncated
    else if h = 0x80 then .instr .pbNop
    else match rest with
      | v :: _ => .instr (.pbRep h v)
      | [] => .truncated

/-- The classes of LZW codes (R99, R100). -/
inductive LzwClass where
  | root
  | clear
  | eoi
  | dict
  | kwkwk
  | invalid
deriving DecidableEq, Repr

/-- The class of a code, in the order 42_lzw.md R210 tests it. -/
def lzwClass (min next : Nat) (hasPrev : Bool) (code : Nat) : LzwClass :=
  if code = 2 ^ min then .clear
  else if code = 2 ^ min + 1 then .eoi
  else if !hasPrev && decide (code < 2 ^ min) then .root
  else if !hasPrev then .invalid
  else if code < next then (if code < 2 ^ min then .root else .dict)
  else if code = next ∧ next < 4096 then .kwkwk
  else .invalid

/-- The instruction of a variant, a class and a code. -/
def lzwInstr (kind : LzwKind) (cls : LzwClass) (code : BitVec 12) : Instr :=
  match kind, cls with
  | .gif, .root => .lzwGifRoot code
  | .gif, .clear => .lzwGifClear
  | .gif, .eoi => .lzwGifEoi
  | .gif, .dict => .lzwGifDict code
  | .gif, .kwkwk => .lzwGifKwkwk code
  | .gif, .invalid => .lzwGifInvalid code
  | .tiff, .root => .lzwTiffRoot code
  | .tiff, .clear => .lzwTiffClear
  | .tiff, .eoi => .lzwTiffEoi
  | .tiff, .dict => .lzwTiffDict code
  | .tiff, .kwkwk => .lzwTiffKwkwk code
  | .tiff, .invalid => .lzwTiffInvalid code

/-- An LZW code (R210): truncated where fewer than `w` bits remain. -/
def decodeLzw (kind : LzwKind) (min w next : Nat) (hasPrev : Bool) (bit : Nat) (bs : List Byte) :
    Decoded :=
  if 8 * bs.length < bit + w then .truncated
  else
    let code := readCode kind bs bit w
    .instr (lzwInstr kind (lzwClass min next hasPrev code) (BitVec.ofNat 12 code))

/-- An UNPACK row (R280): the sample width selects the rule (R281 to R283). -/
def decodeUnpack (bd stride : Nat) (bs : List Byte) : Decoded :=
  match takeExact stride bs with
  | none => .truncated
  | some row =>
    if bd = 1 ∨ bd = 2 ∨ bd = 4 ∨ bd = 8 then .instr (.unpackRowSub8 row)
    else if bd = 16 then .instr (.unpackRow16 row)
    else if bd = 32 then .instr (.unpackRow32 row)
    else .illegalContext

/-- The instruction at the head of `bs` in context `c`. -/
def decode (c : Ctx) (bs : List Byte) : Decoded :=
  match c with
  | .ctrl => if bs.length < 4 then .truncated else decodeCtrl (wordOfLe bs)
  | .status => if bs.length < 4 then .truncated else decodeStatus (wordOfLe bs)
  | .png len => decodePng len bs
  | .rle8 => decodeRle8 bs
  | .rle4 => decodeRle4 bs
  | .packbits room => decodePackbits room bs
  | .lzw kind min w next hasPrev bit => decodeLzw kind min w next hasPrev bit bs
  | .unpack bd stride => decodeUnpack bd stride bs
  | .hpred => .instr .hpredRow

/-! ### The encoder -/

/-- A CTRL word: `{23'b0, ie, op, 2'b00, abort, start}` (R90). -/
def ctrlWordOf (start ab : Bool) (op : Nat) (ie : Bool) : Word :=
  BitVec.ofNat 32 (start.toNat + 2 * ab.toNat + 16 * op + 256 * ie.toNat)

/-- `n` bytes of a number, least significant byte first. -/
def bytesLe : Nat → Nat → List Byte
  | 0, _ => []
  | n + 1, v => BitVec.ofNat 8 v :: bytesLe n (v / 256)

/-- A code of `w` bits placed from bit `bit` on, the bits around it 0: LSB-first for GIF (R99),
MSB-first for TIFF (R100). -/
def packCode (kind : LzwKind) (bit w code : Nat) : List Byte :=
  let n := divCeil (bit + w) 8
  match kind with
  | .gif => bytesLe n (code * 2 ^ bit)
  | .tiff => (bytesLe n (code * 2 ^ (8 * n - bit - w))).reverse

/-- The bytes of an LZW code in context `c`; `code` is given the variant's MIN. -/
def encodeLzw (c : Ctx) (code : Nat → Nat) : List Byte :=
  match c with
  | .lzw kind min w _ _ bit => packCode kind bit w (code min)
  | _ => []

/-- The bytes an instruction is written as in context `c`; pad bytes are 0. -/
def encode (c : Ctx) : Instr → List Byte
  | .startDefilter ie ab => leBytes (ctrlWordOf true ab 0 ie)
  | .startAdam7 ie ab => leBytes (ctrlWordOf true ab 1 ie)
  | .startLzwGif ie ab => leBytes (ctrlWordOf true ab 2 ie)
  | .startLzwTiff ie ab => leBytes (ctrlWordOf true ab 3 ie)
  | .startRle8 ie ab => leBytes (ctrlWordOf true ab 4 ie)
  | .startRle4 ie ab => leBytes (ctrlWordOf true ab 5 ie)
  | .startPackbits ie ab => leBytes (ctrlWordOf true ab 6 ie)
  | .startUnpack ie ab => leBytes (ctrlWordOf true ab 7 ie)
  | .startHpred ie ab => leBytes (ctrlWordOf true ab 8 ie)
  | .startReserved ie ab op => leBytes (ctrlWordOf true ab op.toNat ie)
  | .abort ie op => leBytes (ctrlWordOf false true op.toNat ie)
  | .ack d f => leBytes (BitVec.ofNat 32 (2 * d.toNat + 4 * f.toNat))
  | .pngNone raw => 0x00 :: raw
  | .pngSub raw => 0x01 :: raw
  | .pngUp raw => 0x02 :: raw
  | .pngAvg raw => 0x03 :: raw
  | .pngPaeth raw => 0x04 :: raw
  | .pngIllegal f => [f]
  | .rle8Enc n v => [n, v]
  | .rle8Eol => [0x00, 0x00]
  | .rle8Eob => [0x00, 0x01]
  | .rle8Delta dx dy => [0x00, 0x02, dx, dy]
  | .rle8Abs n data => 0x00 :: n :: data ++ List.replicate (n.toNat % 2) 0x00
  | .rle4Enc n v => [n, v]
  | .rle4Eol => [0x00, 0x00]
  | .rle4Eob => [0x00, 0x01]
  | .rle4Delta dx dy => [0x00, 0x02, dx, dy]
  | .rle4Abs n data => 0x00 :: n :: data ++ List.replicate (divCeil n.toNat 2 % 2) 0x00
  | .pbLit h data => h.setWidth 8 :: data
  | .pbRep h v => [h, v]
  | .pbNop => [0x80]
  | .lzwGifRoot code | .lzwGifDict code | .lzwGifKwkwk code | .lzwGifInvalid code
  | .lzwTiffRoot code | .lzwTiffDict code | .lzwTiffKwkwk code | .lzwTiffInvalid code =>
    encodeLzw c fun _ => code.toNat
  | .lzwGifClear | .lzwTiffClear => encodeLzw c fun min => 2 ^ min
  | .lzwGifEoi | .lzwTiffEoi => encodeLzw c fun min => 2 ^ min + 1
  | .unpackRowSub8 row | .unpackRow16 row | .unpackRow32 row => row
  | .hpredRow => []

/-- The length in bits of a well-formed instruction in context `c` (R104): an LZW code is `w` bits,
anything else whole bytes. -/
def encodedBits (c : Ctx) (i : Instr) : Nat :=
  match c with
  | .lzw _ _ w _ _ _ => w
  | _ => 8 * (encode c i).length

/-! ### The opcode table's words -/

/-- The bytes of a table word, numbered as spec/opcode_table.json numbers it: a command word's bytes
are little-endian on the bus (R64); an element's first byte is the most significant one of its
number (R93); a 12-bit number is a TIFF code. Zero bytes follow. -/
def tableBytes (nbits w : Nat) : List Byte :=
  (match nbits with
    | 32 => leBytes (BitVec.ofNat 32 w)
    | 16 => [BitVec.ofNat 8 (w / 256), BitVec.ofNat 8 w]
    | 12 => packCode .tiff 0 12 w
    | _ => [BitVec.ofNat 8 w]) ++ List.replicate 258 0

/-- The context in which a table word of `nbits` bits is read. Rows of several families share their
words, so a family is chosen: of the 32-bit words, one with bits 2:1 set and bit 0 clear is written
to STATUS, any other to CTRL; 16-bit words are RLE8 elements; a byte below 5 is a PNG filter byte,
any other byte a PackBits header; 12-bit words are TIFF LZW codes. -/
def tableCtx (nbits w : Nat) : Option Ctx :=
  match nbits with
  | 32 => some (if w % 2 = 0 ∧ w / 2 % 4 = 3 then .status else .ctrl)
  | 16 => some .rle8
  | 12 => some (.lzw .tiff 8 12 258 false 0)
  | 8 => some (if w % 256 < 5 then .png 1 else .packbits 128)
  | _ => none

/-- The instruction the decoder reads from a word of spec/opcode_table.json. -/
def decodeTableWord (nbits w : Nat) : Option Instr :=
  match tableCtx nbits w with
  | none => none
  | some c =>
    match decode c (tableBytes nbits w) with
    | .instr i => some i
    | _ => none

end Sys2Proof
end

