-- ==== Sys2Proof/Config.lean ====
section
/-! DEFINITION. What an implementation fixes (00_scope.md R9), the constants the spec fixes, and the
free values: constants with no body, so that nothing can be proved of them. -/

namespace Sys2Proof

/-- The open parameters (R9). They are part of the state so that every statement holds for all of
them; no step changes them. -/
structure Params where
  /-- MEM_SIZE, bytes in the data memory. -/
  memSize : Nat
  /-- MAX_DIM, the largest legal WIDTH and HEIGHT. -/
  maxDim : Nat
  /-- MAX_ROW_BYTES, the size of each line buffer. -/
  maxRowBytes : Nat
  /-- REG_BASE, the host address of register offset 0. -/
  regBase : Nat
  /-- MEM_BASE, the host address of data-memory byte 0. -/
  memBase : Nat
deriving DecidableEq, Repr

/-- The constraints R9 puts on the parameters; the two host windows do not overlap. -/
def Params.wf (p : Params) : Bool :=
  decide (1 ≤ p.memSize) && decide (p.memSize ≤ 2 ^ 32) && decide (1 ≤ p.maxDim)
    && decide (p.maxDim ≤ 2 ^ 16 - 1) && decide (1 ≤ p.maxRowBytes)
    && (decide (p.regBase + 256 ≤ p.memBase) || decide (p.memBase + p.memSize ≤ p.regBase))

/-- The parameters of `State.reset`: those of 95_test_vectors.md section 0. DESIGN CHOICE (entry 1):
the spec leaves them open, and unsafe for a claim about one of these values. -/
def Config.params : Params where
  memSize := 4096
  maxDim := 65535
  maxRowBytes := 65536
  regBase := 0x10000
  memBase := 0

/-- ID reads 0x50585231 (10_state.md R37). -/
def Config.id : Word := 0x50585231

/-- Any value: the byte at address `a` of an output window the spec leaves unspecified (93 U8, U9),
at the `n`-th use of a free value. -/
opaque Config.windowByte (n a : Nat) : Byte

/-- Any value: what a host read of an output-window byte returns while BUSY = 1 (93 U10). -/
opaque Config.busyByte (n : Nat) : Byte

/-- Any value: how many step boundaries back a register read while BUSY = 1 shows (93 U11). -/
opaque Config.readLag (n : Nat) : Nat

/-- Any value: how many engine steps come between two bytes of one host access (93 U12). -/
opaque Config.byteGap (n : Nat) : Nat

end Sys2Proof
end

