-- ==== Sys2Proof/Machine/State.lean ====
section
/-! DEFINITION. The state of PXR-1 (10_state.md), the reasons a step can stop, and the state after
reset (10_state.md R49, 70_reset_and_hazards.md R360). -/

namespace Sys2Proof.Machine

/-- The engine's phase (10_state.md R45); STATUS.BUSY = 1 exactly when it is `run`. -/
inductive Phase where
  | idle
  | run
deriving DecidableEq, Repr

/-- An entry of the LZW dictionary (R41). -/
structure DictEntry where
  /-- prefix(e), a 12-bit code. -/
  pfx : BitVec 12
  /-- suffix(e), a byte. -/
  sfx : Byte
deriving DecidableEq, Repr

/-- The data memory: a canonical list of address and byte, see `Memory.wf`. -/
abbrev Memory := List Host.Cell

/-- The dictionary in the same canonical form, by code. -/
abbrev Dict := List (Nat × DictEntry)

/-- An access of the host, at a host address, or the platform's reset input (60_exceptions.md R340,
70_reset_and_hazards.md R360). -/
inductive Access where
  /-- Read `size` bytes from a host address. -/
  | read (addr size : Nat)
  /-- Write the low `size` bytes of a value at a host address. -/
  | write (addr size value : Nat)
  /-- Assert the reset input. -/
  | reset
  /-- The model's: what is left of a read of data memory, `size` bytes from data-memory address `a`;
  `got` are the bytes read before them (20_memory.md R65, entry 12). -/
  | readRest (a size : Nat) (got : List Byte)
  /-- The model's: what is left of a write to data memory, `data` from data-memory address `a`. -/
  | writeRest (a : Nat) (data : List Byte)
deriving DecidableEq, Repr

/-- A queued access and how many engine steps a busy engine takes before it (R340: any order). -/
structure Queued where
  wait : Nat
  access : Access
deriving DecidableEq, Repr

/-- The progress of an operation at a step boundary, as register reads show it (10_state.md R48). -/
structure Boundary where
  bp : BitVec 35
  out : Word
  x : Word
  y : Word
  r : Word
  p : BitVec 3
  ovf : Bool
deriving DecidableEq, Repr

/-- The machine. INVENTORY.md lists each field with the rule that names it. -/
structure State where
  /-- The open parameters (00_scope.md R9). -/
  params : Params
  /-- CTRL.OP (R24). -/
  ctrlOp : BitVec 4
  /-- CTRL.IRQ_EN (R24). -/
  irqEn : Bool
  /-- The phase; STATUS.BUSY is its view (R25, R45). -/
  phase : Phase
  /-- STATUS.DONE (R25). -/
  done : Bool
  /-- STATUS.FAULT (R25). -/
  fault : Bool
  /-- STATUS.OVF (R25). -/
  ovf : Bool
  /-- STATUS.SHORT (R25). -/
  short : Bool
  /-- STATUS.FCODE (R25). -/
  fcode : BitVec 8
  /-- SRC_ADDR (R26). -/
  srcAddr : Word
  /-- SRC_LEN (R26). -/
  srcLen : Word
  /-- DST_ADDR (R27). -/
  dstAddr : Word
  /-- DST_LEN (R27). -/
  dstLen : Word
  /-- WIDTH (R28). -/
  width : Word
  /-- HEIGHT (R29). -/
  height : Word
  /-- FMT, reserved bits 0 (R30). -/
  fmt : Word
  /-- FADDR (R35). -/
  faddr : Word
  /-- FINFO (R36). -/
  finfo : Word
  /-- The running or last operation, `op` of 40_command.md R134. -/
  op : BitVec 4
  /-- The input cursor BP, in bits (R21). -/
  bp : BitVec 35
  /-- The output counter OUT (R22). -/
  out : Word
  /-- RLE column (R43). -/
  x : Word
  /-- RLE stored row (R43). -/
  y : Word
  /-- Row within the image or pass (R44). -/
  r : Word
  /-- Adam7 pass (R44). -/
  p : BitVec 3
  /-- LZW code width (R42). -/
  w : BitVec 4
  /-- LZW next free code (R42). -/
  next : BitVec 13
  /-- LZW previous code, or NONE (R42). -/
  prev : Option (BitVec 12)
  /-- The abort latch (R45). -/
  abortReq : Bool
  /-- The line buffer PRIOR (R40); bytes past the list read 0. -/
  prior : List Byte
  /-- The line buffer CUR (R40). -/
  cur : List Byte
  /-- The LZW dictionary DICT (R41). -/
  dict : Dict
  /-- The data memory (20_memory.md R60). -/
  mem : Memory
  /-- The model's: the host's accesses still to come (entry 6). -/
  host : List Queued
  /-- The model's: the values the host's reads returned, newest first (entry 24). A value is as wide
  as the access that read it. -/
  returned : List Nat
  /-- The model's: the boundaries a register read may still show, newest first (entry 8). -/
  seen : List Boundary
  /-- The model's: how many free values have been taken (entry 9). -/
  free : Nat
deriving DecidableEq, Repr

/-- Why a step can stop with a fault of the model. Both are unreachable in a run (20_memory.md R62).
PXR-1's own faults (60_exceptions.md R320) are next states, not these. -/
inductive Fault where
  /-- Raised by any engine access of an address outside the data memory (R60, R62): safe, since the
  spec gives such an address no byte. -/
  | addressOutsideMemory
  /-- Raised by a step of an engine in phase RUN with no operation, or an UNPACK of a sample width,
  that START admits (40_command.md R135): safe, since no such run exists. -/
  | noRunnableOperation
deriving DecidableEq, Repr

/-- Why a step can be refused. -/
inductive Refusal where
  /-- Raised by no instruction of this model: an arm of `exec` with no meaning yet. Safe. -/
  | notModelled (mnemonic : String)
  /-- Raised by an access that touches the register block and is not an aligned 32-bit access in it:
  "PXR-1 gives no meaning to any other register access ... A model refuses it" (20_memory.md R65, 93
  U16). Safe. -/
  | registerAccessForm
  /-- Raised by a host write to a window of the running operation: "PXR-1 gives such a run no
  meaning, and a model refuses it" (20_memory.md R70, 70_reset_and_hazards.md R370). Safe. -/
  | windowWriteWhileBusy
  /-- Raised by a host access that touches no register and does not lie whole in the data memory: a
  part of it is not PXR-1's but the platform's (20_memory.md R67). Safe. -/
  | addressNotPxr
deriving DecidableEq, Repr

/-- The machine after reset (R49, R360), with nothing queued by the host. w, next, prev, PRIOR, CUR,
DICT and op are DESIGN CHOICE (entries 3, 5): the spec calls them unspecified. -/
def State.reset : State where
  params := Config.params
  ctrlOp := 0
  irqEn := false
  phase := .idle
  done := false
  fault := false
  ovf := false
  short := false
  fcode := 0
  srcAddr := 0
  srcLen := 0
  dstAddr := 0
  dstLen := 0
  width := 0
  height := 0
  fmt := 0
  faddr := 0
  finfo := 0
  op := 0
  bp := 0
  out := 0
  x := 0
  y := 0
  r := 0
  p := 0
  w := 0
  next := 0
  prev := none
  abortReq := false
  prior := []
  cur := []
  dict := []
  mem := []
  host := []
  returned := []
  seen := []
  free := 0

end Sys2Proof.Machine
end

