-- ==== Sys2Proof/Machine/Memory.lean ====
section
/-! DEFINITION. Sparse storage in one canonical form, and the data memory over it (20_memory.md R60
to R66). The dictionary (10_state.md R41) uses the same form. -/

namespace Sys2Proof.Machine

/-- The entry at `a`, or `d` where the list has none. -/
def sparseRead {α : Type} (d : α) : List (Nat × α) → Nat → α
  | [], _ => d
  | (b, u) :: m, a => if a = b then u else sparseRead d m a

/-- Put `v` at `a`, keeping the keys rising and listing no `d`. -/
def sparseWrite {α : Type} [DecidableEq α] (d : α) :
    List (Nat × α) → Nat → α → List (Nat × α)
  | [], a, v => if v = d then [] else [(a, v)]
  | (b, u) :: m, a, v =>
    if a < b then (if v = d then (b, u) :: m else (a, v) :: (b, u) :: m)
    else if a = b then (if v = d then m else (a, v) :: m)
    else (b, u) :: sparseWrite d m a v

/-- The canonical form: keys strictly rising, no entry equal to `d`. -/
def sparseWf {α : Type} [DecidableEq α] (d : α) : List (Nat × α) → Bool
  | [] => true
  | (b, u) :: m => decide (u ≠ d) && m.all (fun c => decide (b < c.1)) && sparseWf d m

/-- What a byte of memory that is not listed reads as: 0. DESIGN CHOICE (entry 2): the spec leaves
the contents at power-up unspecified (R66); unsafe for a claim about such a byte. -/
def unlistedByte : Byte := 0

/-- `MemRead(a, 1)` of an address that exists (R62). -/
def Memory.read (m : Memory) (a : Nat) : Byte := sparseRead unlistedByte m a

/-- `MemWrite(a, 1, v)` of an address that exists (R62). -/
def Memory.write (m : Memory) (a : Nat) (v : Byte) : Memory := sparseWrite unlistedByte m a v

/-- The memory is in its canonical form. -/
def Memory.wf (m : Memory) : Bool := sparseWf unlistedByte m

/-- Every listed address exists in a memory of `size` bytes (R60). -/
def Memory.within (size : Nat) (m : Memory) : Bool := m.all fun c => decide (c.1 < size)

/-- `MemWrite` in a memory of `size` bytes; none where the address does not exist. -/
def Memory.store (size : Nat) (m : Memory) (a : Nat) (v : Byte) : Option Memory :=
  if a < size then some (m.write a v) else none

/-- Store bytes at ascending addresses from `a` (R63). -/
def Memory.storeAll (size : Nat) (m : Memory) (a : Nat) : List Byte → Option Memory
  | [] => some m
  | v :: vs => (m.store size a v).bind fun m' => m'.storeAll size (a + 1) vs

/-- The `n` bytes at ascending addresses from `a`; none where one of them does not exist. -/
def Memory.loadAll (size : Nat) (m : Memory) (a n : Nat) : Option (List Byte) :=
  if a + n ≤ size then some ((List.range n).map fun k => m.read (a + k)) else none

/-- Fill the `n` bytes from `a` with free values, the `occasion`-th use of a free value. -/
def Memory.havoc (occasion : Nat) (m : Memory) (a : Nat) : Nat → Memory
  | 0 => m
  | n + 1 => (m.havoc occasion a n).write (a + n) (Config.windowByte occasion (a + n))

/-- The dictionary entry a code that was never written reads as (entry 3). -/
def emptyEntry : DictEntry := ⟨0, 0⟩

/-- `DICT[e]` (10_state.md R41). -/
def Dict.read (d : Dict) (e : Nat) : DictEntry := sparseRead emptyEntry d e

/-- `DICT[e] <- v`. -/
def Dict.write (d : Dict) (e : Nat) (v : DictEntry) : Dict := sparseWrite emptyEntry d e v

end Sys2Proof.Machine
end

