-- ==== Sys2Proof/Machine/Operands.lean ====
section
/-! DEFINITION. Operand forms: the fields of FMT (10_state.md R30), the derived sizes
(40_command.md R133), the Adam7 geometry (45_adam7.md R300, R301), the sample forms of UNPACK
(44_unpack.md R281 to R283) and the windows (10_state.md R26, R27). All on unbounded naturals. -/

namespace Sys2Proof.Machine

/-! ### Fields of the operand registers -/

/-- The bits of FMT that are not reserved (R30). -/
def fmtMask : Word := 0x070F073F

/-- FMT.BD, bits per sample. -/
def State.bd (s : State) : Nat := (s.fmt.extractLsb' 0 6).toNat

/-- FMT.NC, samples per pixel. -/
def State.nc (s : State) : Nat := (s.fmt.extractLsb' 8 3).toNat

/-- FMT.LZWMIN. -/
def State.lzwMin (s : State) : Nat := (s.fmt.extractLsb' 16 4).toNat

/-- FMT.VFLIP. -/
def State.vflip (s : State) : Bool := s.fmt.getLsbD 24

/-- FMT.LE. -/
def State.le (s : State) : Bool := s.fmt.getLsbD 25

/-- FMT.ALIGN4. -/
def State.align4 (s : State) : Bool := s.fmt.getLsbD 26

/-- W (R28). -/
def State.W (s : State) : Nat := s.width.toNat

/-- H (R29). -/
def State.H (s : State) : Nat := s.height.toNat

/-- STATUS.BUSY (R25, R45). -/
def State.busy (s : State) : Bool := decide (s.phase = .run)

/-! ### Derived sizes (R133) -/

/-- `RB = ceil(W·NC·BD/8)`. -/
def State.rb (s : State) : Nat := divCeil (s.W * s.nc * s.bd) 8

/-- `BPPB = max(1, ceil(BD·NC/8))`. -/
def State.bppb (s : State) : Nat := max 1 (divCeil (s.bd * s.nc) 8)

/-- `S`, the UNPACK source row stride. -/
def State.stride (s : State) : Nat := roundUp (divCeil (s.W * s.nc * s.bd) 8) (if s.align4 then 4 else 1)

/-- The samples of an UNPACK or HPRED row, `W·NC`. -/
def State.rowSamples (s : State) : Nat := s.W * s.nc

/-- `OUTSZ` of the operation `op`. -/
def State.outSize (s : State) : Nat :=
  match s.op.toNat with
  | 0 | 1 => s.H * s.rb
  | 2 | 3 | 6 => s.dstLen.toNat
  | 4 | 5 => s.W * s.H
  | 7 | 8 => s.H * s.W * s.nc
  | _ => 0

/-- Output bytes still free of a sequential output, `OUTSZ − OUT`. -/
def State.room (s : State) : Nat := s.outSize - s.out.toNat

/-- The stored row `y` of an output of H rows, flipped where VFLIP = 1 (R30). -/
def State.outRow (s : State) (y : Nat) : Nat := if s.vflip then s.H - 1 - y else y

/-! ### Windows -/

/-- Address `a` lies in the output window `[DST_ADDR, DST_ADDR + OUTSZ)` of `op`. -/
def State.inOutput (s : State) (a : Nat) : Bool :=
  decide (s.dstAddr.toNat ≤ a) && decide (a < s.dstAddr.toNat + s.outSize)

/-- Address `a` lies in the input window; HPRED has none (R26). -/
def State.inInput (s : State) (a : Nat) : Bool :=
  decide (s.op.toNat ≠ 8) && decide (s.srcAddr.toNat ≤ a)
    && decide (a < s.srcAddr.toNat + s.srcLen.toNat)

/-! ### Adam7 (R300, R301) -/

/-- The origin and strides of a pass. -/
structure PassGeometry where
  x0 : Nat
  y0 : Nat
  dx : Nat
  dy : Nat
deriving DecidableEq, Repr

/-- The pass table (R300). -/
def passGeometry : Nat → PassGeometry
  | 1 => ⟨0, 0, 8, 8⟩
  | 2 => ⟨4, 0, 8, 8⟩
  | 3 => ⟨0, 4, 4, 8⟩
  | 4 => ⟨2, 0, 4, 4⟩
  | 5 => ⟨0, 2, 2, 4⟩
  | 6 => ⟨1, 0, 2, 2⟩
  | _ => ⟨0, 1, 1, 2⟩

/-- `pw(p)`, pixels per pass row. -/
def State.passW (s : State) (p : Nat) : Nat :=
  (s.W + (passGeometry p).dx - 1 - (passGeometry p).x0) / (passGeometry p).dx

/-- `ph(p)`, rows in the pass. -/
def State.passH (s : State) (p : Nat) : Nat :=
  (s.H + (passGeometry p).dy - 1 - (passGeometry p).y0) / (passGeometry p).dy

/-- `prb(p)`, bytes per pass row without the filter byte. -/
def State.passRowBytes (s : State) (p : Nat) : Nat := divCeil (s.passW p * s.nc * s.bd) 8

/-- The smallest non-empty pass after `p` (R302). -/
def State.nextPass (s : State) (p : Nat) : Option Nat :=
  [1, 2, 3, 4, 5, 6, 7].find? fun q =>
    decide (p < q) && decide (0 < s.passW q) && decide (0 < s.passH q)

/-! ### UNPACK samples -/

/-- Sample `k` of a row of samples of 1, 2, 4 or 8 bits, MSB-first, zero-extended (R281). -/
def sampleSub8 (bd : Nat) (row : List Byte) (k : Nat) : Byte :=
  let q := k * bd
  BitVec.ofNat 8 ((row.getD (q / 8) 0).toNat / 2 ^ (8 - bd - q % 8) % 2 ^ bd)

/-- Sample `k` of 16 bits: its high byte (R282). -/
def sample16 (le : Bool) (row : List Byte) (k : Nat) : Byte :=
  if le then row.getD (2 * k + 1) 0 else row.getD (2 * k) 0

/-- Sample `k` of 32 bits: its most significant byte (R283). -/
def sample32 (le : Bool) (row : List Byte) (k : Nat) : Byte :=
  if le then row.getD (4 * k + 3) 0 else row.getD (4 * k) 0

/-! ### RLE4 pixels and PackBits counts (30_encoding.md R101) -/

/-- `v[7:4]` as a byte. -/
def highNibble (v : Byte) : Byte := (v.extractLsb' 4 4).setWidth 8

/-- `v[3:0]` as a byte. -/
def lowNibble (v : Byte) : Byte := (v.extractLsb' 0 4).setWidth 8

/-- Pixel `i` of an RLE4 encoded run of value `v` (R247). -/
def enc4Pixel (v : Byte) (i : Nat) : Byte := if i % 2 = 0 then highNibble v else lowNibble v

/-- Pixel `i` of an RLE4 absolute run (R248). -/
def abs4Pixel (data : List Byte) (i : Nat) : Byte := enc4Pixel (data.getD (i / 2) 0) i

/-- The copies of a repeat packet, `1 − sext_8(h)` (R251). -/
def repCount (h : Byte) : Nat := (1 - h.toInt).toNat

end Sys2Proof.Machine
end

