-- ==== Sys2Proof/Machine/Flags.lean ====
section
/-! DEFINITION. The flags and fault codes: the views of CTRL and STATUS a read gives (10_state.md
R24, R25), the interrupt line (R46), and the fault codes (60_exceptions.md R320). -/

namespace Sys2Proof.Machine

/-- CTRL as it reads: OP and IRQ_EN; START and ABORT read 0 (R24). -/
def ctrlValue (s : State) : Word := BitVec.ofNat 32 (16 * s.ctrlOp.toNat + 256 * s.irqEn.toNat)

/-- STATUS as it reads (R25). -/
def statusValue (s : State) : Word :=
  BitVec.ofNat 32 (s.busy.toNat + 2 * s.done.toNat + 4 * s.fault.toNat + 8 * s.ovf.toNat
    + 16 * s.short.toNat + 256 * s.fcode.toNat)

/-- `IRQ = IRQ_EN & (DONE | FAULT)` (R46, 60_exceptions.md R330). -/
def irq (s : State) : Bool := s.irqEn && (s.done || s.fault)

/-- The fault codes' names (R320). -/
inductive FaultCode where
  | badOp
  | badParam
  | range
  | trunc
  | filter
  | lzwCode
  | abort
deriving DecidableEq, Repr

/-- FCODE's value for each fault (R320). -/
def faultValue : FaultCode → BitVec 8
  | .badOp => 0x01
  | .badParam => 0x02
  | .range => 0x03
  | .trunc => 0x04
  | .filter => 0x05
  | .lzwCode => 0x06
  | .abort => 0x07

/-- START clears DONE, FAULT, OVF, SHORT and FCODE (40_command.md R134). -/
def clearFlags (s : State) : State :=
  { s with done := false, fault := false, ovf := false, short := false, fcode := 0 }

/-- STATUS.OVF <- 1 (R25). -/
def setOvf (s : State) : State := { s with ovf := true }

/-- STATUS.SHORT <- 1 where the output is not full (42_lzw.md R208). -/
def noteShort (s : State) : State :=
  if s.out.toNat < s.outSize then { s with short := true } else s

end Sys2Proof.Machine
end

