-- ==== Sys2Proof/Machine/Ops.lean ====
section
/-! DEFINITION. The shared operations: input cursor, output (00_scope.md R13), pixel placement
(43_rle_packbits.md R241), completion (40_command.md R140), fault entry (60_exceptions.md R325) and
acknowledgement (R155), and the loops the meanings are written with. -/

namespace Sys2Proof.Machine

/-- The outcome of every meaning. -/
abbrev Result := Host.Outcome State Fault Refusal

/-- An engine access outside the data memory stops the model (entry 15). -/
def orFault : Option State → Result
  | some s => .next s
  | none => .fault .addressOutsideMemory

/-- `for` over a list, ended by the first access that does not exist. -/
def each {α σ : Type} (f : α → σ → Option σ) : List α → σ → Option σ
  | [], s => some s
  | a :: l, s => (f a s).bind (each f l)

/-! ### Registers -/

/-- `BP <- BP + n` (10_state.md R21). -/
def advance (n : Nat) (s : State) : State := { s with bp := s.bp + BitVec.ofNat 35 n }

/-- `OUT <- OUT + n` (R22). -/
def countOut (n : Nat) (s : State) : State := { s with out := s.out + BitVec.ofNat 32 n }

/-- `r <- r + 1` (R44). -/
def nextRow (s : State) : State := { s with r := s.r + 1 }

/-- Replace the first bytes of a line buffer, the rest staying (R40). -/
def overlay (row buffer : List Byte) : List Byte := row ++ buffer.drop row.length

/-! ### Memory and output -/

/-- `MemWrite(a, 1, v)`. -/
def memWrite (a : Nat) (v : Byte) (s : State) : Option State :=
  (s.mem.store s.params.memSize a v).map fun m => { s with mem := m }

/-- Ascending `MemWrite`s from `a`. -/
def memWriteAll (a : Nat) (vs : List Byte) (s : State) : Option State :=
  (s.mem.storeAll s.params.memSize a vs).map fun m => { s with mem := m }

/-- Zero-fill the output window (40_command.md R137). -/
def zeroFill (s : State) : Option State :=
  memWriteAll s.dstAddr.toNat (List.replicate s.outSize 0) s

/-- `Emit(v)` (00_scope.md R13). -/
def emit (v : Byte) (s : State) : Option State :=
  if s.out.toNat < s.outSize then
    (memWrite (s.dstAddr.toNat + s.out.toNat) v s).map (countOut 1)
  else some (setOvf s)

/-- `Emit` each byte in order. -/
def emitAll (vs : List Byte) (s : State) : Option State := each emit vs s

/-- `x <- min(x + dx, W); y <- min(y + dy, H)` (43_rle_packbits.md R245). -/
def movePixel (dx dy : Nat) (s : State) : State :=
  { s with
    x := BitVec.ofNat 32 (min (s.x.toNat + dx) s.W)
    y := BitVec.ofNat 32 (min (s.y.toNat + dy) s.H) }

/-- `x <- min(x + 1, W)` (R241). -/
def stepPixel (s : State) : State := { s with x := BitVec.ofNat 32 (min (s.x.toNat + 1) s.W) }

/-- The address of pixel (x, y), `DST_ADDR + yo·W + x` (R241). -/
def pixelAddress (s : State) : Nat :=
  s.dstAddr.toNat + s.outRow s.y.toNat * s.W + s.x.toNat

/-- `PutPixel(v)` (R241). -/
def putPixel (v : Byte) (s : State) : Option State :=
  (if s.x.toNat < s.W ∧ s.y.toNat < s.H then
    (memWrite (pixelAddress s) v s).map (countOut 1)
  else some (setOvf s)).map stepPixel

/-- `PutPixel` each value in order. -/
def putPixels (vs : List Byte) (s : State) : Option State := each putPixel vs s

/-! ### The end of a step -/

/-- What register reads show of the present boundary (10_state.md R48). -/
def boundaryOf (s : State) : Boundary :=
  { bp := s.bp, out := s.out, x := s.x, y := s.y, r := s.r, p := s.p, ovf := s.ovf }

/-- A step that does not end the operation leaves one more boundary to be seen. -/
def continueRun (s : State) : State := { s with seen := boundaryOf s :: s.seen }

/-- `Complete()` (40_command.md R140). -/
def complete (s : State) : State := { s with phase := .idle, done := true, seen := [] }

/-- The completion test at the end of a step (R138). -/
def finish (isComplete : Bool) (s : State) : State :=
  if isComplete then complete s else continueRun s

/-- Complete when the last row is done: `r = H` (R140). -/
def finishRow (s : State) : State := finish (decide (s.r.toNat = s.H)) s

/-- Complete when the output is full: `OUT = OUTSZ` (R140). -/
def finishFull (s : State) : State := finish (decide (s.out.toNat = s.outSize)) s

/-! ### Taking a fault, and acknowledging it -/

/-- Fault entry (60_exceptions.md R325): what is recorded and where control goes. -/
def enterFault (code : FaultCode) (info faddr : Word) (s : State) : State :=
  { s with
    faddr := faddr
    finfo := info
    fcode := faultValue code
    fault := true
    done := false
    phase := .idle
    seen := [] }

/-- The output window's contents become unspecified (R326): every byte of it a free value. -/
def scrambleOutput (s : State) : State :=
  { s with
    mem := s.mem.havoc s.free s.dstAddr.toNat (min s.outSize (s.params.memSize - s.dstAddr.toNat))
    free := s.free + 1 }

/-- FADDR of a fault raised in a step: `BP div 8`, and 0 for E_ABORT (R325, 10_state.md R35). -/
def faultAddress (code : FaultCode) (s : State) : Word :=
  if code = .abort then 0 else BitVec.ofNat 32 (s.bp.toNat / 8)

/-- `raise Fault(code, info)` inside an element step; `s` is the state at the start of the step, so
the progress registers keep their values (R325), and the output window is scrambled (R326). -/
def raiseInStep (code : FaultCode) (info : Word) (s : State) : State :=
  enterFault code info (faultAddress code s) (scrambleOutput s)

/-- `raise Fault(code, info)` by START's checks: memory is unchanged and FADDR is 0 (R325, R326). -/
def raiseAtStart (code : FaultCode) (info : Word) (s : State) : State :=
  enterFault code info 0 s

/-- ACK (40_command.md R155), the host's answer to a fault or a completion: PXR-1 has no return from
a fault (R327). FCODE, OVF, SHORT, FADDR and FINFO stay. -/
def acknowledge (ackDone ackFault : Bool) (s : State) : State :=
  { s with done := s.done && !ackDone, fault := s.fault && !ackFault }

end Sys2Proof.Machine
end

