-- ==== Sys2Proof/Machine/Lzw.lean ====
section
/-! DEFINITION. LZW codes, GIF and TIFF (42_lzw.md R200 to R213). -/

namespace Sys2Proof.Machine

/-- MIN: FMT.LZWMIN for GIF, 8 for TIFF (R200). -/
def State.lzwMinOf (s : State) (kind : LzwKind) : Nat :=
  match kind with
  | .gif => s.lzwMin
  | .tiff => 8

/-- `w <- MIN + 1; next <- CLEAR + 2; prev <- NONE` (R201, R202). -/
def lzwReset (min : Nat) (s : State) : State :=
  { s with w := BitVec.ofNat 4 (min + 1), next := BitVec.ofNat 13 (2 ^ min + 2), prev := none }

/-- `str(c)` (10_state.md R41). The first argument bounds the chain at 4096 links, more than any
chain of the dictionary has (entry 23). -/
def lzwString (clear : Nat) (d : Dict) : Nat → Nat → List Byte
  | 0, _ => []
  | fuel + 1, c =>
    if c < clear then [BitVec.ofNat 8 c]
    else lzwString clear d fuel (d.read c).pfx.toNat ++ [(d.read c).sfx]

/-- `str(code)` in the present state of the variant. -/
def State.str (s : State) (kind : LzwKind) (code : BitVec 12) : List Byte :=
  lzwString (2 ^ s.lzwMinOf kind) s.dict 4096 code.toNat

/-- The width grows when next reaches 2^w (GIF, R205) or 2^w − 1 (TIFF, R213), up to 12. -/
def growWidth (kind : LzwKind) (s : State) : State :=
  let limit := match kind with
    | .gif => s.next.toNat
    | .tiff => s.next.toNat + 1
  if limit = 2 ^ s.w.toNat ∧ s.w.toNat < 12 then { s with w := s.w + 1 } else s

/-- `AddEntry(pfx, sfx)` (R203); a full dictionary takes nothing (R211). -/
def addEntry (kind : LzwKind) (pfx : BitVec 12) (sfx : Byte) (s : State) : State :=
  if s.next.toNat < 4096 then
    growWidth kind { s with dict := s.dict.write s.next.toNat ⟨pfx, sfx⟩, next := s.next + 1 }
  else s

/-- `if prev ≠ NONE: AddEntry(prev, sfx)` and then `prev <- code` (R204, R206, R207). -/
def learn (kind : LzwKind) (sfx : Byte) (code : BitVec 12) (s : State) : State :=
  let t := match s.prev with
    | some p => addEntry kind p sfx s
    | none => s
  { t with prev := some code }

/-- Read a code of `w` bits, emit its string, learn, and test for completion (R210, R212). -/
def runCode (kind : LzwKind) (string : List Byte) (code : BitVec 12) (s : State) : Result :=
  orFault ((emitAll string (advance s.w.toNat s)).map fun t =>
    finishFull (learn kind (string.headD 0) code t))

/-- ROOT (R204). -/
def lzwRoot (kind : LzwKind) (code : BitVec 12) (s : State) : Result :=
  runCode kind [code.setWidth 8] code s

/-- DICT (R206). -/
def lzwDict (kind : LzwKind) (code : BitVec 12) (s : State) : Result :=
  runCode kind (s.str kind code) code s

/-- `str(prev) ++ [str(prev)[0]]` (R207). -/
def State.kwkwkString (s : State) (kind : LzwKind) : List Byte :=
  match s.prev with
  | some p => s.str kind p ++ [(s.str kind p).headD 0]
  | none => []

/-- KWKWK (R207). -/
def lzwKwkwk (kind : LzwKind) (code : BitVec 12) (s : State) : Result :=
  runCode kind (s.kwkwkString kind) code s

/-- CLEAR (R202). -/
def lzwClear (kind : LzwKind) (s : State) : Result :=
  .next (finishFull (lzwReset (s.lzwMinOf kind) (advance s.w.toNat s)))

/-- EOI (R208). -/
def lzwEoi (s : State) : Result := .next (complete (noteShort (advance s.w.toNat s)))

/-- INVALID (R209): E_LZW_CODE with the code. -/
def lzwInvalid (code : BitVec 12) (s : State) : Result :=
  .next (raiseInStep .lzwCode (code.setWidth 32) s)

/-- LZW_GIF_ROOT (R204). -/
def execLzwGifRoot (code : BitVec 12) (s : State) : Result := lzwRoot .gif code s

/-- LZW_GIF_CLEAR (R202). -/
def execLzwGifClear (s : State) : Result := lzwClear .gif s

/-- LZW_GIF_EOI (R208). -/
def execLzwGifEoi (s : State) : Result := lzwEoi s

/-- LZW_GIF_DICT (R206). -/
def execLzwGifDict (code : BitVec 12) (s : State) : Result := lzwDict .gif code s

/-- LZW_GIF_KWKWK (R207). -/
def execLzwGifKwkwk (code : BitVec 12) (s : State) : Result := lzwKwkwk .gif code s

/-- LZW_GIF_INVALID (R209). -/
def execLzwGifInvalid (code : BitVec 12) (s : State) : Result := lzwInvalid code s

/-- LZW_TIFF_ROOT (R204). -/
def execLzwTiffRoot (code : BitVec 12) (s : State) : Result := lzwRoot .tiff code s

/-- LZW_TIFF_CLEAR (R202). -/
def execLzwTiffClear (s : State) : Result := lzwClear .tiff s

/-- LZW_TIFF_EOI (R208). -/
def execLzwTiffEoi (s : State) : Result := lzwEoi s

/-- LZW_TIFF_DICT (R206). -/
def execLzwTiffDict (code : BitVec 12) (s : State) : Result := lzwDict .tiff code s

/-- LZW_TIFF_KWKWK (R207). -/
def execLzwTiffKwkwk (code : BitVec 12) (s : State) : Result := lzwKwkwk .tiff code s

/-- LZW_TIFF_INVALID (R209). -/
def execLzwTiffInvalid (code : BitVec 12) (s : State) : Result := lzwInvalid code s

end Sys2Proof.Machine
end

