-- ==== Sys2Proof/Machine/Adam7.lean ====
section
/-! DEFINITION. The Adam7 reassembler: pass entry, the scatter of a pass row, pass sequencing
(45_adam7.md R302, R303). -/

namespace Sys2Proof.Machine

/-- `EnterPass(q)` (R302). -/
def enterPass (q : Nat) (s : State) : State :=
  { s with
    p := BitVec.ofNat 3 q
    r := 0
    prior := overlay (List.replicate (s.passRowBytes q) 0) s.prior }

/-- Bit `q` of a row, MSB-first (R303, 00_scope.md R12). -/
def rowBit (row : List Byte) (q : Nat) : Bool := (row.getD (q / 8) 0).getLsbD (7 - q % 8)

/-- A byte with its bit `i` set to `v`. -/
def setBit (b : Byte) (i : Nat) (v : Bool) : Byte :=
  if v then b ||| BitVec.ofNat 8 (2 ^ i) else b &&& ~~~ BitVec.ofNat 8 (2 ^ i)

/-- `PutBit(base, q, v)` (R303). -/
def putBit (base q : Nat) (v : Bool) (s : State) : Option State :=
  memWrite (base + q / 8) (setBit (s.mem.read (base + q / 8)) (7 - q % 8) v) s

/-- The scatter of one pixel of a pass row: its bits from `px·PB` of the row to `x·PB` of the output
row at `base` (R303). -/
def scatterPixel (row : List Byte) (base pb x0 dx px : Nat) (s : State) : Option State :=
  each (fun t => putBit base ((x0 + px * dx) * pb + t) (rowBit row (px * pb + t)))
    (List.range pb) s

/-- The scatter of the reconstructed pass row (R303). -/
def scatterRow (row : List Byte) (s : State) : Option State :=
  let g := passGeometry s.p.toNat
  let base := s.dstAddr.toNat + (g.y0 + s.r.toNat * g.dy) * s.rb
  each (scatterPixel row base (s.nc * s.bd) g.x0 g.dx) (List.range (s.passW s.p.toNat)) s

/-- After a pass row (R302): enter the next non-empty pass, or complete after the last one. -/
def finishPass (s : State) : State :=
  if s.r.toNat = s.passH s.p.toNat then
    match s.nextPass s.p.toNat with
    | some q => finish false (enterPass q s)
    | none => finish true s
  else finish false s

/-- The second half of an ADAM7 step: scatter, `OUT <- OUT + pw(p)`, `r <- r + 1` (R303). -/
def adam7Finish (row : List Byte) (s : State) : Option State :=
  (scatterRow row s).map fun t => finishPass (nextRow (countOut (t.passW t.p.toNat) t))

end Sys2Proof.Machine
end

