-- ==== Sys2Proof/Machine/Png.lean ====
section
/-! DEFINITION. PNG rows (41_png_defilter.md), run by DEFILTER and by ADAM7. -/

namespace Sys2Proof.Machine

/-- The five predictors (R172 to R176). -/
inductive PngFilter where
  | none
  | sub
  | up
  | avg
  | paeth
deriving DecidableEq, Repr

/-- `PaethPredictor(a, b, c)` (R176), formed on integers (R178). -/
def paethPredictor (a b c : Byte) : Byte :=
  let p : Int := (a.toNat : Int) + (b.toNat : Int) - (c.toNat : Int)
  let pa := (p - (a.toNat : Int)).natAbs
  let pb := (p - (b.toNat : Int)).natAbs
  let pc := (p - (c.toNat : Int)).natAbs
  if pa ≤ pb ∧ pa ≤ pc then a else if pb ≤ pc then b else c

/-- `Pred(f, a, b, c)` (R172 to R176). -/
def predict (f : PngFilter) (a b c : Byte) : Byte :=
  match f with
  | .none => 0
  | .sub => a
  | .up => b
  | .avg => BitVec.ofNat 8 ((a.toNat + b.toNat) / 2)
  | .paeth => paethPredictor a b c

/-- Byte `i` of a row, 0 for the pixel before the row's first (R170, R171). -/
def leftOf (bppb : Nat) (row : List Byte) (i : Nat) : Byte :=
  if bppb ≤ i then row.getD (i - bppb) 0 else 0

/-- The reconstruction loop (R170): `cur` is the row so far, so its length is the index. -/
def defilterFrom (f : PngFilter) (bppb : Nat) (prior : List Byte) : List Byte → List Byte → List Byte
  | [], cur => cur
  | d :: ds, cur =>
    let i := cur.length
    let v := d + predict f (leftOf bppb cur i) (prior.getD i 0) (leftOf bppb prior i)
    defilterFrom f bppb prior ds (cur ++ [v])

/-- CUR[0..len) from the raw bytes of a row and PRIOR (R170). -/
def defilterRow (f : PngFilter) (bppb : Nat) (prior raw : List Byte) : List Byte :=
  defilterFrom f bppb prior raw []

/-- The row becomes CUR and then PRIOR (R170, R180). -/
def keepRow (row : List Byte) (s : State) : State :=
  { s with cur := overlay row s.cur, prior := overlay row s.prior }

/-- The second half of a DEFILTER step: write the row, `OUT <- OUT + RB`, `r <- r + 1` (R170). -/
def defilterFinish (row : List Byte) (s : State) : Option State :=
  (memWriteAll (s.dstAddr.toNat + s.r.toNat * s.rb) row s).map fun t =>
    finishRow (nextRow (countOut t.rb t))

/-- The row step (R170). -/
def pngRow (f : PngFilter) (raw : List Byte) (s : State) : Result :=
  let row := defilterRow f s.bppb s.prior raw
  let t := keepRow row (advance (8 * (1 + raw.length)) s)
  orFault (if s.op.toNat = 1 then adam7Finish row t else defilterFinish row t)

/-- PNG_NONE (R172). -/
def execPngNone (raw : List Byte) (s : State) : Result := pngRow .none raw s

/-- PNG_SUB (R173). -/
def execPngSub (raw : List Byte) (s : State) : Result := pngRow .sub raw s

/-- PNG_UP (R174). -/
def execPngUp (raw : List Byte) (s : State) : Result := pngRow .up raw s

/-- PNG_AVG (R175). -/
def execPngAvg (raw : List Byte) (s : State) : Result := pngRow .avg raw s

/-- PNG_PAETH (R176). -/
def execPngPaeth (raw : List Byte) (s : State) : Result := pngRow .paeth raw s

/-- PNG_ILLEGAL (R177): E_FILTER with the filter byte. -/
def execPngIllegal (f : Byte) (s : State) : Result :=
  .next (raiseInStep .filter (f.setWidth 32) s)

end Sys2Proof.Machine
end

