-- ==== Sys2Proof/Machine/Command.lean ====
section
/-! DEFINITION. The host commands START, ABORT and ACK (40_command.md R134 to R137, R145 to R155). -/

namespace Sys2Proof.Machine

/-- The fields of a CTRL write other than START (10_state.md R24): while BUSY = 1 it updates IRQ_EN
and honours ABORT, otherwise it updates IRQ_EN and OP and ABORT has no effect. -/
def writeCtrl (irqEn abort : Bool) (op : BitVec 4) (s : State) : State :=
  if s.busy then { s with irqEn := irqEn, abortReq := s.abortReq || abort }
  else { s with irqEn := irqEn, ctrlOp := op }

/-- START's clearing and `op <- CTRL.OP` (R134). -/
def clearForStart (s : State) : State :=
  { clearFlags s with
    faddr := 0, finfo := 0, bp := 0, out := 0, x := 0, y := 0, r := 0, p := 0
    abortReq := false, op := s.ctrlOp }

/-- Operations that use WIDTH and HEIGHT (checks 2, 3). -/
def usesDimensions (op : Nat) : Bool :=
  decide (op = 0) || decide (op = 1) || decide (op = 4) || decide (op = 5) || decide (op = 7)
    || decide (op = 8)

/-- The sample widths check 4 admits; operations it does not apply to admit any. -/
def bdLegal (op bd : Nat) : Bool :=
  match op with
  | 0 | 1 => decide (bd = 1) || decide (bd = 2) || decide (bd = 4) || decide (bd = 8) || decide (bd = 16)
  | 7 =>
    decide (bd = 1) || decide (bd = 2) || decide (bd = 4) || decide (bd = 8) || decide (bd = 16)
      || decide (bd = 32)
  | 8 => decide (bd = 8)
  | _ => true

/-- Operations check 5 applies to. -/
def usesComponents (op : Nat) : Bool :=
  decide (op = 0) || decide (op = 1) || decide (op = 7) || decide (op = 8)

/-- LZW_GIF, LZW_TIFF and PACKBITS, whose OUTSZ is DST_LEN (checks 8, 9). -/
def isSequential (op : Nat) : Bool := decide (op = 2) || decide (op = 3) || decide (op = 6)

/-- The input and output windows do not overlap (check 12). -/
def windowsDisjoint (s : State) : Bool :=
  decide (s.srcLen.toNat = 0) || decide (s.srcAddr.toNat + s.srcLen.toNat ≤ s.dstAddr.toNat)
    || decide (s.dstAddr.toNat + s.outSize ≤ s.srcAddr.toNat)

/-- `1 ≤ v ≤ MAX_DIM` (checks 2, 3). -/
def State.dimOk (s : State) (v : Nat) : Bool := decide (1 ≤ v) && decide (v ≤ s.params.maxDim)

/-- START's checks in their order (R135): the fault of the first that fails, with its FINFO. -/
def startFault (s : State) : Option (FaultCode × Word) :=
  let op := s.op.toNat
  if 8 < op then some (.badOp, BitVec.ofNat 32 op)
  else if usesDimensions op && !s.dimOk s.W then some (.badParam, 2)
  else if usesDimensions op && !s.dimOk s.H then some (.badParam, 3)
  else if !bdLegal op s.bd then some (.badParam, 4)
  else if usesComponents op && !(decide (1 ≤ s.nc) && decide (s.nc ≤ 4)) then some (.badParam, 5)
  else if decide (op = 2) && !(decide (2 ≤ s.lzwMin) && decide (s.lzwMin ≤ 8)) then some (.badParam, 6)
  else if (decide (op = 0) || decide (op = 1)) && decide (s.params.maxRowBytes < s.rb) then
    some (.badParam, 7)
  else if isSequential op && decide (s.dstLen.toNat = 0) then some (.badParam, 8)
  else if !isSequential op && decide (s.dstLen.toNat < s.outSize) then some (.range, 9)
  else if s.params.memSize < s.dstAddr.toNat + s.outSize then some (.range, 10)
  else if decide (op ≠ 8) && decide (s.params.memSize < s.srcAddr.toNat + s.srcLen.toNat) then
    some (.range, 11)
  else if decide (op ≠ 8) && !windowsDisjoint s then some (.range, 12)
  else none

/-- The initialisation of each operation (R137). -/
def initialise (s : State) : Option State :=
  match s.op.toNat with
  | 0 => some { s with r := 0, prior := overlay (List.replicate s.rb 0) s.prior }
  | 1 => (zeroFill s).map (enterPass 1)
  | 2 => some (lzwReset (s.lzwMinOf .gif) s)
  | 3 => some (lzwReset (s.lzwMinOf .tiff) s)
  | 4 | 5 => zeroFill { s with x := 0, y := 0 }
  | 7 | 8 => some { s with r := 0 }
  | _ => some s

/-- The boundary START leaves is the first a register read may show (10_state.md R48). -/
def openRun (s : State) : State := { s with seen := [boundaryOf s] }

/-- The CTRL write that carries START (R134): ignored but for its IRQ_EN and ABORT while BUSY = 1;
otherwise clear, check, and either fault or begin the operation. -/
def startCommand (op : BitVec 4) (irqEn abort : Bool) (s : State) : Result :=
  if s.busy then .next (writeCtrl irqEn abort op s)
  else
    let t := clearForStart (writeCtrl irqEn abort op s)
    match startFault t with
    | some (code, info) => .next (raiseAtStart code info t)
    | none => orFault ((initialise { t with phase := .run }).map openRun)

/-- START_DEFILTER (R145). -/
def execStartDefilter (irqEn abort : Bool) (s : State) : Result := startCommand 0 irqEn abort s

/-- START_ADAM7 (R146). -/
def execStartAdam7 (irqEn abort : Bool) (s : State) : Result := startCommand 1 irqEn abort s

/-- START_LZW_GIF (R147). -/
def execStartLzwGif (irqEn abort : Bool) (s : State) : Result := startCommand 2 irqEn abort s

/-- START_LZW_TIFF (R148). -/
def execStartLzwTiff (irqEn abort : Bool) (s : State) : Result := startCommand 3 irqEn abort s

/-- START_RLE8 (R149). -/
def execStartRle8 (irqEn abort : Bool) (s : State) : Result := startCommand 4 irqEn abort s

/-- START_RLE4 (R150). -/
def execStartRle4 (irqEn abort : Bool) (s : State) : Result := startCommand 5 irqEn abort s

/-- START_PACKBITS (R151). -/
def execStartPackbits (irqEn abort : Bool) (s : State) : Result := startCommand 6 irqEn abort s

/-- START_UNPACK (R152). -/
def execStartUnpack (irqEn abort : Bool) (s : State) : Result := startCommand 7 irqEn abort s

/-- START_HPRED (R153). -/
def execStartHpred (irqEn abort : Bool) (s : State) : Result := startCommand 8 irqEn abort s

/-- START_RESERVED (R135 check 1): E_BAD_OP. -/
def execStartReserved (irqEn abort : Bool) (op : BitVec 4) (s : State) : Result :=
  startCommand op irqEn abort s

/-- ABORT (R154). -/
def execAbort (irqEn : Bool) (op : BitVec 4) (s : State) : Result :=
  .next (writeCtrl irqEn true op s)

/-- ACK (R155). -/
def execAck (ackDone ackFault : Bool) (s : State) : Result := .next (acknowledge ackDone ackFault s)

end Sys2Proof.Machine
end

