-- ==== Sys2Proof/Machine/Hpred.lean ====
section
/-! DEFINITION. The HPRED row (42_lzw.md R220). -/

namespace Sys2Proof.Machine

/-- The running sums of a row (R220): `done` is the row so far, so its length is the index. -/
def sumFrom (nc : Nat) : List Byte → List Byte → List Byte
  | [], done => done
  | d :: ds, done =>
    sumFrom nc ds (done ++ [if done.length < nc then d else d + done.getD (done.length - nc) 0])

/-- A row of differences undone: each sample from the NC-th on adds the one NC before it. -/
def undoPredictor (nc : Nat) (row : List Byte) : List Byte := sumFrom nc row []

/-- `base = DST_ADDR + r·W·NC` (R220). -/
def hpredAddress (s : State) : Nat := s.dstAddr.toNat + s.r.toNat * s.rowSamples

/-- HPRED_ROW (R220): in place, row by row; the first NC bytes are stored back unchanged (entry 22). -/
def execHpredRow (s : State) : Result :=
  orFault ((s.mem.loadAll s.params.memSize (hpredAddress s) s.rowSamples).bind fun row =>
    (memWriteAll (hpredAddress s) (undoPredictor s.nc row) s).map fun t =>
      finishRow (nextRow (countOut t.rowSamples t)))

end Sys2Proof.Machine
end

