-- ==== Sys2Proof/Machine/PackBits.lean ====
section
/-! DEFINITION. PackBits packets (43_rle_packbits.md R249 to R252). -/

namespace Sys2Proof.Machine

/-- Consume a packet of `n` bytes, emit, and set OVF where the packet was cut at OUTSZ. -/
def runPacket (n : Nat) (bytes : List Byte) (cut : Bool) (s : State) : Result :=
  orFault ((emitAll bytes (advance (8 * n) s)).map fun t =>
    finishFull (if cut then setOvf t else t))

/-- PB_LIT (R250): `data` are the bytes read, `min(h + 1, OUTSZ − OUT)` of them. -/
def execPbLit (h : BitVec 7) (data : List Byte) (s : State) : Result :=
  runPacket (1 + data.length) data (decide (data.length < h.toNat + 1)) s

/-- PB_REP (R251). -/
def execPbRep (h v : Byte) (s : State) : Result :=
  runPacket 2 (List.replicate (min (repCount h) s.room) v)
    (decide (min (repCount h) s.room < repCount h)) s

/-- PB_NOP (R252). -/
def execPbNop (s : State) : Result := .next (finishFull (advance 8 s))

end Sys2Proof.Machine
end

