-- ==== Sys2Proof/Machine/Rle.lean ====
section
/-! DEFINITION. BMP run-length elements, RLE8 and RLE4 (43_rle_packbits.md R240 to R248). -/

namespace Sys2Proof.Machine

/-- Consume an element of `n` bytes and place its pixels; only EOB completes (R240, R244). -/
def runPixels (n : Nat) (pixels : List Byte) (s : State) : Result :=
  orFault ((putPixels pixels (advance (8 * n) s)).map (finish false))

/-- `x <- 0; y <- min(y + 1, H)` (R243). -/
def newLine (s : State) : State :=
  { s with x := 0, y := BitVec.ofNat 32 (min (s.y.toNat + 1) s.H) }

/-- RLE8_ENC (R242). -/
def execRle8Enc (n v : Byte) (s : State) : Result := runPixels 2 (List.replicate n.toNat v) s

/-- RLE8_EOL (R243). -/
def execRle8Eol (s : State) : Result := .next (finish false (newLine (advance 16 s)))

/-- RLE8_EOB (R244). -/
def execRle8Eob (s : State) : Result := .next (finish true (advance 16 s))

/-- RLE8_DELTA (R245). -/
def execRle8Delta (dx dy : Byte) (s : State) : Result :=
  .next (finish false (movePixel dx.toNat dy.toNat (advance 32 s)))

/-- RLE8_ABS (R246): n data bytes and a pad byte where n is odd. -/
def execRle8Abs (n : Byte) (data : List Byte) (s : State) : Result :=
  runPixels (2 + n.toNat + n.toNat % 2) data s

/-- RLE4_ENC (R247). -/
def execRle4Enc (n v : Byte) (s : State) : Result :=
  runPixels 2 ((List.range n.toNat).map (enc4Pixel v)) s

/-- RLE4_EOL (R243). -/
def execRle4Eol (s : State) : Result := .next (finish false (newLine (advance 16 s)))

/-- RLE4_EOB (R244). -/
def execRle4Eob (s : State) : Result := .next (finish true (advance 16 s))

/-- RLE4_DELTA (R245). -/
def execRle4Delta (dx dy : Byte) (s : State) : Result :=
  .next (finish false (movePixel dx.toNat dy.toNat (advance 32 s)))

/-- RLE4_ABS (R248): m = ceil(n/2) data bytes and a pad byte where m is odd. -/
def execRle4Abs (n : Byte) (data : List Byte) (s : State) : Result :=
  let m := divCeil n.toNat 2
  runPixels (2 + m + m % 2) ((List.range n.toNat).map (abs4Pixel data)) s

end Sys2Proof.Machine
end

