-- ==== Sys2Proof/Machine/Unpack.lean ====
section
/-! DEFINITION. UNPACK rows (44_unpack.md R280 to R285). -/

namespace Sys2Proof.Machine

/-- The address of the first sample of the row, `DST_ADDR + yo·W·NC` (R280, R285). -/
def unpackAddress (s : State) : Nat := s.dstAddr.toNat + s.outRow s.r.toNat * s.rowSamples

/-- The row step (R280): the samples `0 .. W·NC − 1` in the order they are stored. -/
def unpackRow (sample : Nat → Byte) (row : List Byte) (s : State) : Result :=
  orFault ((memWriteAll (unpackAddress s) ((List.range s.rowSamples).map sample)
      (advance (8 * row.length) s)).map fun t =>
    finishRow (nextRow (countOut t.rowSamples t)))

/-- UNPACK_ROW_SUB8 (R281). -/
def execUnpackRowSub8 (row : List Byte) (s : State) : Result :=
  unpackRow (sampleSub8 s.bd row) row s

/-- UNPACK_ROW_16 (R282). -/
def execUnpackRow16 (row : List Byte) (s : State) : Result := unpackRow (sample16 s.le row) row s

/-- UNPACK_ROW_32 (R283). -/
def execUnpackRow32 (row : List Byte) (s : State) : Result := unpackRow (sample32 s.le row) row s

end Sys2Proof.Machine
end

