-- ==== Sys2Proof/Machine/Dispatch.lean ====
section
/-! DEFINITION. `exec`: one direct call of a meaning for each instruction. -/

namespace Sys2Proof.Machine

def exec (i : Instr) (s : State) : Host.Outcome State Fault Refusal :=
  match i with
  | .startDefilter a b => Sys2Proof.Machine.execStartDefilter a b s
  | .startAdam7 a b => Sys2Proof.Machine.execStartAdam7 a b s
  | .startLzwGif a b => Sys2Proof.Machine.execStartLzwGif a b s
  | .startLzwTiff a b => Sys2Proof.Machine.execStartLzwTiff a b s
  | .startRle8 a b => Sys2Proof.Machine.execStartRle8 a b s
  | .startRle4 a b => Sys2Proof.Machine.execStartRle4 a b s
  | .startPackbits a b => Sys2Proof.Machine.execStartPackbits a b s
  | .startUnpack a b => Sys2Proof.Machine.execStartUnpack a b s
  | .startHpred a b => Sys2Proof.Machine.execStartHpred a b s
  | .startReserved a b c => Sys2Proof.Machine.execStartReserved a b c s
  | .abort a b => Sys2Proof.Machine.execAbort a b s
  | .ack a b => Sys2Proof.Machine.execAck a b s
  | .pngNone a => Sys2Proof.Machine.execPngNone a s
  | .pngSub a => Sys2Proof.Machine.execPngSub a s
  | .pngUp a => Sys2Proof.Machine.execPngUp a s
  | .pngAvg a => Sys2Proof.Machine.execPngAvg a s
  | .pngPaeth a => Sys2Proof.Machine.execPngPaeth a s
  | .pngIllegal a => Sys2Proof.Machine.execPngIllegal a s
  | .rle8Enc a b => Sys2Proof.Machine.execRle8Enc a b s
  | .rle8Eol => Sys2Proof.Machine.execRle8Eol s
  | .rle8Eob => Sys2Proof.Machine.execRle8Eob s
  | .rle8Delta a b => Sys2Proof.Machine.execRle8Delta a b s
  | .rle8Abs a b => Sys2Proof.Machine.execRle8Abs a b s
  | .rle4Enc a b => Sys2Proof.Machine.execRle4Enc a b s
  | .rle4Eol => Sys2Proof.Machine.execRle4Eol s
  | .rle4Eob => Sys2Proof.Machine.execRle4Eob s
  | .rle4Delta a b => Sys2Proof.Machine.execRle4Delta a b s
  | .rle4Abs a b => Sys2Proof.Machine.execRle4Abs a b s
  | .pbLit a b => Sys2Proof.Machine.execPbLit a b s
  | .pbRep a b => Sys2Proof.Machine.execPbRep a b s
  | .pbNop => Sys2Proof.Machine.execPbNop s
  | .lzwGifRoot a => Sys2Proof.Machine.execLzwGifRoot a s
  | .lzwGifClear => Sys2Proof.Machine.execLzwGifClear s
  | .lzwGifEoi => Sys2Proof.Machine.execLzwGifEoi s
  | .lzwGifDict a => Sys2Proof.Machine.execLzwGifDict a s
  | .lzwGifKwkwk a => Sys2Proof.Machine.execLzwGifKwkwk a s
  | .lzwGifInvalid a => Sys2Proof.Machine.execLzwGifInvalid a s
  | .lzwTiffRoot a => Sys2Proof.Machine.execLzwTiffRoot a s
  | .lzwTiffClear => Sys2Proof.Machine.execLzwTiffClear s
  | .lzwTiffEoi => Sys2Proof.Machine.execLzwTiffEoi s
  | .lzwTiffDict a => Sys2Proof.Machine.execLzwTiffDict a s
  | .lzwTiffKwkwk a => Sys2Proof.Machine.execLzwTiffKwkwk a s
  | .lzwTiffInvalid a => Sys2Proof.Machine.execLzwTiffInvalid a s
  | .unpackRowSub8 a => Sys2Proof.Machine.execUnpackRowSub8 a s
  | .unpackRow16 a => Sys2Proof.Machine.execUnpackRow16 a s
  | .unpackRow32 a => Sys2Proof.Machine.execUnpackRow32 a s
  | .hpredRow => Sys2Proof.Machine.execHpredRow s

end Sys2Proof.Machine
end

