-- ==== Sys2Proof/Machine/Bus.lean ====
section
/-! DEFINITION. The host's accesses: register reads and writes (40_command.md R131, R132), data-memory
accesses (20_memory.md R60, R65, R70), and the reset input (70_reset_and_hazards.md R360, R361). -/

namespace Sys2Proof.Machine

/-! ### Register reads -/

/-- POS_X (10_state.md R33): x for RLE8 and RLE4, 0 otherwise. -/
def posX (s : State) : Word := if s.op.toNat = 4 ∨ s.op.toNat = 5 then s.x else 0

/-- POS_Y (R33): y for RLE8 and RLE4; r for the row operations; 0 for the sequential ones. -/
def posY (s : State) : Word :=
  if s.op.toNat = 4 ∨ s.op.toNat = 5 then s.y
  else if isSequential s.op.toNat then 0
  else s.r

/-- PASS (R34): p for ADAM7, 0 otherwise. -/
def passValue (s : State) : Word := if s.op.toNat = 1 then s.p.setWidth 32 else 0

/-- The value of the register at an offset (R23 to R38); reserved offsets read 0. -/
def readRegister (off : Nat) (s : State) : Word :=
  match off with
  | 0x00 => Config.id
  | 0x04 => ctrlValue s
  | 0x08 => statusValue s
  | 0x0C => s.srcAddr
  | 0x10 => s.srcLen
  | 0x14 => s.dstAddr
  | 0x18 => s.dstLen
  | 0x1C => s.width
  | 0x20 => s.height
  | 0x24 => s.fmt
  | 0x28 => BitVec.ofNat 32 (s.bp.toNat / 8)
  | 0x2C => BitVec.ofNat 32 (s.bp.toNat % 8)
  | 0x30 => s.out
  | 0x34 => posX s
  | 0x38 => posY s
  | 0x3C => passValue s
  | 0x40 => s.faddr
  | 0x44 => s.finfo
  | _ => 0

/-- The state as a read shows it at a step boundary (R48). A boundary holds what an engine step can
change; IRQ_EN, which a CTRL write changes while BUSY = 1, reads as the host last wrote it. DESIGN
CHOICE (entry 8): R48 leaves open whether a CTRL read may still show an earlier IRQ_EN. Unsafe. -/
def viewAt (b : Boundary) (s : State) : State :=
  { s with bp := b.bp, out := b.out, x := b.x, y := b.y, r := b.r, p := b.p, ovf := b.ovf }

/-- Which of the boundaries that may be seen a read shows: any (R48, 93 U11). -/
def seenIndex (s : State) : Nat := Config.readLag s.free % s.seen.length

/-- The boundary a read while BUSY = 1 shows. -/
def seenBoundary (s : State) : Boundary := s.seen.getD (seenIndex s) (boundaryOf s)

/-- `rd REG` (40_command.md R131). While BUSY = 1 it shows some boundary, and later reads show that
one or a later one (10_state.md R48). -/
def registerRead (off : Nat) (s : State) : State :=
  if s.busy then
    { s with
      returned := (readRegister off (viewAt (seenBoundary s) s)).toNat :: s.returned
      seen := s.seen.take (seenIndex s + 1)
      free := s.free + 1 }
  else { s with returned := (readRegister off s).toNat :: s.returned }

/-! ### Register writes -/

/-- A write to an operand register (R132); other offsets are read-only or reserved (R38). -/
def writeOperand (off : Nat) (v : Word) (s : State) : State :=
  match off with
  | 0x0C => { s with srcAddr := v }
  | 0x10 => { s with srcLen := v }
  | 0x14 => { s with dstAddr := v }
  | 0x18 => { s with dstLen := v }
  | 0x1C => { s with width := v }
  | 0x20 => { s with height := v }
  | 0x24 => { s with fmt := v &&& fmtMask }
  | _ => s

/-- `wr REG, v` (R132): a CTRL or STATUS word that carries a command runs it; operand registers take
no write while BUSY = 1 (10_state.md R39). -/
def registerWrite (off : Nat) (v : Word) (s : State) : Result :=
  if off = 4 then
    match decode .ctrl (leBytes v) with
    | .instr i => exec i s
    | _ => .next (writeCtrl (v.getLsbD 8) false (v.extractLsb' 4 4) s)
  else if off = 8 then
    match decode .status (leBytes v) with
    | .instr i => exec i s
    | _ => .next s
  else if s.busy then .next s
  else .next (writeOperand off v s)

/-! ### Data-memory accesses -/

/-- The `size` bytes of a host value in data memory, lowest address first: the byte at the lowest
address is the least significant (20_memory.md R65). -/
def splitBytes : Nat → Nat → List Byte
  | 0, _ => []
  | size + 1, v => BitVec.ofNat 8 v :: splitBytes size (v / 256)

/-- The host value of bytes of data memory, lowest address first (R65). -/
def joinBytes : List Byte → Nat
  | [] => 0
  | b :: bs => b.toNat + 256 * joinBytes bs

/-- What a host read of one byte gives (R70 item 4): any value in the output window while BUSY = 1. -/
def hostByte (a : Nat) (s : State) : Byte :=
  if s.busy && s.inOutput a then Config.busyByte s.free else s.mem.read a

/-- The host may not write a byte of a window of the running operation (R70 item 5). -/
def windowBusy (a : Nat) (s : State) : Bool := s.busy && (s.inOutput a || s.inInput a)

/-- What is left of a data-memory access goes back to the head of the queue, engine steps between the
bytes being any number (R65, 60_exceptions.md R340). -/
def resume (rest : Access) (s : State) : State :=
  { s with host := ⟨Config.byteGap s.free, rest⟩ :: s.host }

/-- One byte of a host read of `size` bytes from `a`, those in `got` having been read (R65). The last
byte completes the value; a byte that does not exist is not PXR-1's. -/
def memoryRead (a size : Nat) (got : List Byte) (s : State) : Result :=
  if s.params.memSize ≤ a then .refused .addressNotPxr
  else
    let bytes := got ++ [hostByte a s]
    let t := { s with free := s.free + 1 }
    .next (if size ≤ 1 then { t with returned := joinBytes bytes :: s.returned }
      else resume (.readRest (a + 1) (size - 1) bytes) t)

/-- One byte of a host write of `data` from `a`, refused in a window of the running operation (R65,
R70 item 5). -/
def memoryWrite (a : Nat) (data : List Byte) (s : State) : Result :=
  match data with
  | [] => .next s
  | v :: more =>
    if s.params.memSize ≤ a then .refused .addressNotPxr
    else if windowBusy a s then .refused .windowWriteWhileBusy
    else
      let t := { s with mem := s.mem.write a v, free := s.free + 1 }
      .next (if more.isEmpty then t else resume (.writeRest (a + 1) more) t)

/-! ### Address decoding -/

/-- Which space a host access belongs to (20_memory.md R60, R61, R67). -/
inductive Region where
  | register (off : Nat)
  | malformed
  | memory (a : Nat)
  | outside
deriving DecidableEq, Repr

/-- A register access is 32 bits wide at an offset that is a multiple of 4 (R65). -/
def registerForm (off size : Nat) : Bool := decide (off % 4 = 0) && decide (size = 4)

/-- The space of the access of `size` bytes at `addr`, decided on all its bytes at once. The register
block is 256 bytes at REG_BASE: an access that touches it is a register access, and malformed unless
it has R65's form. The data memory is MEM_SIZE bytes at MEM_BASE. -/
def regionOf (p : Params) (addr size : Nat) : Region :=
  if addr < p.regBase + 256 ∧ p.regBase < addr + size then
    if p.regBase ≤ addr ∧ registerForm (addr - p.regBase) size = true then
      .register (addr - p.regBase)
    else .malformed
  else if p.memBase ≤ addr ∧ addr + size ≤ p.memBase + p.memSize then .memory (addr - p.memBase)
  else .outside

/-- The reset input (70_reset_and_hazards.md R360, R361): every register at its reset value; data
memory unchanged, but for the output window of an abandoned run, whose bytes become unspecified. -/
def platformReset (s : State) : State :=
  let t := if s.busy then scrambleOutput s else s
  { State.reset with
    params := t.params, mem := t.mem, host := t.host, returned := t.returned, free := t.free }

/-- A host read of at least one byte. -/
def hostRead (addr size : Nat) (s : State) : Result :=
  match regionOf s.params addr size with
  | .register off => .next (registerRead off s)
  | .malformed => .refused .registerAccessForm
  | .memory a => memoryRead a size [] s
  | .outside => .refused .addressNotPxr

/-- A host write of at least one byte. -/
def hostWrite (addr size value : Nat) (s : State) : Result :=
  match regionOf s.params addr size with
  | .register off => registerWrite off (BitVec.ofNat 32 value) s
  | .malformed => .refused .registerAccessForm
  | .memory a => memoryWrite a (splitBytes size value) s
  | .outside => .refused .addressNotPxr

/-- One transition of the host (60_exceptions.md R340), its access already taken off the queue. An
access of no bytes changes nothing (entry 30). -/
def performAccess (a : Access) (s : State) : Result :=
  match a with
  | .reset => .next (platformReset s)
  | .read addr size => if size = 0 then .next s else hostRead addr size s
  | .write addr size value => if size = 0 then .next s else hostWrite addr size value s
  | .readRest a size got => memoryRead a size got s
  | .writeRest a data => memoryWrite a data s

end Sys2Proof.Machine
end

