-- ==== Sys2Proof/Machine/Fetch.lean ====
section
/-! DEFINITION. Fetching the next stream element of the running operation (30_encoding.md R92,
40_command.md R138), and placing one word where the next step fetches it. -/

namespace Sys2Proof.Machine

/-- The element format of the running operation (R138): none where `op` is none of the nine. -/
def State.ctx (s : State) : Option Ctx :=
  match s.op.toNat with
  | 0 => some (.png s.rb)
  | 1 => some (.png (s.passRowBytes s.p.toNat))
  | 2 => some (.lzw .gif s.lzwMin s.w.toNat s.next.toNat s.prev.isSome (s.bp.toNat % 8))
  | 3 => some (.lzw .tiff 8 s.w.toNat s.next.toNat s.prev.isSome (s.bp.toNat % 8))
  | 4 => some .rle8
  | 5 => some .rle4
  | 6 => some (.packbits s.room)
  | 7 => some (.unpack s.bd s.stride)
  | 8 => some .hpred
  | _ => none

/-- The bytes of the input window from the one BP is in to the window's end (10_state.md R21). -/
def State.input (s : State) : List Byte :=
  (List.range (s.srcLen.toNat - s.bp.toNat / 8)).map fun k =>
    s.mem.read (s.srcAddr.toNat + s.bp.toNat / 8 + k)

/-- The input window lies in the memory (40_command.md R135 check 11); HPRED reads no input. -/
def State.inputExists (s : State) : Bool :=
  decide (s.op.toNat = 8) || decide (s.srcAddr.toNat + s.srcLen.toNat ≤ s.params.memSize)

/-- The element at BP. -/
def fetch (s : State) : Decoded :=
  match s.ctx with
  | none => .illegalContext
  | some c => decode c s.input

/-- The host access that writes a command word to the register its kind is written to. -/
def commandAccess (s : State) (c : Ctx) (bytes : List Byte) : Queued :=
  { wait := 0
    access := .write (s.params.regBase + (if c = .status then 8 else 4)) 4 (wordOfLe bytes).toNat }

/-- The state that runs the one element stored at address 0: the operation of the family `c` in phase
RUN at its first element, with an input window of 512 bytes at 0 and an output window at 1024. -/
def runningAt (c : Ctx) (bytes : List Byte) (s : State) : State :=
  { s with
    phase := .run
    op := match c with
      | .rle8 => 4
      | .packbits _ => 6
      | .lzw _ _ _ _ _ _ => 3
      | _ => 0
    ctrlOp := match c with
      | .rle8 => 4
      | .packbits _ => 6
      | .lzw _ _ _ _ _ _ => 3
      | _ => 0
    abortReq := false
    host := []
    bp := 0, out := 0, x := 0, y := 0, r := 0, p := 0
    w := 12, next := 258, prev := none
    srcAddr := 0, srcLen := 512, dstAddr := 1024, dstLen := 128
    width := 1, height := 1, fmt := 0x108
    mem := (s.mem.storeAll s.params.memSize 0 bytes).getD s.mem }

/-- `s` with the table word stored where the next step fetches: a command word at the head of the
host's queue, an element in the input window of its running operation. -/
def placeTableWord (s : State) (nbits w : Nat) : State :=
  match tableCtx nbits w with
  | none => s
  | some c =>
    if c = .ctrl ∨ c = .status then
      { s with host := commandAccess s c (tableBytes nbits w) :: s.host }
    else runningAt c (tableBytes nbits w) s

end Sys2Proof.Machine
end

