-- ==== Sys2Proof/Machine/Engine.lean ====
section
/-! DEFINITION. The engine step (40_command.md R138, R139) and the order of host and engine
(60_exceptions.md R340, R347). -/

namespace Sys2Proof.Machine

/-- One engine step (R138): the abort test, then one element of the running operation. -/
def engineStep (s : State) : Result :=
  if s.abortReq then .next (raiseInStep .abort 0 s)
  else if !s.inputExists then .fault .addressOutsideMemory
  else
    match fetch s with
    | .instr i => exec i s
    | .truncated => .next (raiseInStep .trunc 0 s)
    | _ => .fault .noRunnableOperation

/-- Whether the engine moves next: it is busy, and the host's next access, if any, still waits. -/
def engineTurn (s : State) : Bool :=
  s.busy && (match s.host with
    | [] => true
    | q :: _ => decide (q.wait ≠ 0))

/-- One engine step less before the host's next access. -/
def tick (s : State) : State :=
  match s.host with
  | [] => s
  | q :: rest => { s with host := { q with wait := q.wait - 1 } :: rest }

/-- One transition of the machine: the engine's or the host's; with neither, nothing (R347). -/
def transition (s : State) : Result :=
  if engineTurn s then engineStep (tick s)
  else
    match s.host with
    | [] => .next s
    | q :: rest => performAccess q.access { s with host := rest }

end Sys2Proof.Machine
end

