-- ==== Sys2Proof/Machine/Step.lean ====
section
/-! DEFINITION. The step of the machine, and where a word is placed for it to fetch. -/

namespace Sys2Proof.Machine

/-- One step: one transition of the host or of the engine (60_exceptions.md R340). -/
def step (s : State) : Host.Outcome State Fault Refusal := transition s

/-- `s` with a word of spec/opcode_table.json stored where the next step fetches it (entry 20). -/
def State.withFetchWord (s : State) (nbits w : Nat) : State := placeTableWord s nbits w

end Sys2Proof.Machine
end

