-- ==== Sys2Proof/Safety.lean ====
section
/-! DEFINITION. What a state of a run satisfies, in the terms the claims use: the conditions START's
checks and the element steps establish and keep. -/

namespace Sys2Proof.Machine

/-- The memory is canonical and lists only addresses that exist (20_memory.md R60). -/
def memoryOk (s : State) : Bool := s.mem.wf && s.mem.within s.params.memSize

/-- The internal buffers fit their storage (10_state.md R40, R41). -/
def buffersOk (s : State) : Bool :=
  decide (s.prior.length ≤ s.params.maxRowBytes) && decide (s.cur.length ≤ s.params.maxRowBytes)
    && sparseWf emptyEntry s.dict && s.dict.all fun c => decide (c.1 < 4096)

/-- DONE and FAULT are never both 1; reserved bits of FMT are 0; while BUSY = 1 the flags START
cleared are still clear (10_state.md R25, R30; 40_command.md R134, R136). -/
def statusOk (s : State) : Bool :=
  !(s.done && s.fault) && decide (s.fmt &&& fmtMask = s.fmt)
    && (!s.busy || (!s.done && !s.fault && !s.short && decide (s.fcode = 0)))

/-- BP is within the input window, on a byte boundary (10_state.md R21). -/
def cursorOk (s : State) : Bool :=
  decide (s.bp.toNat % 8 = 0) && decide (s.bp.toNat ≤ 8 * s.srcLen.toNat)

/-- The progress registers of a running operation are in their ranges (10_state.md R21, R22, R43,
R44; 40_command.md R140). -/
def progressOk (s : State) : Bool :=
  match s.op.toNat with
  | 0 | 7 => cursorOk s && decide (s.r.toNat < s.H)
  | 1 =>
    cursorOk s && decide (1 ≤ s.p.toNat) && decide (0 < s.passW s.p.toNat)
      && decide (s.r.toNat < s.passH s.p.toNat)
  | 2 | 3 => decide (s.bp.toNat ≤ 8 * s.srcLen.toNat) && decide (s.out.toNat < s.outSize)
  | 4 | 5 => cursorOk s && decide (s.x.toNat ≤ s.W) && decide (s.y.toNat ≤ s.H)
  | 6 => cursorOk s && decide (s.out.toNat < s.outSize)
  | 8 => decide (s.r.toNat < s.H)
  | _ => false

/-- The variant of a running LZW operation. -/
def lzwKindOf (s : State) : LzwKind := if s.op.toNat = 2 then .gif else .tiff

/-- CLEAR of a running LZW operation (42_lzw.md R200). -/
def clearOf (s : State) : Nat := 2 ^ s.lzwMinOf (lzwKindOf s)

/-- A code some rule may look up: a root, or an entry written since the latest clear. -/
def knownCode (s : State) (c : Nat) : Prop := c < clearOf s ∨ (clearOf s + 2 ≤ c ∧ c < s.next.toNat)

/-- By how many codes the width grows early (R205, R213). -/
def earlyBy : LzwKind → Nat
  | .gif => 0
  | .tiff => 1

/-- The LZW registers in their ranges (10_state.md R42), the width that of R205 and R213, and every
dictionary entry built from codes known before it (10_state.md R41). -/
structure LzwOk (s : State) : Prop where
  width_low : 3 ≤ s.w.toNat
  width_high : s.w.toNat ≤ 12
  next_low : clearOf s + 2 ≤ s.next.toNat
  next_high : s.next.toNat ≤ 4096
  next_fits : s.w.toNat < 12 → s.next.toNat + earlyBy (lzwKindOf s) < 2 ^ s.w.toNat
  prev_known : ∀ p, s.prev = some p → knownCode s p.toNat
  prev_none : s.prev = none → s.next.toNat = clearOf s + 2
  entry_known : ∀ e, clearOf s + 2 ≤ e → e < s.next.toNat →
    knownCode s (s.dict.read e).pfx.toNat ∧ (s.dict.read e).pfx.toNat < e

/-- The newest boundary a register read may show is the present one (10_state.md R48). -/
def seenOk (s : State) : Bool := decide (s.seen.head? = some (boundaryOf s))

/-- The invariant of the machine: the parameters are legal, memory, buffers and status are in
form, and a running operation passes START's checks, is within its ranges, and has its LZW state in form. -/
structure Inv (s : State) : Prop where
  params : s.params.wf = true
  memory : memoryOk s = true
  buffers : buffersOk s = true
  status : statusOk s = true
  checked : s.busy = true → startFault s = none
  progress : s.busy = true → progressOk s = true
  seen : s.busy = true → seenOk s = true
  lzw : s.busy = true → s.op.toNat = 2 ∨ s.op.toNat = 3 → LzwOk s

end Sys2Proof.Machine
end

