-- ==== Sys2Proof/Certificates/Slice0/Obligations.lean ====
section
/-! DEFINITION. The statements for the provers, `Obligations.<Name>`, and before them the vocabulary
they are written in, `Sys2Proof.Claims`. A next state is given as a record: every register it does not
name is unchanged. Memory is given through the reads of single bytes. -/

namespace Sys2Proof.Claims

open Sys2Proof.Machine

/-! ### Memory -/

/-- `m'` is `m` with `bs` stored at ascending addresses from `a`: the stored bytes read back, every
other byte reads as before, and the form is canonical. -/
def stored (m m' : Memory) (a : Nat) (bs : List Byte) : Prop :=
  m'.wf = true ∧ (∀ k < bs.length, m'.read (a + k) = bs.getD k 0) ∧
    ∀ b, b < a ∨ a + bs.length ≤ b → m'.read b = m.read b

/-- Every byte outside the output window of `s` reads in `m'` as in `s`. -/
def sameOutside (s : State) (m' : Memory) : Prop :=
  m'.wf = true ∧ ∀ b, b < s.dstAddr.toNat ∨ s.dstAddr.toNat + s.outSize ≤ b → m'.read b = s.mem.read b

/-- Bit `n` of the bytes from `base`, MSB-first (00_scope.md R12). -/
def bitAt (m : Memory) (base n : Nat) : Bool := (m.read (base + n / 8)).getLsbD (7 - n % 8)

/-- Bit `n` of a row, MSB-first. -/
def bitOf (row : List Byte) (n : Nat) : Bool := (row.getD (n / 8) 0).getLsbD (7 - n % 8)

/-! ### The end of a step -/

/-- The completion test: the operation completes (40_command.md R140), or a boundary is left. That w,
next, prev, PRIOR, CUR and DICT keep their values when it completes is the model's choice (entry 17). -/
def ended (complete : Bool) (t : State) : State :=
  if complete then { t with phase := .idle, done := true, seen := [] }
  else { t with seen := boundaryOf t :: t.seen }

/-- A fault in a step (60_exceptions.md R325), memory being `m` after it. That w, next, prev, PRIOR,
CUR and DICT keep their values is the model's choice (entry 17, DESIGN CHOICE), and so is that the
abort latch does (entry 26, DEDUCED): R325 does not list them. -/
def faulted (code : BitVec 8) (info faddr : Word) (m : Memory) (s : State) : State :=
  { s with
    faddr := faddr, finfo := info, fcode := code, fault := true, done := false
    phase := .idle, seen := [], mem := m, free := s.free + 1 }

/-! ### START -/

/-- The instruction of a START word with operation field `op` (30_encoding.md R90, R91). -/
def startInstr (op : BitVec 4) (ie ab : Bool) : Instr :=
  match op.toNat with
  | 0 => .startDefilter ie ab
  | 1 => .startAdam7 ie ab
  | 2 => .startLzwGif ie ab
  | 3 => .startLzwTiff ie ab
  | 4 => .startRle8 ie ab
  | 5 => .startRle4 ie ab
  | 6 => .startPackbits ie ab
  | 7 => .startUnpack ie ab
  | 8 => .startHpred ie ab
  | _ => .startReserved ie ab op

/-- The CTRL write of START and what START clears (40_command.md R134). -/
def cleared (op : BitVec 4) (ie : Bool) (s : State) : State :=
  { s with
    irqEn := ie, ctrlOp := op, op := op
    done := false, fault := false, ovf := false, short := false, fcode := 0
    faddr := 0, finfo := 0, bp := 0, out := 0, x := 0, y := 0, r := 0, p := 0, abortReq := false }

/-- One row of the table of checks: the operations it applies to, whether it passes, and the FCODE
and FINFO it reports. -/
structure Check where
  applies : List Nat
  passes : Bool
  code : BitVec 8
  info : Nat

/-- The table of 40_command.md R135, in its order, for the operation `s.op`. -/
def checks (s : State) : List Check :=
  [ ⟨List.range 16, decide (s.op.toNat ≤ 8), 0x01, s.op.toNat⟩,
    ⟨[0, 1, 4, 5, 7, 8], decide (1 ≤ s.width.toNat ∧ s.width.toNat ≤ s.params.maxDim), 0x02, 2⟩,
    ⟨[0, 1, 4, 5, 7, 8], decide (1 ≤ s.height.toNat ∧ s.height.toNat ≤ s.params.maxDim), 0x02, 3⟩,
    ⟨[0, 1], decide (s.bd ∈ [1, 2, 4, 8, 16]), 0x02, 4⟩,
    ⟨[7], decide (s.bd ∈ [1, 2, 4, 8, 16, 32]), 0x02, 4⟩,
    ⟨[8], decide (s.bd = 8), 0x02, 4⟩,
    ⟨[0, 1, 7, 8], decide (1 ≤ s.nc ∧ s.nc ≤ 4), 0x02, 5⟩,
    ⟨[2], decide (2 ≤ s.lzwMin ∧ s.lzwMin ≤ 8), 0x02, 6⟩,
    ⟨[0, 1], decide (s.rb ≤ s.params.maxRowBytes), 0x02, 7⟩,
    ⟨[2, 3, 6], decide (1 ≤ s.dstLen.toNat), 0x02, 8⟩,
    ⟨[0, 1, 4, 5, 7, 8], decide (s.outSize ≤ s.dstLen.toNat), 0x03, 9⟩,
    ⟨List.range 9, decide (s.dstAddr.toNat + s.outSize ≤ s.params.memSize), 0x03, 10⟩,
    ⟨List.range 8, decide (s.srcAddr.toNat + s.srcLen.toNat ≤ s.params.memSize), 0x03, 11⟩,
    ⟨List.range 8,
      decide (s.srcLen.toNat = 0 ∨ s.srcAddr.toNat + s.srcLen.toNat ≤ s.dstAddr.toNat ∨
        s.dstAddr.toNat + s.outSize ≤ s.srcAddr.toNat), 0x03, 12⟩ ]

/-- The first check that applies and does not pass. -/
def failing (s : State) : Option Check :=
  (checks s).find? fun c => decide (s.op.toNat ∈ c.applies) && !c.passes

/-- The boundary a fresh run starts at. -/
def firstBoundary (pass : BitVec 3) : Boundary :=
  { bp := 0, out := 0, x := 0, y := 0, r := 0, p := pass, ovf := false }

/-- A run begun: START's clearing, BUSY = 1 and the run's first boundary. -/
def begun (op : BitVec 4) (ie : Bool) (s : State) : State :=
  { cleared op ie s with phase := .run, seen := [firstBoundary 0] }

/-! ### PNG rows -/

/-- The row instruction of a filter type (30_encoding.md R95). -/
def rowInstr (f : PngFilter) (raw : List Byte) : Instr :=
  match f with
  | .none => .pngNone raw
  | .sub => .pngSub raw
  | .up => .pngUp raw
  | .avg => .pngAvg raw
  | .paeth => .pngPaeth raw

/-- `Pred(f, a, b, c)` (41_png_defilter.md R172 to R176); Paeth's three distances are written out. -/
def pred (f : PngFilter) (a b c : Byte) : Byte :=
  match f with
  | .none => 0
  | .sub => a
  | .up => b
  | .avg => BitVec.ofNat 8 ((a.toNat + b.toNat) / 2)
  | .paeth =>
    let pa := ((b.toNat : Int) - c.toNat).natAbs
    let pb := ((a.toNat : Int) - c.toNat).natAbs
    let pc := ((a.toNat : Int) + b.toNat - 2 * c.toNat).natAbs
    if pa ≤ pb ∧ pa ≤ pc then a else if pb ≤ pc then b else c

/-- The byte one pixel back in a row, 0 before the first pixel (R170, R171). -/
def back (bppb : Nat) (row : List Byte) (i : Nat) : Byte :=
  if bppb ≤ i then row.getD (i - bppb) 0 else 0

/-- `row` is the reconstruction of `raw` over `prior` (R170): each byte is its raw byte plus the
predictor of its already reconstructed neighbours. -/
def reconstructs (f : PngFilter) (bppb : Nat) (prior raw row : List Byte) : Prop :=
  row.length = raw.length ∧ ∀ i < raw.length,
    row.getD i 0 = raw.getD i 0 + pred f (back bppb row i) (prior.getD i 0) (back bppb prior i)

/-- The encoder of R181: what `pred` of the original image's own bytes leaves. -/
def filtered (f : PngFilter) (bppb : Nat) (prior image : List Byte) : List Byte :=
  (List.range image.length).map fun i =>
    image.getD i 0 - pred f (back bppb image i) (prior.getD i 0) (back bppb prior i)

/-- After an Adam7 row (45_adam7.md R302): enter the next non-empty pass, or complete. -/
def passEnded (t : State) : State :=
  if t.r.toNat = t.passH t.p.toNat then
    match t.nextPass t.p.toNat with
    | some q =>
      ended false { t with
        p := BitVec.ofNat 3 q, r := 0
        prior := List.replicate (t.passRowBytes q) 0 ++ t.prior.drop (t.passRowBytes q) }
    | none => ended true t
  else ended false t

/-! ### Runs of pixels and of bytes -/

/-- How many pixels of a run of `n` fall inside the W×H window (43_rle_packbits.md R241). -/
def visible (s : State) (n : Nat) : Nat :=
  if s.y.toNat < s.height.toNat then min n (s.width.toNat - s.x.toNat) else 0

/-- The address of the present pixel: `DST_ADDR + yo·W + x` (R241). -/
def pixelAt (s : State) : Nat :=
  s.dstAddr.toNat
    + (if s.fmt.getLsbD 24 then s.height.toNat - 1 - s.y.toNat else s.y.toNat) * s.width.toNat
    + s.x.toNat

/-- After an element of `n` bytes that places `k` pixels, memory being `m` (R241, R242, R246). -/
def placed (n k : Nat) (m : Memory) (s : State) : State :=
  ended false { s with
    bp := s.bp + BitVec.ofNat 35 (8 * n)
    mem := m
    x := BitVec.ofNat 32 (min (s.x.toNat + k) s.width.toNat)
    out := s.out + BitVec.ofNat 32 (visible s k)
    ovf := s.ovf || decide (visible s k < k) }

/-- The window START's checks allow RLE8 and RLE4, and the column's range (10_state.md R43). -/
def pixelsOk (s : State) : Prop :=
  s.mem.wf = true ∧ s.x.toNat ≤ s.width.toNat ∧
    s.dstAddr.toNat + s.width.toNat * s.height.toNat ≤ s.params.memSize

/-- Pixel `i` of an RLE4 byte: the high nibble first (30_encoding.md R97). -/
def nibble (v : Byte) (i : Nat) : Byte := if i % 2 = 0 then v >>> 4 else v &&& 0x0F

/-- What START's checks and R212 allow a sequential output (LZW_GIF, LZW_TIFF, PACKBITS). -/
def sequentialOk (s : State) : Prop :=
  s.mem.wf = true ∧ s.out.toNat < s.dstLen.toNat ∧
    s.dstAddr.toNat + s.dstLen.toNat ≤ s.params.memSize

/-- The bytes of a string of `n` that are stored (40_command.md R141). -/
def kept (s : State) (n : Nat) : Nat := min n (s.dstLen.toNat - s.out.toNat)

/-! ### LZW -/

/-- CTRL.OP of a variant. -/
def lzwOp : LzwKind → BitVec 4
  | .gif => 2
  | .tiff => 3

/-- MIN of a variant (42_lzw.md R200). -/
def lzwMin (kind : LzwKind) (s : State) : Nat :=
  match kind with
  | .gif => s.lzwMin
  | .tiff => 8

/-- The instructions of a class, by variant. -/
def rootInstr (kind : LzwKind) (code : BitVec 12) : Instr :=
  match kind with
  | .gif => .lzwGifRoot code
  | .tiff => .lzwTiffRoot code

@[inherit_doc rootInstr]
def dictInstr (kind : LzwKind) (code : BitVec 12) : Instr :=
  match kind with
  | .gif => .lzwGifDict code
  | .tiff => .lzwTiffDict code

@[inherit_doc rootInstr]
def kwkwkInstr (kind : LzwKind) (code : BitVec 12) : Instr :=
  match kind with
  | .gif => .lzwGifKwkwk code
  | .tiff => .lzwTiffKwkwk code

@[inherit_doc rootInstr]
def invalidInstr (kind : LzwKind) (code : BitVec 12) : Instr :=
  match kind with
  | .gif => .lzwGifInvalid code
  | .tiff => .lzwTiffInvalid code

@[inherit_doc rootInstr]
def clearInstr (kind : LzwKind) : Instr :=
  match kind with
  | .gif => .lzwGifClear
  | .tiff => .lzwTiffClear

@[inherit_doc rootInstr]
def eoiInstr (kind : LzwKind) : Instr :=
  match kind with
  | .gif => .lzwGifEoi
  | .tiff => .lzwTiffEoi

/-- Whether a code adds an entry: prev ≠ NONE and the dictionary is not full (R203, R211). -/
def adds (s : State) : Bool := s.prev.isSome && decide (s.next.toNat < 4096)

/-- Whether the entry added raises the width: GIF at `next = 2^w` (R205), TIFF at `next = 2^w − 1`
(R213), `next` being the new one. -/
def widens (kind : LzwKind) (s : State) : Bool :=
  decide (s.w.toNat < 12) && (match kind with
    | .gif => decide (s.next.toNat + 1 = 2 ^ s.w.toNat)
    | .tiff => decide (s.next.toNat + 1 = 2 ^ s.w.toNat - 1))

/-- `d` is the dictionary of `s` with the entry (prev, sfx) added at `next` where `adds` says so. -/
def learnt (s : State) (sfx : Byte) (d : Dict) : Prop :=
  match s.prev with
  | none => d = s.dict
  | some p =>
    if s.next.toNat < 4096 then
      d.read s.next.toNat = ⟨p, sfx⟩ ∧ ∀ e, e ≠ s.next.toNat → d.read e = s.dict.read e
    else d = s.dict

/-- After a code whose string has `n` bytes, memory being `m` and the dictionary `d` (R203 to R207,
R210, R212). -/
def decoded (kind : LzwKind) (code : BitVec 12) (n : Nat) (m : Memory) (d : Dict) (s : State) :
    State :=
  ended (decide (s.out.toNat + kept s n = s.dstLen.toNat)) { s with
    bp := s.bp + BitVec.ofNat 35 s.w.toNat
    mem := m
    out := s.out + BitVec.ofNat 32 (kept s n)
    ovf := s.ovf || decide (kept s n < n)
    dict := d
    next := if adds s then s.next + 1 else s.next
    w := if adds s && widens kind s then s.w + 1 else s.w
    prev := some code }

/-- What an LZW code with string `str` and learnt suffix `sfx` does: the stored bytes, the learnt
entry, and every register. -/
def decodes (kind : LzwKind) (i : Instr) (code : BitVec 12) (str : List Byte) (sfx : Byte)
    (s : State) : Prop :=
  ∃ m d, exec i s = .next (decoded kind code str.length m d s) ∧
    stored s.mem m (s.dstAddr.toNat + s.out.toNat) (str.take (kept s str.length)) ∧ learnt s sfx d

/-! ### UNPACK -/

/-- Sample `k` of a row (44_unpack.md R281 to R283). -/
def sample (bd : Nat) (le : Bool) (row : List Byte) (k : Nat) : Byte :=
  if bd = 16 then row.getD (if le then 2 * k + 1 else 2 * k) 0
  else if bd = 32 then row.getD (if le then 4 * k + 3 else 4 * k) 0
  else (row.getD (k * bd / 8) 0 >>> (8 - bd - k * bd % 8)) &&& BitVec.ofNat 8 (2 ^ bd - 1)

/-- The samples of a row, in the order they are stored (R280). -/
def samples (s : State) (row : List Byte) : List Byte :=
  (List.range (s.width.toNat * s.nc)).map (sample s.bd s.le row)

/-- What START's checks allow a row operation of `n` output bytes a row, at a row not yet done. -/
def rowsOk (n : Nat) (s : State) : Prop :=
  s.mem.wf = true ∧ s.r.toNat < s.height.toNat ∧
    s.dstAddr.toNat + s.height.toNat * n ≤ s.params.memSize

/-- The address of row `r`'s output, flipped by VFLIP (R280, R285). -/
def unpackAt (s : State) : Nat :=
  s.dstAddr.toNat
    + (if s.fmt.getLsbD 24 then s.height.toNat - 1 - s.r.toNat else s.r.toNat) * (s.width.toNat * s.nc)

/-- After a row of `bytes` input bytes and `n` output bytes (40_command.md R140: complete at r = H). -/
def rowDone (bytes n : Nat) (m : Memory) (s : State) : State :=
  ended (decide (s.r.toNat + 1 = s.height.toNat)) { s with
    bp := s.bp + BitVec.ofNat 35 (8 * bytes)
    mem := m
    out := s.out + BitVec.ofNat 32 n
    r := s.r + 1 }

/-! ### The host -/

/-- The host moves next: the engine is idle, or the access at the head of the queue no longer waits. -/
def hostTurn (s : State) (a : Access) (rest : List Queued) : Prop :=
  ∃ w, s.host = ⟨w, a⟩ :: rest ∧ (s.phase = .idle ∨ w = 0)

/-- `n` steps. -/
def steps (n : Nat) (s t : State) : Prop := Host.Core.run Sys2Proof.core n s = .next t

/-- The offsets of the operand registers (10_state.md R26 to R30). -/
def operandOffsets : List Nat := [0x0C, 0x10, 0x14, 0x18, 0x1C, 0x20, 0x24]

/-- A host read of the register at `off`. -/
def readOf (s : State) (off : Nat) : Access := .read (s.params.regBase + off) 4

/-- A host write of `v` to the register at `off`. -/
def writeOf (s : State) (off : Nat) (v : Word) : Access := .write (s.params.regBase + off) 4 v.toNat

/-- The bytes of a value of `size` bytes, least significant first (20_memory.md R65). -/
def bytesOf (size v : Nat) : List Byte := (List.range size).map fun k => BitVec.ofNat 8 (v / 256 ^ k)

/-- The value of bytes, least significant first (R65). -/
def valueOf (bs : List Byte) : Nat := ∑ k ∈ Finset.range bs.length, (bs.getD k 0).toNat * 256 ^ k

/-- The bytes of data memory from `a`. -/
def bytesAt (m : Memory) (a size : Nat) : List Byte := (List.range size).map fun k => m.read (a + k)

/-- A host access that goes on with the `size` bytes of data memory from `a`, `got` having been read:
a read at its first byte, or what is left of one. -/
def reads (s : State) (acc : Access) (a size : Nat) (got : List Byte) : Prop :=
  1 ≤ size ∧ a + size ≤ s.params.memSize ∧
    ((acc = .read (s.params.memBase + a) size ∧ got = []) ∨ acc = .readRest a size got)

/-- A host access that goes on with storing `bytes` in data memory from `a`: a write at its first
byte, or what is left of one. -/
def writes (s : State) (acc : Access) (a : Nat) (bytes : List Byte) : Prop :=
  a + bytes.length ≤ s.params.memSize ∧
    ((∃ v, acc = .write (s.params.memBase + a) bytes.length v ∧ bytes = bytesOf bytes.length v) ∨
      acc = .writeRest a bytes)

/-- An access of the host to at least one byte, `size` bytes at host address `addr`. -/
def touches (acc : Access) (addr size : Nat) : Prop :=
  1 ≤ size ∧ (acc = .read addr size ∨ ∃ v, acc = .write addr size v)

/-- The registers an operation runs with. -/
def sameOperands (s t : State) : Prop :=
  t.srcAddr = s.srcAddr ∧ t.srcLen = s.srcLen ∧ t.dstAddr = s.dstAddr ∧ t.dstLen = s.dstLen ∧
    t.width = s.width ∧ t.height = s.height ∧ t.fmt = s.fmt ∧ t.ctrlOp = s.ctrlOp ∧ t.op = s.op

end Sys2Proof.Claims

section Statements

open Sys2Proof Sys2Proof.Machine Sys2Proof.Claims

/-! ### Encoding -/

/-- The decoder gives back every well-formed instruction from its encoding, whatever bytes follow
(30_encoding.md R90 to R100). -/
def Obligations.DecodeEncodeRoundTrip : Prop :=
  ∀ (c : Ctx) (i : Instr) (rest : List Byte), i.wf c = true →
    decode c (encode c i ++ rest) = .instr i

/-- What the decoder answers is well formed where it was read, and the decoder looks at no byte past
the instruction's own (R92, R102, R104). LZW widths are at most 12 (10_state.md R42). -/
def Obligations.DecodedInstructionIsWellFormed : Prop :=
  ∀ (c : Ctx) (bs : List Byte) (i : Instr),
    (∀ kind min w next hasPrev bit, c = .lzw kind min w next hasPrev bit → w ≤ 12) →
    decode c bs = .instr i →
      i.wf c = true ∧ decode c (bs.take (encode c i).length) = .instr i

/-- An instruction whose last byte is missing is truncated (R92, R102; 60_exceptions.md R335). -/
def Obligations.ProperBeginningIsTruncated : Prop :=
  ∀ (c : Ctx) (i : Instr) (k : Nat), i.wf c = true → k < (encode c i).length →
    decode c ((encode c i).take k) = .truncated

/-- Words written out from the encoding tables decode to their instructions (R91, R94 to R100). -/
def Obligations.DecodeOfWrittenWords : Prop :=
  decode .ctrl [0x01, 0x00, 0x00, 0x00] = .instr (.startDefilter false false) ∧
  decode .ctrl [0x81, 0x01, 0x00, 0x00] = .instr (.startHpred true false) ∧
  decode .ctrl [0x02, 0x00, 0x00, 0x00] = .instr (.abort false 0) ∧
  decode .status [0x06, 0x00, 0x00, 0x00] = .instr (.ack true true) ∧
  decode (.png 2) [0x01, 0x0A, 0x05] = .instr (.pngSub [0x0A, 0x05]) ∧
  decode .rle8 [0x03, 0x07] = .instr (.rle8Enc 3 7) ∧
  decode .rle8 [0x00, 0x03, 0x01, 0x02, 0x03, 0x00] = .instr (.rle8Abs 3 [1, 2, 3]) ∧
  decode .rle4 [0x00, 0x03, 0x12, 0x30] = .instr (.rle4Abs 3 [0x12, 0x30]) ∧
  decode (.packbits 9) [0xFE, 0xAA] = .instr (.pbRep 0xFE 0xAA) ∧
  decode (.lzw .gif 2 3 6 false 0) [0x8C, 0x5D] = .instr .lzwGifClear ∧
  decode (.lzw .gif 2 3 6 false 3) [0x8C, 0x5D] = .instr (.lzwGifRoot 1) ∧
  decode (.lzw .tiff 8 9 258 false 0) [0x80, 0x10] = .instr .lzwTiffClear ∧
  decode (.lzw .tiff 8 9 258 false 1) [0x10, 0x60] = .instr (.lzwTiffRoot 65)

/-- A filter byte above 4 is illegal whatever follows it, a truncated row included (R95;
60_exceptions.md R335 item 3). -/
def Obligations.IllegalFilterByteFoundFirst : Prop :=
  ∀ (len : Nat) (f : Byte) (rest : List Byte), 4 < f.toNat →
    decode (.png len) (f :: rest) = .instr (.pngIllegal f)

/-- PackBits headers as signed bytes (R98; 43_rle_packbits.md R249): 0 to 127 a literal packet, −127
to −1 a repeat packet, −128 a no-op. R98 gives a literal packet h + 1 data bytes; that its operand is
only the min(h + 1, room) bytes R250 reads, `room` being part of the decoding context, is the model's
form (entry 27, DEDUCED). -/
def Obligations.PackbitsHeaderClasses : Prop :=
  ∀ (room : Nat) (h v : Byte) (data rest : List Byte),
    (0 ≤ h.toInt → data.length = min (h.toInt.toNat + 1) room →
      decode (.packbits room) (h :: data ++ rest) = .instr (.pbLit (h.setWidth 7) data)) ∧
    (-127 ≤ h.toInt → h.toInt ≤ -1 → decode (.packbits room) (h :: v :: rest) = .instr (.pbRep h v)) ∧
    (h.toInt = -128 → decode (.packbits room) (h :: rest) = .instr .pbNop)

/-- The bits of an LZW code: GIF from its least significant bit, LSB-first in each byte; TIFF from
its most significant bit, MSB-first in each byte (R99, R100; 00_scope.md R12). -/
def Obligations.LzwCodeBitOrder : Prop :=
  ∀ (bs : List Byte) (bit w : Nat),
    readCode .gif bs bit w = ∑ j ∈ Finset.range w,
      (bs.getD ((bit + j) / 8) 0).toNat / 2 ^ ((bit + j) % 8) % 2 * 2 ^ j ∧
    readCode .tiff bs bit w = ∑ j ∈ Finset.range w,
      (bs.getD ((bit + j) / 8) 0).toNat / 2 ^ (7 - (bit + j) % 8) % 2 * 2 ^ (w - 1 - j)

/-! ### The step -/

/-- A step runs the decoded instruction: an element of the input window at BP on the engine's turn,
the word of a CTRL or STATUS write on the host's (40_command.md R132, R134, R138). Around exec, the
engine's step counts down the wait of the host's next access, and the host's step takes the access
off the queue. -/
def Obligations.StepRunsDecodedInstruction : Prop :=
  (∀ (s : State) (c : Ctx) (i : Instr),
    engineTurn s = true → s.abortReq = false → s.inputExists = true → s.ctx = some c →
    decode c s.input = .instr i → i.wf c = true → step s = exec i (tick s)) ∧
  (∀ (s : State) (v : Word) (rest : List Queued) (i : Instr),
    hostTurn s (writeOf s 0x04 v) rest → decode .ctrl (leBytes v) = .instr i → i.wf .ctrl = true →
      step s = exec i { s with host := rest }) ∧
  (∀ (s : State) (v : Word) (rest : List Queued) (i : Instr),
    hostTurn s (writeOf s 0x08 v) rest → decode .status (leBytes v) = .instr i → i.wf .status = true →
      step s = exec i { s with host := rest })

/-- The abort latch is tested before the element is looked at: E_ABORT, FINFO = 0 and FADDR = 0, no
element work (40_command.md R139; 60_exceptions.md R325, R326); an idle engine takes no step, whatever
the latch holds. The model's own: the latch stays 1 (entry 26, DEDUCED), the output window becomes
free values after an abort as after any fault in a step (entry 9, DEDUCED), and w, next, prev, PRIOR,
CUR and DICT keep their values (entry 17, DESIGN CHOICE). -/
def Obligations.AbortTestedFirst : Prop :=
  (∀ s : State, engineTurn s = true → s.abortReq = true → s.mem.wf = true →
    ∃ m, step s = .next (faulted 0x07 0 0 m (tick s)) ∧ sameOutside s m) ∧
  (∀ s : State, s.phase = .idle → engineTurn s = false)

/-- An element cut short by the end of the input window faults E_TRUNC with FADDR = BP div 8 and
FINFO = 0, its progress discarded (60_exceptions.md R320, R325, R326). That w, next, prev, PRIOR, CUR
and DICT keep their values is the model's choice (entry 17, DESIGN CHOICE, unsafe). -/
def Obligations.TruncatedElementFaults : Prop :=
  ∀ (s : State) (c : Ctx), engineTurn s = true → s.abortReq = false → s.inputExists = true →
    s.ctx = some c → decode c s.input = .truncated → s.mem.wf = true →
      ∃ m, step s = .next (faulted 0x04 0 (BitVec.ofNat 32 (s.bp.toNat / 8)) m (tick s)) ∧
        sameOutside s m

/-- An idle engine with nothing from the host stays as it is (60_exceptions.md R347). -/
def Obligations.IdleMachineStays : Prop :=
  ∀ s : State, s.phase = .idle → s.host = [] → step s = .next s

/-- PNG_ILLEGAL and the two LZW INVALID codes take their fault: FCODE, FINFO, FADDR = BP div 8, the
progress registers as they were, memory outside the output window as it was (41_png_defilter.md R177,
42_lzw.md R209, 60_exceptions.md R325, R326). That w, next, prev, PRIOR, CUR and DICT keep their values
is the model's choice (entry 17, DESIGN CHOICE, unsafe). -/
def Obligations.IllegalElementsFault : Prop :=
  ∀ s : State, s.mem.wf = true →
    (∀ f : Byte, ∃ m, exec (.pngIllegal f) s =
      .next (faulted 0x05 (f.setWidth 32) (BitVec.ofNat 32 (s.bp.toNat / 8)) m s) ∧ sameOutside s m) ∧
    (∀ (kind : LzwKind) (code : BitVec 12), ∃ m, exec (invalidInstr kind code) s =
      .next (faulted 0x06 (code.setWidth 32) (BitVec.ofNat 32 (s.bp.toNat / 8)) m s) ∧
        sameOutside s m)

/-! ### Host commands -/

/-- START with OP 9 to 15 on an idle engine faults E_BAD_OP with the OP value, clears what START
clears, and leaves memory (40_command.md R134, R135; 60_exceptions.md R325, R326). -/
def Obligations.StartReservedFaultsBadOp : Prop :=
  ∀ (s : State) (op : BitVec 4) (ie ab : Bool), s.phase = .idle → 9 ≤ op.toNat →
    exec (.startReserved ie ab op) s =
      .next { cleared op ie s with fcode := 0x01, finfo := op.setWidth 32, fault := true, seen := [] }

/-- A START some check of R135 refuses reports the first that fails, in the table's order, and leaves
memory and BUSY (40_command.md R134, R135; 60_exceptions.md R335 item 1). -/
def Obligations.StartReportsFirstFailingCheck : Prop :=
  ∀ (s : State) (op : BitVec 4) (ie ab : Bool) (c : Check), s.phase = .idle →
    failing (cleared op ie s) = some c →
      exec (startInstr op ie ab) s = .next { cleared op ie s with
        fcode := c.code, finfo := BitVec.ofNat 32 c.info, fault := true, seen := [] }

/-- A START of DEFILTER, UNPACK or HPRED that passes its checks begins the run; DEFILTER zeroes the RB
bytes of PRIOR (40_command.md R134, R136, R137). -/
def Obligations.StartRowOperationsBegin : Prop :=
  ∀ (s : State) (ie ab : Bool), s.phase = .idle →
    (failing (cleared 0 ie s) = none → exec (.startDefilter ie ab) s =
      .next { begun 0 ie s with prior := List.replicate s.rb 0 ++ s.prior.drop s.rb }) ∧
    (failing (cleared 7 ie s) = none → exec (.startUnpack ie ab) s = .next (begun 7 ie s)) ∧
    (failing (cleared 8 ie s) = none → exec (.startHpred ie ab) s = .next (begun 8 ie s))

/-- A START of ADAM7, RLE8 or RLE4 that passes its checks zero-fills the output window and begins
the run; ADAM7 enters pass 1 with a zero prior row (40_command.md R137, 45_adam7.md R302). -/
def Obligations.StartZeroFillingOperationsBegin : Prop :=
  ∀ (s : State) (ie ab : Bool), s.phase = .idle → s.mem.wf = true →
    (failing (cleared 1 ie s) = none → ∃ m, exec (.startAdam7 ie ab) s =
      .next { begun 1 ie s with
        mem := m, p := 1, seen := [firstBoundary 1]
        prior := List.replicate (s.passRowBytes 1) 0 ++ s.prior.drop (s.passRowBytes 1) } ∧
      stored s.mem m s.dstAddr.toNat (List.replicate (s.height.toNat * s.rb) 0)) ∧
    (failing (cleared 4 ie s) = none → ∃ m, exec (.startRle8 ie ab) s =
      .next { begun 4 ie s with mem := m } ∧
      stored s.mem m s.dstAddr.toNat (List.replicate (s.width.toNat * s.height.toNat) 0)) ∧
    (failing (cleared 5 ie s) = none → ∃ m, exec (.startRle4 ie ab) s =
      .next { begun 5 ie s with mem := m } ∧
      stored s.mem m s.dstAddr.toNat (List.replicate (s.width.toNat * s.height.toNat) 0))

/-- A START of LZW_GIF, LZW_TIFF or PACKBITS that passes its checks begins the run; LZW starts in the
cleared state (40_command.md R137, 42_lzw.md R201). -/
def Obligations.StartSequentialOperationsBegin : Prop :=
  ∀ (s : State) (ie ab : Bool), s.phase = .idle →
    (failing (cleared 2 ie s) = none → exec (.startLzwGif ie ab) s =
      .next { begun 2 ie s with
        w := BitVec.ofNat 4 (s.lzwMin + 1), next := BitVec.ofNat 13 (2 ^ s.lzwMin + 2), prev := none }) ∧
    (failing (cleared 3 ie s) = none → exec (.startLzwTiff ie ab) s =
      .next { begun 3 ie s with w := 9, next := 258, prev := none }) ∧
    (failing (cleared 6 ie s) = none → exec (.startPackbits ie ab) s = .next (begun 6 ie s))

/-- A START while BUSY = 1 starts nothing: the write's IRQ_EN and ABORT are honoured, OP and every
other register keep their values (40_command.md R134, 10_state.md R24). -/
def Obligations.StartWhileBusyIsIgnored : Prop :=
  ∀ (s : State) (op : BitVec 4) (ie ab : Bool), s.phase = .run →
    exec (startInstr op ie ab) s = .next { s with irqEn := ie, abortReq := s.abortReq || ab }

/-- ABORT sets the abort latch while BUSY = 1 and leaves OP; while BUSY = 0 it only writes the word's
IRQ_EN and OP (40_command.md R154, 10_state.md R24). -/
def Obligations.AbortSetsLatch : Prop :=
  ∀ (s : State) (ie : Bool) (op : BitVec 4),
    (s.phase = .run → exec (.abort ie op) s = .next { s with irqEn := ie, abortReq := true }) ∧
    (s.phase = .idle → exec (.abort ie op) s = .next { s with irqEn := ie, ctrlOp := op })

/-- ACK clears DONE, FAULT or both, keeps FCODE, OVF, SHORT, FADDR, FINFO and all else, and where it
clears both deasserts IRQ (40_command.md R155, 60_exceptions.md R330). -/
def Obligations.AckClearsBits : Prop :=
  ∀ (s : State) (d f : Bool),
    exec (.ack d f) s = .next { s with done := s.done && !d, fault := s.fault && !f } ∧
    ∀ t, exec (.ack true true) s = .next t → irq t = false

/-! ### PNG rows -/

/-- A DEFILTER row of any filter type: the reconstruction becomes CUR and PRIOR and is stored at
DST_ADDR + r·RB; OUT and r advance; complete at r = H (41_png_defilter.md R170 to R176). -/
def Obligations.DefilterRowWrites : Prop :=
  ∀ (s : State) (f : PngFilter) (raw : List Byte), s.op = 0 → raw.length = s.rb → rowsOk s.rb s →
    ∃ row m, reconstructs f s.bppb s.prior raw row ∧
      exec (rowInstr f raw) s = .next (rowDone (1 + s.rb) s.rb m { s with
        cur := row ++ s.cur.drop s.rb, prior := row ++ s.prior.drop s.rb }) ∧
      stored s.mem m (s.dstAddr.toNat + s.r.toNat * s.rb) row

/-- An ADAM7 row of any filter type: the reconstruction becomes CUR and PRIOR; bit t of pixel px of the
row becomes bit t of pixel x0 + px·dx of the output row y0 + r·dy; no other bit of memory changes; OUT
and r advance; after a pass's last row the next non-empty pass is entered or the operation completes
(45_adam7.md R302, R303; 41_png_defilter.md R170). -/
def Obligations.Adam7RowScatters : Prop :=
  ∀ (s : State) (f : PngFilter) (raw : List Byte),
    s.op = 1 → 1 ≤ s.p.toNat → raw.length = s.passRowBytes s.p.toNat →
    s.r.toNat < s.passH s.p.toNat → s.mem.wf = true →
    s.dstAddr.toNat + s.height.toNat * s.rb ≤ s.params.memSize →
      let g := passGeometry s.p.toNat
      let base := s.dstAddr.toNat + (g.y0 + s.r.toNat * g.dy) * s.rb
      let pixel := s.nc * s.bd
      ∃ row m, reconstructs f s.bppb s.prior raw row ∧
        exec (rowInstr f raw) s = .next (passEnded { s with
          bp := s.bp + BitVec.ofNat 35 (8 * (1 + raw.length))
          cur := row ++ s.cur.drop row.length
          prior := row ++ s.prior.drop row.length
          mem := m
          out := s.out + BitVec.ofNat 32 (s.passW s.p.toNat)
          r := s.r + 1 }) ∧
        m.wf = true ∧
        (∀ px < s.passW s.p.toNat, ∀ t < pixel,
          bitAt m base ((g.x0 + px * g.dx) * pixel + t) = bitOf row (px * pixel + t)) ∧
        (∀ n, (∀ px < s.passW s.p.toNat, ∀ t < pixel, n ≠ (g.x0 + px * g.dx) * pixel + t) →
          bitAt m base n = bitAt s.mem base n) ∧
        ∀ b, b < base ∨ base + s.rb ≤ b → m.read b = s.mem.read b

/-- The pass after p is the smallest non-empty one above it (45_adam7.md R302). -/
def Obligations.NextPassIsSmallest : Prop :=
  ∀ (s : State) (p : Nat),
    (∀ q, s.nextPass p = some q ↔
      p < q ∧ 1 ≤ q ∧ q ≤ 7 ∧ 0 < s.passW q ∧ 0 < s.passH q ∧
        ∀ k, p < k → 1 ≤ k → k < q → s.passW k = 0 ∨ s.passH k = 0) ∧
    (s.nextPass p = none ↔ ∀ k, p < k → 1 ≤ k → k ≤ 7 → s.passW k = 0 ∨ s.passH k = 0)

/-- The seven pass classes partition the pixel grid, and a pass's pixels inside the image are its
first pw columns and ph rows (45_adam7.md R300, R301, R304). -/
def Obligations.PassClassesPartitionGrid : Prop :=
  (∀ x y : Nat, ∃! p, 1 ≤ p ∧ p ≤ 7 ∧
    x % (passGeometry p).dx = (passGeometry p).x0 ∧ y % (passGeometry p).dy = (passGeometry p).y0) ∧
  ∀ (s : State) (p k : Nat), 1 ≤ p → p ≤ 7 →
    ((passGeometry p).x0 + k * (passGeometry p).dx < s.width.toNat ↔ k < s.passW p) ∧
    ((passGeometry p).y0 + k * (passGeometry p).dy < s.height.toNat ↔ k < s.passH p)

/-- The passes' pixels add up to W·H, a pass row fits the line buffers, and pass 1 of an image is
never empty (45_adam7.md R301). -/
def Obligations.PassSizesAddUpAndFit : Prop :=
  ∀ s : State,
    ∑ p ∈ Finset.Icc 1 7, s.passW p * s.passH p = s.width.toNat * s.height.toNat ∧
    (∀ p, s.passRowBytes p ≤ s.rb) ∧
    (0 < s.width.toNat → 0 < s.height.toNat → 0 < s.passW 1 ∧ 0 < s.passH 1)

/-- Filtering is inverted: the row step of DEFILTER on what the encoder of 41_png_defilter.md R181
makes of a row gives that row back, in CUR, in PRIOR and in memory. -/
def Obligations.FilterInverted : Prop :=
  ∀ (s : State) (f : PngFilter) (image : List Byte), s.op = 0 → image.length = s.rb → rowsOk s.rb s →
    ∃ t, exec (rowInstr f (filtered f s.bppb s.prior image)) s = .next t ∧
      t.cur.take s.rb = image ∧ t.prior.take s.rb = image ∧
      ∀ k < s.rb, t.mem.read (s.dstAddr.toNat + s.r.toNat * s.rb + k) = image.getD k 0

/-- Paeth's predictor is the neighbour nearest to a + b − c, ties going to a, then b
(41_png_defilter.md R176). -/
def Obligations.PaethPicksNearest : Prop :=
  ∀ a b c : Byte,
    let dist := fun v : Byte => ((a.toNat : Int) + b.toNat - c.toNat - v.toNat).natAbs
    let v := paethPredictor a b c
    dist v ≤ dist a ∧ dist v ≤ dist b ∧ dist v ≤ dist c ∧ (v = a ∨ v = b ∨ v = c) ∧
      (dist a ≤ dist b → dist a ≤ dist c → v = a) ∧
      (dist b < dist a → dist b ≤ dist c → v = b)

/-! ### RLE and PackBits -/

/-- RLE8 runs place their pixels side by side from (x, y), drop those outside the window with OVF,
count the others in OUT, and saturate x at W (43_rle_packbits.md R241, R242, R246). -/
def Obligations.Rle8RunsPlacePixels : Prop :=
  ∀ (s : State) (n v : Byte) (data : List Byte), pixelsOk s →
    (∃ m, exec (.rle8Enc n v) s = .next (placed 2 n.toNat m s) ∧
      stored s.mem m (pixelAt s) (List.replicate (visible s n.toNat) v)) ∧
    (data.length = n.toNat → ∃ m,
      exec (.rle8Abs n data) s = .next (placed (2 + n.toNat + n.toNat % 2) n.toNat m s) ∧
      stored s.mem m (pixelAt s) (data.take (visible s n.toNat)))

/-- RLE4 runs, likewise: an encoded run alternates the two nibbles of its value from the high one,
an absolute run takes its data's nibbles in order (R241, R247, R248). -/
def Obligations.Rle4RunsPlacePixels : Prop :=
  ∀ (s : State) (n v : Byte) (data : List Byte), pixelsOk s →
    (∃ m, exec (.rle4Enc n v) s = .next (placed 2 n.toNat m s) ∧
      stored s.mem m (pixelAt s) ((List.range (visible s n.toNat)).map (nibble v))) ∧
    (data.length = divCeil n.toNat 2 → ∃ m,
      exec (.rle4Abs n data) s =
        .next (placed (2 + divCeil n.toNat 2 + divCeil n.toNat 2 % 2) n.toNat m s) ∧
      stored s.mem m (pixelAt s)
        ((List.range (visible s n.toNat)).map fun i => nibble (data.getD (i / 2) 0) i))

/-- EOL, DELTA and EOB of RLE8 and RLE4: where x and y go, and that EOB completes; no memory changes
(R243, R244, R245). -/
def Obligations.RleMovesAndEnds : Prop :=
  ∀ s : State,
    (∀ i ∈ [Instr.rle8Eol, Instr.rle4Eol], exec i s = .next (ended false { s with
      bp := s.bp + 16, x := 0, y := BitVec.ofNat 32 (min (s.y.toNat + 1) s.height.toNat) })) ∧
    (∀ dx dy : Byte, ∀ i ∈ [Instr.rle8Delta dx dy, Instr.rle4Delta dx dy],
      exec i s = .next (ended false { s with
        bp := s.bp + 32
        x := BitVec.ofNat 32 (min (s.x.toNat + dx.toNat) s.width.toNat)
        y := BitVec.ofNat 32 (min (s.y.toNat + dy.toNat) s.height.toNat) })) ∧
    (∀ i ∈ [Instr.rle8Eob, Instr.rle4Eob], exec i s = .next (ended true { s with bp := s.bp + 16 }))

/-- A literal packet stores the bytes that fit and sets OVF where the header asks for more; the
operation completes when OUT = OUTSZ (R250; 40_command.md R140). -/
def Obligations.PackbitsLiteralEmits : Prop :=
  ∀ (s : State) (h : BitVec 7) (data : List Byte), s.op = 6 → sequentialOk s →
    data.length = kept s (h.toNat + 1) →
      ∃ m, exec (.pbLit h data) s =
        .next (ended (decide (s.out.toNat + data.length = s.dstLen.toNat)) { s with
          bp := s.bp + BitVec.ofNat 35 (8 * (1 + data.length))
          mem := m
          out := s.out + BitVec.ofNat 32 data.length
          ovf := s.ovf || decide (data.length < h.toNat + 1) }) ∧
        stored s.mem m (s.dstAddr.toNat + s.out.toNat) data

/-- A repeat packet stores 1 − h copies of its value, or as many as fit, with OVF (R251). -/
def Obligations.PackbitsRepeatEmits : Prop :=
  ∀ (s : State) (h v : Byte), s.op = 6 → sequentialOk s → h.toInt < 0 →
    let k := (1 - h.toInt).toNat
    ∃ m, exec (.pbRep h v) s =
      .next (ended (decide (s.out.toNat + kept s k = s.dstLen.toNat)) { s with
        bp := s.bp + 16
        mem := m
        out := s.out + BitVec.ofNat 32 (kept s k)
        ovf := s.ovf || decide (kept s k < k) }) ∧
      stored s.mem m (s.dstAddr.toNat + s.out.toNat) (List.replicate (kept s k) v)

/-- A PackBits no-op consumes its header byte and nothing else (R252). -/
def Obligations.PackbitsNopConsumesHeader : Prop :=
  ∀ s : State, s.op = 6 → s.out.toNat < s.dstLen.toNat →
    exec .pbNop s = .next (ended false { s with bp := s.bp + 8 })

/-! ### LZW -/

/-- A root code, GIF or TIFF, emits its byte, adds (prev, code) where there is a previous code and
room, widens where the variant says so, and becomes prev (42_lzw.md R203, R204, R205, R213). -/
def Obligations.LzwRootEmitsAndLearns : Prop :=
  ∀ (s : State) (kind : LzwKind) (code : BitVec 12),
    s.op = lzwOp kind → sequentialOk s → sparseWf emptyEntry s.dict = true →
      decodes kind (rootInstr kind code) code [code.setWidth 8] (code.setWidth 8) s

/-- A dictionary code emits its string, cut at OUTSZ with OVF, and adds (prev, the string's first
byte) (R203, R206, R212). -/
def Obligations.LzwDictEmitsAndLearns : Prop :=
  ∀ (s : State) (kind : LzwKind) (code : BitVec 12),
    s.op = lzwOp kind → sequentialOk s → sparseWf emptyEntry s.dict = true →
      decodes kind (dictInstr kind code) code (s.str kind code) ((s.str kind code).headD 0) s

/-- A KwKwK code emits the previous string and its first byte again, and adds them (R203, R207). -/
def Obligations.LzwKwkwkEmitsAndLearns : Prop :=
  ∀ (s : State) (kind : LzwKind) (code prev : BitVec 12),
    s.op = lzwOp kind → sequentialOk s → sparseWf emptyEntry s.dict = true → s.prev = some prev →
      decodes kind (kwkwkInstr kind code) code (s.str kind prev ++ [(s.str kind prev).headD 0])
        ((s.str kind prev).headD 0) s

/-- After a KwKwK code its dictionary entry holds the string it emitted: "DICT[code] now holds s"
(R207). -/
def Obligations.LzwKwkwkDefinesItsString : Prop :=
  ∀ (s t : State) (kind : LzwKind) (code prev : BitVec 12),
    s.op = lzwOp kind → LzwOk s → sparseWf emptyEntry s.dict = true → s.prev = some prev →
    code.toNat = s.next.toNat → exec (kwkwkInstr kind code) s = .next t →
      t.str kind code = s.str kind prev ++ [(s.str kind prev).headD 0]

/-- The string of a code: a root code is its byte, an entry is its prefix's string and its suffix
(10_state.md R41). -/
def Obligations.LzwStringUnfolds : Prop :=
  ∀ (s : State) (kind : LzwKind) (code : BitVec 12), s.op = lzwOp kind → LzwOk s →
    (code.toNat < 2 ^ lzwMin kind s → s.str kind code = [code.setWidth 8]) ∧
    (2 ^ lzwMin kind s + 2 ≤ code.toNat → code.toNat < s.next.toNat →
      s.str kind code = s.str kind (s.dict.read code.toNat).pfx ++ [(s.dict.read code.toNat).sfx])

/-- CLEAR puts the decoder in its first state: width MIN + 1, next CLEAR + 2, no previous code (R202). -/
def Obligations.LzwClearResetsDecoder : Prop :=
  ∀ (s : State) (kind : LzwKind), s.op = lzwOp kind → s.out.toNat < s.dstLen.toNat →
    exec (clearInstr kind) s = .next (ended false { s with
      bp := s.bp + BitVec.ofNat 35 s.w.toNat
      w := BitVec.ofNat 4 (lzwMin kind s + 1)
      next := BitVec.ofNat 13 (2 ^ lzwMin kind s + 2)
      prev := none })

/-- EOI completes the operation, with SHORT where the output is not full (R208). -/
def Obligations.LzwEoiEndsOperation : Prop :=
  ∀ (s : State) (kind : LzwKind), s.op = lzwOp kind →
    exec (eoiInstr kind) s = .next (ended true { s with
      bp := s.bp + BitVec.ofNat 35 s.w.toNat
      short := s.short || decide (s.out.toNat < s.dstLen.toNat) })

/-! ### UNPACK and HPRED -/

/-- An UNPACK row of 1-, 2-, 4- or 8-bit samples stores them MSB-first, zero-extended, at the row
VFLIP selects (44_unpack.md R280, R281, R285). -/
def Obligations.UnpackSub8Row : Prop :=
  ∀ (s : State) (row : List Byte), s.op = 7 → s.bd ∈ [1, 2, 4, 8] → row.length = s.stride →
    rowsOk (s.width.toNat * s.nc) s →
      ∃ m, exec (.unpackRowSub8 row) s =
        .next (rowDone s.stride (s.width.toNat * s.nc) m s) ∧
        stored s.mem m (unpackAt s) (samples s row)

/-- An UNPACK row of 16- or 32-bit samples stores each sample's most significant byte, the byte LE
selects (R280, R282, R283, R285). -/
def Obligations.UnpackWideRow : Prop :=
  ∀ (s : State) (row : List Byte), s.op = 7 → row.length = s.stride →
    rowsOk (s.width.toNat * s.nc) s →
      (s.bd = 16 → ∃ m, exec (.unpackRow16 row) s =
        .next (rowDone s.stride (s.width.toNat * s.nc) m s) ∧
        stored s.mem m (unpackAt s) (samples s row)) ∧
      (s.bd = 32 → ∃ m, exec (.unpackRow32 row) s =
        .next (rowDone s.stride (s.width.toNat * s.nc) m s) ∧
        stored s.mem m (unpackAt s) (samples s row))

/-- An HPRED row turns differences into running sums in place: the first NC bytes stay, each later
byte adds the new byte NC before it; no input is read (42_lzw.md R220). -/
def Obligations.HpredRowSums : Prop :=
  ∀ s : State, s.op = 8 → 1 ≤ s.nc → rowsOk (s.width.toNat * s.nc) s →
    let n := s.width.toNat * s.nc
    let base := s.dstAddr.toNat + s.r.toNat * n
    ∃ m, exec .hpredRow s = .next (rowDone 0 n m s) ∧ m.wf = true ∧
      (∀ i < n, m.read (base + i) =
        if i < s.nc then s.mem.read (base + i) else s.mem.read (base + i) + m.read (base + i - s.nc)) ∧
      ∀ b, b < base ∨ base + n ≤ b → m.read b = s.mem.read b

/-! ### The registers and the host -/

/-- After reset ID reads 0x50585231 and every other register 0 (10_state.md R49, R23, R37). -/
def Obligations.ResetRegistersRead : Prop :=
  ∀ off, off < 256 → off % 4 = 0 → ∃ t,
    step { State.reset with host := [⟨0, readOf State.reset off⟩] } = .next t ∧
      t.returned = [if off = 0 then 0x50585231 else 0]

/-- What every register reads: the bits of STATUS and CTRL (10_state.md R24, R25), ID (R37), the
operand registers (R26 to R30), the views of BP, OUT, x, y, r and p (R31 to R34), FADDR and FINFO (R35,
R36), and 0 at the reserved offsets (R38); and that a read while BUSY = 0 returns that (40_command.md
R131). That POS_X, POS_Y and PASS go by the running or last operation and not by CTRL.OP is the model's
reading (entry 5, DEDUCED). -/
def Obligations.StatusAndControlBits : Prop :=
  (∀ s : State,
    let status := readRegister 0x08 s
    let ctrl := readRegister 0x04 s
    status.getLsbD 0 = decide (s.phase = .run) ∧ status.getLsbD 1 = s.done ∧
    status.getLsbD 2 = s.fault ∧ status.getLsbD 3 = s.ovf ∧ status.getLsbD 4 = s.short ∧
    status.extractLsb' 5 3 = 0 ∧ status.extractLsb' 8 8 = s.fcode ∧ status.extractLsb' 16 16 = 0 ∧
    ctrl.extractLsb' 0 4 = 0 ∧ ctrl.extractLsb' 4 4 = s.ctrlOp ∧ ctrl.getLsbD 8 = s.irqEn ∧
    ctrl.extractLsb' 9 23 = 0) ∧
  (∀ s : State,
    readRegister 0x00 s = 0x50585231 ∧
    operandOffsets.map (readRegister · s) =
      [s.srcAddr, s.srcLen, s.dstAddr, s.dstLen, s.width, s.height, s.fmt] ∧
    (readRegister 0x28 s).toNat = s.bp.toNat / 8 ∧ (readRegister 0x2C s).toNat = s.bp.toNat % 8 ∧
    readRegister 0x30 s = s.out ∧
    (s.op ∈ [4, 5] → readRegister 0x34 s = s.x ∧ readRegister 0x38 s = s.y) ∧
    (s.op ∈ [0, 1, 7, 8] → readRegister 0x34 s = 0 ∧ readRegister 0x38 s = s.r) ∧
    (s.op ∈ [2, 3, 6] → readRegister 0x34 s = 0 ∧ readRegister 0x38 s = 0) ∧
    (readRegister 0x3C s).toNat = (if s.op = 1 then s.p.toNat else 0) ∧
    readRegister 0x40 s = s.faddr ∧ readRegister 0x44 s = s.finfo ∧
    ∀ off, 0x48 ≤ off → readRegister off s = 0) ∧
  (∀ (s : State) (off : Nat) (rest : List Queued),
    hostTurn s (readOf s off) rest → s.phase = .idle → off < 256 → off % 4 = 0 →
      step s = .next { s with host := rest, returned := (readRegister off s).toNat :: s.returned })

/-- An operand register written while BUSY = 0 reads back, FMT without its reserved bits, and no
other register and no byte of memory changes (40_command.md R131, R132; 10_state.md R30). -/
def Obligations.OperandWriteReadsBack : Prop :=
  ∀ (s : State) (off w1 w2 : Nat) (v : Word) (rest : List Queued),
    s.phase = .idle → off ∈ operandOffsets →
    s.host = ⟨w1, writeOf s off v⟩ :: ⟨w2, readOf s off⟩ :: rest →
      ∃ t, steps 2 s t ∧ t.host = rest ∧
        t.returned = (if off = 0x24 then v &&& 0x070F073F else v).toNat :: s.returned ∧
        t.mem = s.mem ∧ t.phase = .idle ∧
        ∀ other, other ≠ off → readRegister other t = readRegister other s

/-- The register writes that carry no command. To an operand register while BUSY = 1, and at any time
to ID, to a progress or fault register or to a reserved offset: nothing changes (10_state.md R37, R38,
R39; 40_command.md R132). To CTRL with START = 0 and ABORT = 0: IRQ_EN is written, and OP while BUSY = 0
(R24). To STATUS with bits 2:1 = 0: nothing changes, whatever the other bits (R25). -/
def Obligations.OtherRegisterWritesIgnored : Prop :=
  (∀ (s : State) (off : Nat) (v : Word) (rest : List Queued),
    hostTurn s (writeOf s off v) rest → off < 256 → off % 4 = 0 → off ≠ 0x04 → off ≠ 0x08 →
    (s.phase = .run ∨ off ∉ operandOffsets) →
      step s = .next { s with host := rest }) ∧
  (∀ (s : State) (v : Word) (rest : List Queued),
    hostTurn s (writeOf s 0x04 v) rest → v.getLsbD 0 = false → v.getLsbD 1 = false →
      step s = .next { s with
        host := rest
        irqEn := v.getLsbD 8
        ctrlOp := if s.phase = .run then s.ctrlOp else v.extractLsb' 4 4 }) ∧
  (∀ (s : State) (v : Word) (rest : List Queued),
    hostTurn s (writeOf s 0x08 v) rest → v.getLsbD 1 = false → v.getLsbD 2 = false →
      step s = .next { s with host := rest })

/-- A register read while BUSY = 1 shows the register at some boundary between engine steps, and a
later read that one or a later one: the boundaries before it may be seen no more (10_state.md R48).
That the boundary is one of a list `seen`, and that CTRL shows the IRQ_EN written last, are the model's
form of that rule (entry 8, DESIGN CHOICE). -/
def Obligations.ReadWhileBusyShowsABoundary : Prop :=
  ∀ (s : State) (off : Nat) (rest : List Queued), s.phase = .run → s.seen ≠ [] →
    hostTurn s (readOf s off) rest → off < 256 → off % 4 = 0 →
      ∃ k b, s.seen[k]? = some b ∧ step s = .next { s with
        host := rest
        returned := (readRegister off { s with
          bp := b.bp, out := b.out, x := b.x, y := b.y, r := b.r, p := b.p, ovf := b.ovf }).toNat ::
            s.returned
        seen := s.seen.take (k + 1)
        free := s.free + 1 }

/-- The host's data-memory accesses (20_memory.md R60, R65, R70; 70_reset_and_hazards.md R370). While
BUSY = 0 a value of any number of bytes reads back as written, little-endian, every other byte reads as
before, and a read gives the value of the bytes in memory. Byte by byte, whether the engine is busy or
not: a write stores its lowest byte wherever no window of the running operation lies; a read takes the
byte in memory, the input window's included, and may take any byte in the output window while BUSY = 1;
what is left goes back to the queue. One byte a step, with engine steps between them, is the model's
form (entry 12, DEDUCED). -/
def Obligations.HostMemoryWriteReadsBack : Prop :=
  (∀ (s : State) (a n v w1 w2 : Nat) (rest : List Queued),
    s.phase = .idle → s.params.wf = true → s.mem.wf = true → 1 ≤ n → a + n ≤ s.params.memSize →
    s.host = ⟨w1, .write (s.params.memBase + a) n v⟩ :: ⟨w2, .read (s.params.memBase + a) n⟩ :: rest →
      ∃ m, steps (n + n) s { s with
          mem := m, host := rest, returned := v % 256 ^ n :: s.returned, free := s.free + n + n } ∧
        stored s.mem m a (bytesOf n v)) ∧
  (∀ (s : State) (a n w : Nat) (rest : List Queued),
    s.phase = .idle → s.params.wf = true → 1 ≤ n → a + n ≤ s.params.memSize →
    s.host = ⟨w, .read (s.params.memBase + a) n⟩ :: rest →
      steps n s { s with
        host := rest, returned := valueOf (bytesAt s.mem a n) :: s.returned, free := s.free + n }) ∧
  (∀ (s : State) (acc : Access) (a : Nat) (v : Byte) (more : List Byte) (rest : List Queued),
    hostTurn s acc rest → s.params.wf = true → s.mem.wf = true → writes s acc a (v :: more) →
    (s.phase = .idle ∨ (s.inOutput a = false ∧ s.inInput a = false)) →
      ∃ m w, stored s.mem m a [v] ∧ step s = .next { s with
        mem := m
        host := if more = [] then rest else ⟨w, .writeRest (a + 1) more⟩ :: rest
        free := s.free + 1 }) ∧
  (∀ (s : State) (acc : Access) (a n : Nat) (got : List Byte) (rest : List Queued),
    hostTurn s acc rest → s.params.wf = true → reads s acc a n got →
      ∃ b w,
        (s.phase = .idle ∨ s.inOutput a = false ∨ (Inv s ∧ s.inInput a = true) → b = s.mem.read a) ∧
        step s = .next (if n = 1 then
          { s with
            host := rest, returned := valueOf (got ++ [b]) :: s.returned, free := s.free + 1 }
        else
          { s with
            host := ⟨w, .readRest (a + 1) (n - 1) (got ++ [b])⟩ :: rest, free := s.free + 1 }))

/-- The host accesses the spec gives no meaning: one that touches the register block and is not an
aligned word in it, a write to a byte of a window of the running operation, and one that touches no
register and does not lie whole in the data memory (20_memory.md R65, R70 item 5, R67;
70_reset_and_hazards.md R370). The model's own readings: that an access which begins outside the register
block and reaches into it is a malformed register access, and that a wide write is refused at its first
byte in a window, the bytes before it stored (both entry 13, DEDUCED); that the last is refused, and its
name (entry 14, DEDUCED). -/
def Obligations.HostRefusals : Prop :=
  (∀ (s : State) (acc : Access) (addr size : Nat) (rest : List Queued),
    hostTurn s acc rest → touches acc addr size →
    addr < s.params.regBase + 256 → s.params.regBase < addr + size →
    ¬ (s.params.regBase ≤ addr ∧ (addr - s.params.regBase) % 4 = 0 ∧ size = 4) →
      step s = .refused .registerAccessForm) ∧
  (∀ (s : State) (acc : Access) (a : Nat) (v : Byte) (more : List Byte) (rest : List Queued),
    hostTurn s acc rest → s.params.wf = true → writes s acc a (v :: more) → s.phase = .run →
    (s.inOutput a = true ∨ s.inInput a = true) →
      step s = .refused .windowWriteWhileBusy) ∧
  (∀ (s : State) (acc : Access) (addr size : Nat) (rest : List Queued),
    hostTurn s acc rest → touches acc addr size →
    (addr + size ≤ s.params.regBase ∨ s.params.regBase + 256 ≤ addr) →
    (addr < s.params.memBase ∨ s.params.memBase + s.params.memSize < addr + size) →
      step s = .refused .addressNotPxr)

/-- The reset input puts every register at its reset value, leaves memory, and of an abandoned run
only the output window's bytes may change (70_reset_and_hazards.md R360, R361). The model's choices: the
values w, next, prev, PRIOR, CUR and DICT take (entry 3, DESIGN CHOICE), that BP, OUT, x, y, r and p are
0, where R49 and R360 differ (entry 4, DEDUCED), and that op is 0 (entry 5, DESIGN CHOICE). -/
def Obligations.PlatformResetLeavesMemory : Prop :=
  ∀ (s : State) (rest : List Queued), hostTurn s .reset rest → s.mem.wf = true →
    ∃ m n, step s = .next { State.reset with
        params := s.params, mem := m, host := rest, returned := s.returned, free := n } ∧
      (s.phase = .idle → m = s.mem) ∧ sameOutside s m

/-- IRQ is 1 exactly when IRQ_EN = 1 and DONE or FAULT is (10_state.md R46, 60_exceptions.md R330). A
pending interrupt stays until the host writes CTRL or STATUS or resets the machine: a step that lowers
IRQ is the host's performing such an access; no engine step and no other access does it
(70_reset_and_hazards.md R374). -/
def Obligations.InterruptStaysPending : Prop :=
  (∀ s : State, irq s = true ↔ s.irqEn = true ∧ (s.done = true ∨ s.fault = true)) ∧
  ∀ s t : State, step s = .next t → irq s = true → irq t = false →
    engineTurn s = false ∧ ∃ acc rest, hostTurn s acc rest ∧
      (acc = .reset ∨ (∃ v, acc = .write (s.params.regBase + 4) 4 v) ∨
        ∃ v, acc = .write (s.params.regBase + 8) 4 v)

/-! ### The whole machine -/

/-- The invariant holds after reset. The values it is checked on are in part the model's choice
(entries 1, 2, 3). -/
def Obligations.InvHoldsAtReset : Prop := Inv State.reset

/-- Every step, the engine's or the host's, keeps the invariant (10_state.md R21, R22, R25, R30, R40
to R45; 40_command.md R135). -/
def Obligations.StepKeepsInv : Prop :=
  ∀ s t : State, Inv s → step s = .next t → Inv t

/-- No step of a machine in the invariant stops with a fault of the model: every engine access lies in
a window START checked (20_memory.md R62), and every run has a legal element format. -/
def Obligations.InvRunsNeverFault : Prop :=
  ∀ (s : State) (f : Fault), Inv s → step s ≠ .fault f

/-- An engine step writes only bytes of the output window and never the input window (20_memory.md
R62, R73; 60_exceptions.md R326). -/
def Obligations.EngineWritesOnlyItsWindow : Prop :=
  ∀ s t : State, Inv s → engineTurn s = true → step s = .next t →
    (∀ a, s.inOutput a = false → t.mem.read a = s.mem.read a) ∧
    (∀ a, s.inInput a = true → t.mem.read a = s.mem.read a)

/-- Every run ends: with the host silent, an operation is idle with DONE or FAULT after one step more
than the input bits left, HPRED after its rows left (40_command.md R144). -/
def Obligations.OperationTerminates : Prop :=
  ∀ (s : State) (n : Nat), Inv s → s.phase = .run → s.host = [] →
    (if s.op = 8 then s.height.toNat - s.r.toNat else 8 * s.srcLen.toNat - s.bp.toNat + 1) ≤ n →
      ∃ t, Host.Core.run Sys2Proof.core n s = .next t ∧ t.phase = .idle ∧
        (t.done = true ∨ t.fault = true)

/-- The parameters never change, and while an operation runs on neither do the operand registers,
CTRL.OP and the operation (00_scope.md R9; 10_state.md R24, R39). -/
def Obligations.OperandsFixedWhileBusy : Prop :=
  ∀ s t : State, step s = .next t →
    t.params = s.params ∧ (s.phase = .run → t.phase = .run → sameOperands s t)

/-- While the engine is idle only a START write makes it busy or raises FAULT, and nothing sets DONE
(10_state.md R25; 60_exceptions.md R327, R347). -/
def Obligations.OnlyStartRaisesWhileIdle : Prop :=
  ∀ s t : State, s.phase = .idle → step s = .next t →
    (t.done = true → s.done = true) ∧
    ((t.phase = .run ∨ (t.fault = true ∧ s.fault = false)) →
      ∃ w v rest, s.host = ⟨w, .write (s.params.regBase + 4) 4 v⟩ :: rest ∧ v % 2 = 1)

/-- An engine step never moves BP back; one after which the operation goes on moves it forward, but
for HPRED, whose steps leave BP and move r forward (10_state.md R21; 30_encoding.md R92; 40_command.md
R144). -/
def Obligations.CursorMovesForward : Prop :=
  ∀ s t : State, Inv s → engineTurn s = true → step s = .next t →
    s.bp.toNat ≤ t.bp.toNat ∧
    (t.phase = .run → s.op ≠ 8 → s.bp.toNat < t.bp.toNat) ∧
    (t.phase = .run → s.op = 8 → t.bp = s.bp ∧ t.r.toNat = s.r.toNat + 1)

end Statements
end

