-- ==== Sys2Proof/Laws/Memory.lean ====
section
/-! SUPPORT. Laws of sparse storage and of the data memory: reads after writes, and every operation
keeps the canonical form and the address range. -/

namespace Sys2Proof.Machine

section Sparse

variable {α : Type} [DecidableEq α] {d : α}

/-- The canonical form of a non-empty list, as a proposition. -/
theorem sparseWf_cons (b : Nat) (u : α) (m : List (Nat × α)) :
    sparseWf d ((b, u) :: m) = true ↔
      u ≠ d ∧ (∀ c ∈ m, b < c.1) ∧ sparseWf d m = true := by
  simp [sparseWf, and_assoc, List.all_eq_true]

omit [DecidableEq α] in
/-- Below every key nothing is listed. -/
theorem sparseRead_below {m : List (Nat × α)} {a : Nat} (h : ∀ c ∈ m, a < c.1) :
    sparseRead d m a = d := by
  induction m with
  | nil => rfl
  | cons e m ih =>
    obtain ⟨b, u⟩ := e
    have hb : a < b := h (b, u) (by simp)
    simp only [sparseRead, if_neg (Nat.ne_of_lt hb)]
    exact ih fun c hc => h c (by simp [hc])

/-- A read after a write: the written value at its key, every other key as before. -/
theorem sparseRead_write {m : List (Nat × α)} (h : sparseWf d m = true) (a b : Nat) (v : α) :
    sparseRead d (sparseWrite d m a v) b = if b = a then v else sparseRead d m b := by
  induction m with
  | nil =>
    by_cases hv : v = d <;> by_cases hb : b = a <;> simp [sparseWrite, sparseRead, hv, hb]
  | cons e m ih =>
    obtain ⟨k, u⟩ := e
    obtain ⟨-, hlt, hm⟩ := (sparseWf_cons k u m).1 h
    by_cases hak : a < k
    · have hbelow : sparseRead d m a = d :=
        sparseRead_below fun c hc => Nat.lt_trans hak (hlt c hc)
      by_cases hv : v = d
      · simp only [sparseWrite, hak, hv, if_true]
        by_cases hb : b = a
        · subst hb
          simp [sparseRead, Nat.ne_of_lt hak, hbelow]
        · simp [hb]
      · simp only [sparseWrite, hak, hv, if_true, if_false, sparseRead]
    · by_cases hae : a = k
      · subst hae
        have hbelow : sparseRead d m a = d := sparseRead_below hlt
        by_cases hv : v = d
        · simp only [sparseWrite, hv, if_true, lt_irrefl, if_false]
          by_cases hb : b = a
          · simp [hb, hbelow]
          · simp [sparseRead, hb]
        · by_cases hb : b = a <;> simp [sparseWrite, hv, sparseRead, hb]
      · simp only [sparseWrite, hak, hae, if_false, sparseRead, ih hm]
        by_cases hb : b = k
        · simp [hb, Ne.symm hae]
        · simp [hb]

/-- A write lists no key but its own and those already listed. -/
theorem mem_sparseWrite {m : List (Nat × α)} {a : Nat} {v : α} {c : Nat × α}
    (h : c ∈ sparseWrite d m a v) : c.1 = a ∨ c ∈ m := by
  induction m with
  | nil =>
    by_cases hv : v = d
    · simp [sparseWrite, hv] at h
    · simp [sparseWrite, hv] at h
      exact .inl (by rw [h])
  | cons e m ih =>
    obtain ⟨k, u⟩ := e
    simp only [sparseWrite] at h
    split at h
    · split at h
      · exact .inr h
      · rcases List.mem_cons.1 h with h | h
        · exact .inl (by rw [h])
        · exact .inr h
    · split at h
      · split at h
        · exact .inr (List.mem_cons_of_mem _ h)
        · rcases List.mem_cons.1 h with h | h
          · exact .inl (by rw [h])
          · exact .inr (List.mem_cons_of_mem _ h)
      · rcases List.mem_cons.1 h with h | h
        · exact .inr (by rw [h]; simp)
        · rcases ih h with h | h
          · exact .inl h
          · exact .inr (List.mem_cons_of_mem _ h)

/-- A write keeps the canonical form. -/
theorem sparseWf_write {m : List (Nat × α)} (h : sparseWf d m = true) (a : Nat) (v : α) :
    sparseWf d (sparseWrite d m a v) = true := by
  induction m with
  | nil => by_cases hv : v = d <;> simp [sparseWrite, sparseWf, hv]
  | cons e m ih =>
    obtain ⟨k, u⟩ := e
    obtain ⟨hu, hlt, hm⟩ := (sparseWf_cons k u m).1 h
    simp only [sparseWrite]
    split
    · rename_i hak
      split
      · exact h
      · rename_i hv
        refine (sparseWf_cons _ _ _).2 ⟨hv, ?_, h⟩
        intro c hc
        rcases List.mem_cons.1 hc with hc | hc
        · rw [hc]; exact hak
        · exact Nat.lt_trans hak (hlt c hc)
    · rename_i hak
      split
      · rename_i hae
        subst hae
        split
        · exact hm
        · rename_i hv
          exact (sparseWf_cons _ _ _).2 ⟨hv, hlt, hm⟩
      · rename_i hae
        refine (sparseWf_cons _ _ _).2 ⟨hu, ?_, ih hm⟩
        intro c hc
        rcases mem_sparseWrite hc with hc | hc
        · rw [hc]; omega
        · exact hlt c hc

end Sparse

/-! ### The data memory -/

/-- A read after a write of one byte. -/
theorem Memory.read_write {m : Memory} (h : m.wf = true) (a b : Nat) (v : Byte) :
    (m.write a v).read b = if b = a then v else m.read b :=
  sparseRead_write h a b v

/-- The written byte reads back. -/
theorem Memory.read_write_same {m : Memory} (h : m.wf = true) (a : Nat) (v : Byte) :
    (m.write a v).read a = v := by simp [Memory.read_write h]

/-- Every other byte reads as before. -/
theorem Memory.read_write_other {m : Memory} (h : m.wf = true) {a b : Nat} (hne : b ≠ a) (v : Byte) :
    (m.write a v).read b = m.read b := by simp [Memory.read_write h, hne]

/-- A write keeps the canonical form. -/
theorem Memory.wf_write {m : Memory} (h : m.wf = true) (a : Nat) (v : Byte) :
    (m.write a v).wf = true := sparseWf_write h a v

/-- A write of an address that exists keeps the address range. -/
theorem Memory.within_write {size : Nat} {m : Memory} (h : m.within size = true) {a : Nat}
    (ha : a < size) (v : Byte) : (m.write a v).within size = true := by
  simp only [Memory.within, List.all_eq_true, decide_eq_true_eq] at h ⊢
  intro c hc
  rcases mem_sparseWrite hc with hc | hc
  · rw [hc]; exact ha
  · exact h c hc

/-- What a store can do: the address exists, and it is the write. -/
theorem Memory.store_eq_some {size : Nat} {m m' : Memory} {a : Nat} {v : Byte} :
    m.store size a v = some m' ↔ a < size ∧ m' = m.write a v := by
  unfold Memory.store
  split <;> simp_all [eq_comm]

/-- Stores of existing addresses succeed. -/
theorem Memory.storeAll_isSome {size : Nat} (vs : List Byte) :
    ∀ (m : Memory) (a : Nat), a + vs.length ≤ size → ∃ m', m.storeAll size a vs = some m' := by
  induction vs with
  | nil => exact fun m a _ => ⟨m, rfl⟩
  | cons v vs ih =>
    intro m a h
    have ha : a < size := by simp at h; omega
    obtain ⟨m', hm'⟩ := ih (m.write a v) (a + 1) (by simp at h; omega)
    exact ⟨m', by simp [Memory.storeAll, Memory.store, ha, hm']⟩

/-- What stores of a list do: the stored bytes read back, every other byte as before, and the
canonical form and the address range are kept. -/
theorem Memory.storeAll_spec {size : Nat} (vs : List Byte) :
    ∀ {m m' : Memory} {a : Nat}, m.wf = true → m.storeAll size a vs = some m' →
      m'.wf = true ∧ (m.within size = true → m'.within size = true) ∧
      (∀ k < vs.length, m'.read (a + k) = vs.getD k 0) ∧
      ∀ b, b < a ∨ a + vs.length ≤ b → m'.read b = m.read b := by
  induction vs with
  | nil =>
    intro m m' a hm h
    obtain rfl : m = m' := by simpa [Memory.storeAll] using h
    simp [hm]
  | cons v vs ih =>
    intro m m' a hm h
    simp only [Memory.storeAll, Option.bind_eq_some_iff] at h
    obtain ⟨m₁, h₁, h₂⟩ := h
    obtain ⟨ha, rfl⟩ := Memory.store_eq_some.1 h₁
    obtain ⟨hwf, hin, hget, hother⟩ := ih (Memory.wf_write hm a v) h₂
    refine ⟨hwf, fun hm' => hin (Memory.within_write hm' ha v), ?_, ?_⟩
    · intro k hk
      cases k with
      | zero =>
        rw [Nat.add_zero, hother a (by omega), Memory.read_write_same hm]
        rfl
      | succ k =>
        have := hget k (by simpa using hk)
        rw [show a + (k + 1) = a + 1 + k by omega, this]
        rfl
    · intro b hb
      simp only [List.length_cons] at hb
      rw [hother b (by omega), Memory.read_write_other hm (by omega)]

/-- Free values at the bytes of a range leave every other byte, the form and the range. -/
theorem Memory.havoc_spec (occasion a : Nat) (n : Nat) :
    ∀ {m : Memory}, m.wf = true →
      (m.havoc occasion a n).wf = true ∧
      (∀ size, a + n ≤ size → m.within size = true → (m.havoc occasion a n).within size = true) ∧
      (∀ k < n, (m.havoc occasion a n).read (a + k) = Config.windowByte occasion (a + k)) ∧
      ∀ b, b < a ∨ a + n ≤ b → (m.havoc occasion a n).read b = m.read b := by
  induction n with
  | zero => intro m hm; simp [Memory.havoc, hm]
  | succ n ih =>
    intro m hm
    obtain ⟨hwf, hin, hget, hother⟩ := ih hm
    refine ⟨Memory.wf_write hwf _ _, ?_, ?_, ?_⟩
    · intro size hs hm'
      exact Memory.within_write (hin size (by omega) hm') (by omega) _
    · intro k hk
      rw [Memory.havoc, Memory.read_write hwf]
      by_cases hkn : k = n
      · simp [hkn]
      · rw [if_neg (by omega), hget k (by omega)]
    · intro b hb
      rw [Memory.havoc, Memory.read_write_other hwf (by omega), hother b (by omega)]

/-- The memory of the reset state is canonical. -/
theorem reset_memory_wf : State.reset.mem.wf = true := by decide

/-! ### The dictionary -/

/-- A dictionary entry read after a write. -/
theorem Dict.read_write {d : Dict} (h : sparseWf emptyEntry d = true) (a b : Nat) (v : DictEntry) :
    (d.write a v).read b = if b = a then v else d.read b :=
  sparseRead_write h a b v

end Sys2Proof.Machine
end

