-- ==== Sys2Proof/Laws/State.lean ====
section
/-! SUPPORT. One lemma for each field and each named update of the state, true by rfl, so that no
proof unfolds a record update; and one for each derived size the update keeps. -/

namespace Sys2Proof.Machine

/-! ### advance -/

@[simp] theorem advance_params (n : Nat) (s : State) : (advance n s).params = s.params := rfl
@[simp] theorem advance_ctrlOp (n : Nat) (s : State) : (advance n s).ctrlOp = s.ctrlOp := rfl
@[simp] theorem advance_irqEn (n : Nat) (s : State) : (advance n s).irqEn = s.irqEn := rfl
@[simp] theorem advance_phase (n : Nat) (s : State) : (advance n s).phase = s.phase := rfl
@[simp] theorem advance_done (n : Nat) (s : State) : (advance n s).done = s.done := rfl
@[simp] theorem advance_fault (n : Nat) (s : State) : (advance n s).fault = s.fault := rfl
@[simp] theorem advance_ovf (n : Nat) (s : State) : (advance n s).ovf = s.ovf := rfl
@[simp] theorem advance_short (n : Nat) (s : State) : (advance n s).short = s.short := rfl
@[simp] theorem advance_fcode (n : Nat) (s : State) : (advance n s).fcode = s.fcode := rfl
@[simp] theorem advance_srcAddr (n : Nat) (s : State) : (advance n s).srcAddr = s.srcAddr := rfl
@[simp] theorem advance_srcLen (n : Nat) (s : State) : (advance n s).srcLen = s.srcLen := rfl
@[simp] theorem advance_dstAddr (n : Nat) (s : State) : (advance n s).dstAddr = s.dstAddr := rfl
@[simp] theorem advance_dstLen (n : Nat) (s : State) : (advance n s).dstLen = s.dstLen := rfl
@[simp] theorem advance_width (n : Nat) (s : State) : (advance n s).width = s.width := rfl
@[simp] theorem advance_height (n : Nat) (s : State) : (advance n s).height = s.height := rfl
@[simp] theorem advance_fmt (n : Nat) (s : State) : (advance n s).fmt = s.fmt := rfl
@[simp] theorem advance_faddr (n : Nat) (s : State) : (advance n s).faddr = s.faddr := rfl
@[simp] theorem advance_finfo (n : Nat) (s : State) : (advance n s).finfo = s.finfo := rfl
@[simp] theorem advance_op (n : Nat) (s : State) : (advance n s).op = s.op := rfl
@[simp] theorem advance_bp (n : Nat) (s : State) : (advance n s).bp = s.bp + BitVec.ofNat 35 n := rfl
@[simp] theorem advance_out (n : Nat) (s : State) : (advance n s).out = s.out := rfl
@[simp] theorem advance_x (n : Nat) (s : State) : (advance n s).x = s.x := rfl
@[simp] theorem advance_y (n : Nat) (s : State) : (advance n s).y = s.y := rfl
@[simp] theorem advance_r (n : Nat) (s : State) : (advance n s).r = s.r := rfl
@[simp] theorem advance_p (n : Nat) (s : State) : (advance n s).p = s.p := rfl
@[simp] theorem advance_w (n : Nat) (s : State) : (advance n s).w = s.w := rfl
@[simp] theorem advance_next (n : Nat) (s : State) : (advance n s).next = s.next := rfl
@[simp] theorem advance_prev (n : Nat) (s : State) : (advance n s).prev = s.prev := rfl
@[simp] theorem advance_abortReq (n : Nat) (s : State) : (advance n s).abortReq = s.abortReq := rfl
@[simp] theorem advance_prior (n : Nat) (s : State) : (advance n s).prior = s.prior := rfl
@[simp] theorem advance_cur (n : Nat) (s : State) : (advance n s).cur = s.cur := rfl
@[simp] theorem advance_dict (n : Nat) (s : State) : (advance n s).dict = s.dict := rfl
@[simp] theorem advance_mem (n : Nat) (s : State) : (advance n s).mem = s.mem := rfl
@[simp] theorem advance_host (n : Nat) (s : State) : (advance n s).host = s.host := rfl
@[simp] theorem advance_returned (n : Nat) (s : State) : (advance n s).returned = s.returned := rfl
@[simp] theorem advance_seen (n : Nat) (s : State) : (advance n s).seen = s.seen := rfl
@[simp] theorem advance_free (n : Nat) (s : State) : (advance n s).free = s.free := rfl
@[simp] theorem advance_W (n : Nat) (s : State) : (advance n s).W = s.W := rfl
@[simp] theorem advance_H (n : Nat) (s : State) : (advance n s).H = s.H := rfl
@[simp] theorem advance_bd (n : Nat) (s : State) : (advance n s).bd = s.bd := rfl
@[simp] theorem advance_nc (n : Nat) (s : State) : (advance n s).nc = s.nc := rfl
@[simp] theorem advance_lzwMin (n : Nat) (s : State) : (advance n s).lzwMin = s.lzwMin := rfl
@[simp] theorem advance_vflip (n : Nat) (s : State) : (advance n s).vflip = s.vflip := rfl
@[simp] theorem advance_le (n : Nat) (s : State) : (advance n s).le = s.le := rfl
@[simp] theorem advance_align4 (n : Nat) (s : State) : (advance n s).align4 = s.align4 := rfl
@[simp] theorem advance_rb (n : Nat) (s : State) : (advance n s).rb = s.rb := rfl
@[simp] theorem advance_bppb (n : Nat) (s : State) : (advance n s).bppb = s.bppb := rfl
@[simp] theorem advance_stride (n : Nat) (s : State) : (advance n s).stride = s.stride := rfl
@[simp] theorem advance_rowSamples (n : Nat) (s : State) : (advance n s).rowSamples = s.rowSamples := rfl
@[simp] theorem advance_outSize (n : Nat) (s : State) : (advance n s).outSize = s.outSize := rfl

/-! ### countOut -/

@[simp] theorem countOut_params (n : Nat) (s : State) : (countOut n s).params = s.params := rfl
@[simp] theorem countOut_ctrlOp (n : Nat) (s : State) : (countOut n s).ctrlOp = s.ctrlOp := rfl
@[simp] theorem countOut_irqEn (n : Nat) (s : State) : (countOut n s).irqEn = s.irqEn := rfl
@[simp] theorem countOut_phase (n : Nat) (s : State) : (countOut n s).phase = s.phase := rfl
@[simp] theorem countOut_done (n : Nat) (s : State) : (countOut n s).done = s.done := rfl
@[simp] theorem countOut_fault (n : Nat) (s : State) : (countOut n s).fault = s.fault := rfl
@[simp] theorem countOut_ovf (n : Nat) (s : State) : (countOut n s).ovf = s.ovf := rfl
@[simp] theorem countOut_short (n : Nat) (s : State) : (countOut n s).short = s.short := rfl
@[simp] theorem countOut_fcode (n : Nat) (s : State) : (countOut n s).fcode = s.fcode := rfl
@[simp] theorem countOut_srcAddr (n : Nat) (s : State) : (countOut n s).srcAddr = s.srcAddr := rfl
@[simp] theorem countOut_srcLen (n : Nat) (s : State) : (countOut n s).srcLen = s.srcLen := rfl
@[simp] theorem countOut_dstAddr (n : Nat) (s : State) : (countOut n s).dstAddr = s.dstAddr := rfl
@[simp] theorem countOut_dstLen (n : Nat) (s : State) : (countOut n s).dstLen = s.dstLen := rfl
@[simp] theorem countOut_width (n : Nat) (s : State) : (countOut n s).width = s.width := rfl
@[simp] theorem countOut_height (n : Nat) (s : State) : (countOut n s).height = s.height := rfl
@[simp] theorem countOut_fmt (n : Nat) (s : State) : (countOut n s).fmt = s.fmt := rfl
@[simp] theorem countOut_faddr (n : Nat) (s : State) : (countOut n s).faddr = s.faddr := rfl
@[simp] theorem countOut_finfo (n : Nat) (s : State) : (countOut n s).finfo = s.finfo := rfl
@[simp] theorem countOut_op (n : Nat) (s : State) : (countOut n s).op = s.op := rfl
@[simp] theorem countOut_bp (n : Nat) (s : State) : (countOut n s).bp = s.bp := rfl
@[simp] theorem countOut_out (n : Nat) (s : State) : (countOut n s).out = s.out + BitVec.ofNat 32 n := rfl
@[simp] theorem countOut_x (n : Nat) (s : State) : (countOut n s).x = s.x := rfl
@[simp] theorem countOut_y (n : Nat) (s : State) : (countOut n s).y = s.y := rfl
@[simp] theorem countOut_r (n : Nat) (s : State) : (countOut n s).r = s.r := rfl
@[simp] theorem countOut_p (n : Nat) (s : State) : (countOut n s).p = s.p := rfl
@[simp] theorem countOut_w (n : Nat) (s : State) : (countOut n s).w = s.w := rfl
@[simp] theorem countOut_next (n : Nat) (s : State) : (countOut n s).next = s.next := rfl
@[simp] theorem countOut_prev (n : Nat) (s : State) : (countOut n s).prev = s.prev := rfl
@[simp] theorem countOut_abortReq (n : Nat) (s : State) : (countOut n s).abortReq = s.abortReq := rfl
@[simp] theorem countOut_prior (n : Nat) (s : State) : (countOut n s).prior = s.prior := rfl
@[simp] theorem countOut_cur (n : Nat) (s : State) : (countOut n s).cur = s.cur := rfl
@[simp] theorem countOut_dict (n : Nat) (s : State) : (countOut n s).dict = s.dict := rfl
@[simp] theorem countOut_mem (n : Nat) (s : State) : (countOut n s).mem = s.mem := rfl
@[simp] theorem countOut_host (n : Nat) (s : State) : (countOut n s).host = s.host := rfl
@[simp] theorem countOut_returned (n : Nat) (s : State) : (countOut n s).returned = s.returned := rfl
@[simp] theorem countOut_seen (n : Nat) (s : State) : (countOut n s).seen = s.seen := rfl
@[simp] theorem countOut_free (n : Nat) (s : State) : (countOut n s).free = s.free := rfl
@[simp] theorem countOut_W (n : Nat) (s : State) : (countOut n s).W = s.W := rfl
@[simp] theorem countOut_H (n : Nat) (s : State) : (countOut n s).H = s.H := rfl
@[simp] theorem countOut_bd (n : Nat) (s : State) : (countOut n s).bd = s.bd := rfl
@[simp] theorem countOut_nc (n : Nat) (s : State) : (countOut n s).nc = s.nc := rfl
@[simp] theorem countOut_lzwMin (n : Nat) (s : State) : (countOut n s).lzwMin = s.lzwMin := rfl
@[simp] theorem countOut_vflip (n : Nat) (s : State) : (countOut n s).vflip = s.vflip := rfl
@[simp] theorem countOut_le (n : Nat) (s : State) : (countOut n s).le = s.le := rfl
@[simp] theorem countOut_align4 (n : Nat) (s : State) : (countOut n s).align4 = s.align4 := rfl
@[simp] theorem countOut_rb (n : Nat) (s : State) : (countOut n s).rb = s.rb := rfl
@[simp] theorem countOut_bppb (n : Nat) (s : State) : (countOut n s).bppb = s.bppb := rfl
@[simp] theorem countOut_stride (n : Nat) (s : State) : (countOut n s).stride = s.stride := rfl
@[simp] theorem countOut_rowSamples (n : Nat) (s : State) : (countOut n s).rowSamples = s.rowSamples := rfl
@[simp] theorem countOut_outSize (n : Nat) (s : State) : (countOut n s).outSize = s.outSize := rfl

/-! ### nextRow -/

@[simp] theorem nextRow_params (s : State) : (nextRow s).params = s.params := rfl
@[simp] theorem nextRow_ctrlOp (s : State) : (nextRow s).ctrlOp = s.ctrlOp := rfl
@[simp] theorem nextRow_irqEn (s : State) : (nextRow s).irqEn = s.irqEn := rfl
@[simp] theorem nextRow_phase (s : State) : (nextRow s).phase = s.phase := rfl
@[simp] theorem nextRow_done (s : State) : (nextRow s).done = s.done := rfl
@[simp] theorem nextRow_fault (s : State) : (nextRow s).fault = s.fault := rfl
@[simp] theorem nextRow_ovf (s : State) : (nextRow s).ovf = s.ovf := rfl
@[simp] theorem nextRow_short (s : State) : (nextRow s).short = s.short := rfl
@[simp] theorem nextRow_fcode (s : State) : (nextRow s).fcode = s.fcode := rfl
@[simp] theorem nextRow_srcAddr (s : State) : (nextRow s).srcAddr = s.srcAddr := rfl
@[simp] theorem nextRow_srcLen (s : State) : (nextRow s).srcLen = s.srcLen := rfl
@[simp] theorem nextRow_dstAddr (s : State) : (nextRow s).dstAddr = s.dstAddr := rfl
@[simp] theorem nextRow_dstLen (s : State) : (nextRow s).dstLen = s.dstLen := rfl
@[simp] theorem nextRow_width (s : State) : (nextRow s).width = s.width := rfl
@[simp] theorem nextRow_height (s : State) : (nextRow s).height = s.height := rfl
@[simp] theorem nextRow_fmt (s : State) : (nextRow s).fmt = s.fmt := rfl
@[simp] theorem nextRow_faddr (s : State) : (nextRow s).faddr = s.faddr := rfl
@[simp] theorem nextRow_finfo (s : State) : (nextRow s).finfo = s.finfo := rfl
@[simp] theorem nextRow_op (s : State) : (nextRow s).op = s.op := rfl
@[simp] theorem nextRow_bp (s : State) : (nextRow s).bp = s.bp := rfl
@[simp] theorem nextRow_out (s : State) : (nextRow s).out = s.out := rfl
@[simp] theorem nextRow_x (s : State) : (nextRow s).x = s.x := rfl
@[simp] theorem nextRow_y (s : State) : (nextRow s).y = s.y := rfl
@[simp] theorem nextRow_r (s : State) : (nextRow s).r = s.r + 1 := rfl
@[simp] theorem nextRow_p (s : State) : (nextRow s).p = s.p := rfl
@[simp] theorem nextRow_w (s : State) : (nextRow s).w = s.w := rfl
@[simp] theorem nextRow_next (s : State) : (nextRow s).next = s.next := rfl
@[simp] theorem nextRow_prev (s : State) : (nextRow s).prev = s.prev := rfl
@[simp] theorem nextRow_abortReq (s : State) : (nextRow s).abortReq = s.abortReq := rfl
@[simp] theorem nextRow_prior (s : State) : (nextRow s).prior = s.prior := rfl
@[simp] theorem nextRow_cur (s : State) : (nextRow s).cur = s.cur := rfl
@[simp] theorem nextRow_dict (s : State) : (nextRow s).dict = s.dict := rfl
@[simp] theorem nextRow_mem (s : State) : (nextRow s).mem = s.mem := rfl
@[simp] theorem nextRow_host (s : State) : (nextRow s).host = s.host := rfl
@[simp] theorem nextRow_returned (s : State) : (nextRow s).returned = s.returned := rfl
@[simp] theorem nextRow_seen (s : State) : (nextRow s).seen = s.seen := rfl
@[simp] theorem nextRow_free (s : State) : (nextRow s).free = s.free := rfl
@[simp] theorem nextRow_W (s : State) : (nextRow s).W = s.W := rfl
@[simp] theorem nextRow_H (s : State) : (nextRow s).H = s.H := rfl
@[simp] theorem nextRow_bd (s : State) : (nextRow s).bd = s.bd := rfl
@[simp] theorem nextRow_nc (s : State) : (nextRow s).nc = s.nc := rfl
@[simp] theorem nextRow_lzwMin (s : State) : (nextRow s).lzwMin = s.lzwMin := rfl
@[simp] theorem nextRow_vflip (s : State) : (nextRow s).vflip = s.vflip := rfl
@[simp] theorem nextRow_le (s : State) : (nextRow s).le = s.le := rfl
@[simp] theorem nextRow_align4 (s : State) : (nextRow s).align4 = s.align4 := rfl
@[simp] theorem nextRow_rb (s : State) : (nextRow s).rb = s.rb := rfl
@[simp] theorem nextRow_bppb (s : State) : (nextRow s).bppb = s.bppb := rfl
@[simp] theorem nextRow_stride (s : State) : (nextRow s).stride = s.stride := rfl
@[simp] theorem nextRow_rowSamples (s : State) : (nextRow s).rowSamples = s.rowSamples := rfl
@[simp] theorem nextRow_outSize (s : State) : (nextRow s).outSize = s.outSize := rfl

/-! ### setOvf -/

@[simp] theorem setOvf_params (s : State) : (setOvf s).params = s.params := rfl
@[simp] theorem setOvf_ctrlOp (s : State) : (setOvf s).ctrlOp = s.ctrlOp := rfl
@[simp] theorem setOvf_irqEn (s : State) : (setOvf s).irqEn = s.irqEn := rfl
@[simp] theorem setOvf_phase (s : State) : (setOvf s).phase = s.phase := rfl
@[simp] theorem setOvf_done (s : State) : (setOvf s).done = s.done := rfl
@[simp] theorem setOvf_fault (s : State) : (setOvf s).fault = s.fault := rfl
@[simp] theorem setOvf_ovf (s : State) : (setOvf s).ovf = true := rfl
@[simp] theorem setOvf_short (s : State) : (setOvf s).short = s.short := rfl
@[simp] theorem setOvf_fcode (s : State) : (setOvf s).fcode = s.fcode := rfl
@[simp] theorem setOvf_srcAddr (s : State) : (setOvf s).srcAddr = s.srcAddr := rfl
@[simp] theorem setOvf_srcLen (s : State) : (setOvf s).srcLen = s.srcLen := rfl
@[simp] theorem setOvf_dstAddr (s : State) : (setOvf s).dstAddr = s.dstAddr := rfl
@[simp] theorem setOvf_dstLen (s : State) : (setOvf s).dstLen = s.dstLen := rfl
@[simp] theorem setOvf_width (s : State) : (setOvf s).width = s.width := rfl
@[simp] theorem setOvf_height (s : State) : (setOvf s).height = s.height := rfl
@[simp] theorem setOvf_fmt (s : State) : (setOvf s).fmt = s.fmt := rfl
@[simp] theorem setOvf_faddr (s : State) : (setOvf s).faddr = s.faddr := rfl
@[simp] theorem setOvf_finfo (s : State) : (setOvf s).finfo = s.finfo := rfl
@[simp] theorem setOvf_op (s : State) : (setOvf s).op = s.op := rfl
@[simp] theorem setOvf_bp (s : State) : (setOvf s).bp = s.bp := rfl
@[simp] theorem setOvf_out (s : State) : (setOvf s).out = s.out := rfl
@[simp] theorem setOvf_x (s : State) : (setOvf s).x = s.x := rfl
@[simp] theorem setOvf_y (s : State) : (setOvf s).y = s.y := rfl
@[simp] theorem setOvf_r (s : State) : (setOvf s).r = s.r := rfl
@[simp] theorem setOvf_p (s : State) : (setOvf s).p = s.p := rfl
@[simp] theorem setOvf_w (s : State) : (setOvf s).w = s.w := rfl
@[simp] theorem setOvf_next (s : State) : (setOvf s).next = s.next := rfl
@[simp] theorem setOvf_prev (s : State) : (setOvf s).prev = s.prev := rfl
@[simp] theorem setOvf_abortReq (s : State) : (setOvf s).abortReq = s.abortReq := rfl
@[simp] theorem setOvf_prior (s : State) : (setOvf s).prior = s.prior := rfl
@[simp] theorem setOvf_cur (s : State) : (setOvf s).cur = s.cur := rfl
@[simp] theorem setOvf_dict (s : State) : (setOvf s).dict = s.dict := rfl
@[simp] theorem setOvf_mem (s : State) : (setOvf s).mem = s.mem := rfl
@[simp] theorem setOvf_host (s : State) : (setOvf s).host = s.host := rfl
@[simp] theorem setOvf_returned (s : State) : (setOvf s).returned = s.returned := rfl
@[simp] theorem setOvf_seen (s : State) : (setOvf s).seen = s.seen := rfl
@[simp] theorem setOvf_free (s : State) : (setOvf s).free = s.free := rfl
@[simp] theorem setOvf_W (s : State) : (setOvf s).W = s.W := rfl
@[simp] theorem setOvf_H (s : State) : (setOvf s).H = s.H := rfl
@[simp] theorem setOvf_bd (s : State) : (setOvf s).bd = s.bd := rfl
@[simp] theorem setOvf_nc (s : State) : (setOvf s).nc = s.nc := rfl
@[simp] theorem setOvf_lzwMin (s : State) : (setOvf s).lzwMin = s.lzwMin := rfl
@[simp] theorem setOvf_vflip (s : State) : (setOvf s).vflip = s.vflip := rfl
@[simp] theorem setOvf_le (s : State) : (setOvf s).le = s.le := rfl
@[simp] theorem setOvf_align4 (s : State) : (setOvf s).align4 = s.align4 := rfl
@[simp] theorem setOvf_rb (s : State) : (setOvf s).rb = s.rb := rfl
@[simp] theorem setOvf_bppb (s : State) : (setOvf s).bppb = s.bppb := rfl
@[simp] theorem setOvf_stride (s : State) : (setOvf s).stride = s.stride := rfl
@[simp] theorem setOvf_rowSamples (s : State) : (setOvf s).rowSamples = s.rowSamples := rfl
@[simp] theorem setOvf_outSize (s : State) : (setOvf s).outSize = s.outSize := rfl

/-! ### stepPixel -/

@[simp] theorem stepPixel_params (s : State) : (stepPixel s).params = s.params := rfl
@[simp] theorem stepPixel_ctrlOp (s : State) : (stepPixel s).ctrlOp = s.ctrlOp := rfl
@[simp] theorem stepPixel_irqEn (s : State) : (stepPixel s).irqEn = s.irqEn := rfl
@[simp] theorem stepPixel_phase (s : State) : (stepPixel s).phase = s.phase := rfl
@[simp] theorem stepPixel_done (s : State) : (stepPixel s).done = s.done := rfl
@[simp] theorem stepPixel_fault (s : State) : (stepPixel s).fault = s.fault := rfl
@[simp] theorem stepPixel_ovf (s : State) : (stepPixel s).ovf = s.ovf := rfl
@[simp] theorem stepPixel_short (s : State) : (stepPixel s).short = s.short := rfl
@[simp] theorem stepPixel_fcode (s : State) : (stepPixel s).fcode = s.fcode := rfl
@[simp] theorem stepPixel_srcAddr (s : State) : (stepPixel s).srcAddr = s.srcAddr := rfl
@[simp] theorem stepPixel_srcLen (s : State) : (stepPixel s).srcLen = s.srcLen := rfl
@[simp] theorem stepPixel_dstAddr (s : State) : (stepPixel s).dstAddr = s.dstAddr := rfl
@[simp] theorem stepPixel_dstLen (s : State) : (stepPixel s).dstLen = s.dstLen := rfl
@[simp] theorem stepPixel_width (s : State) : (stepPixel s).width = s.width := rfl
@[simp] theorem stepPixel_height (s : State) : (stepPixel s).height = s.height := rfl
@[simp] theorem stepPixel_fmt (s : State) : (stepPixel s).fmt = s.fmt := rfl
@[simp] theorem stepPixel_faddr (s : State) : (stepPixel s).faddr = s.faddr := rfl
@[simp] theorem stepPixel_finfo (s : State) : (stepPixel s).finfo = s.finfo := rfl
@[simp] theorem stepPixel_op (s : State) : (stepPixel s).op = s.op := rfl
@[simp] theorem stepPixel_bp (s : State) : (stepPixel s).bp = s.bp := rfl
@[simp] theorem stepPixel_out (s : State) : (stepPixel s).out = s.out := rfl
@[simp] theorem stepPixel_x (s : State) : (stepPixel s).x = BitVec.ofNat 32 (min (s.x.toNat + 1) s.W) := rfl
@[simp] theorem stepPixel_y (s : State) : (stepPixel s).y = s.y := rfl
@[simp] theorem stepPixel_r (s : State) : (stepPixel s).r = s.r := rfl
@[simp] theorem stepPixel_p (s : State) : (stepPixel s).p = s.p := rfl
@[simp] theorem stepPixel_w (s : State) : (stepPixel s).w = s.w := rfl
@[simp] theorem stepPixel_next (s : State) : (stepPixel s).next = s.next := rfl
@[simp] theorem stepPixel_prev (s : State) : (stepPixel s).prev = s.prev := rfl
@[simp] theorem stepPixel_abortReq (s : State) : (stepPixel s).abortReq = s.abortReq := rfl
@[simp] theorem stepPixel_prior (s : State) : (stepPixel s).prior = s.prior := rfl
@[simp] theorem stepPixel_cur (s : State) : (stepPixel s).cur = s.cur := rfl
@[simp] theorem stepPixel_dict (s : State) : (stepPixel s).dict = s.dict := rfl
@[simp] theorem stepPixel_mem (s : State) : (stepPixel s).mem = s.mem := rfl
@[simp] theorem stepPixel_host (s : State) : (stepPixel s).host = s.host := rfl
@[simp] theorem stepPixel_returned (s : State) : (stepPixel s).returned = s.returned := rfl
@[simp] theorem stepPixel_seen (s : State) : (stepPixel s).seen = s.seen := rfl
@[simp] theorem stepPixel_free (s : State) : (stepPixel s).free = s.free := rfl
@[simp] theorem stepPixel_W (s : State) : (stepPixel s).W = s.W := rfl
@[simp] theorem stepPixel_H (s : State) : (stepPixel s).H = s.H := rfl
@[simp] theorem stepPixel_bd (s : State) : (stepPixel s).bd = s.bd := rfl
@[simp] theorem stepPixel_nc (s : State) : (stepPixel s).nc = s.nc := rfl
@[simp] theorem stepPixel_lzwMin (s : State) : (stepPixel s).lzwMin = s.lzwMin := rfl
@[simp] theorem stepPixel_vflip (s : State) : (stepPixel s).vflip = s.vflip := rfl
@[simp] theorem stepPixel_le (s : State) : (stepPixel s).le = s.le := rfl
@[simp] theorem stepPixel_align4 (s : State) : (stepPixel s).align4 = s.align4 := rfl
@[simp] theorem stepPixel_rb (s : State) : (stepPixel s).rb = s.rb := rfl
@[simp] theorem stepPixel_bppb (s : State) : (stepPixel s).bppb = s.bppb := rfl
@[simp] theorem stepPixel_stride (s : State) : (stepPixel s).stride = s.stride := rfl
@[simp] theorem stepPixel_rowSamples (s : State) : (stepPixel s).rowSamples = s.rowSamples := rfl
@[simp] theorem stepPixel_outSize (s : State) : (stepPixel s).outSize = s.outSize := rfl

/-! ### movePixel -/

@[simp] theorem movePixel_params (dx dy : Nat) (s : State) : (movePixel dx dy s).params = s.params := rfl
@[simp] theorem movePixel_ctrlOp (dx dy : Nat) (s : State) : (movePixel dx dy s).ctrlOp = s.ctrlOp := rfl
@[simp] theorem movePixel_irqEn (dx dy : Nat) (s : State) : (movePixel dx dy s).irqEn = s.irqEn := rfl
@[simp] theorem movePixel_phase (dx dy : Nat) (s : State) : (movePixel dx dy s).phase = s.phase := rfl
@[simp] theorem movePixel_done (dx dy : Nat) (s : State) : (movePixel dx dy s).done = s.done := rfl
@[simp] theorem movePixel_fault (dx dy : Nat) (s : State) : (movePixel dx dy s).fault = s.fault := rfl
@[simp] theorem movePixel_ovf (dx dy : Nat) (s : State) : (movePixel dx dy s).ovf = s.ovf := rfl
@[simp] theorem movePixel_short (dx dy : Nat) (s : State) : (movePixel dx dy s).short = s.short := rfl
@[simp] theorem movePixel_fcode (dx dy : Nat) (s : State) : (movePixel dx dy s).fcode = s.fcode := rfl
@[simp] theorem movePixel_srcAddr (dx dy : Nat) (s : State) : (movePixel dx dy s).srcAddr = s.srcAddr := rfl
@[simp] theorem movePixel_srcLen (dx dy : Nat) (s : State) : (movePixel dx dy s).srcLen = s.srcLen := rfl
@[simp] theorem movePixel_dstAddr (dx dy : Nat) (s : State) : (movePixel dx dy s).dstAddr = s.dstAddr := rfl
@[simp] theorem movePixel_dstLen (dx dy : Nat) (s : State) : (movePixel dx dy s).dstLen = s.dstLen := rfl
@[simp] theorem movePixel_width (dx dy : Nat) (s : State) : (movePixel dx dy s).width = s.width := rfl
@[simp] theorem movePixel_height (dx dy : Nat) (s : State) : (movePixel dx dy s).height = s.height := rfl
@[simp] theorem movePixel_fmt (dx dy : Nat) (s : State) : (movePixel dx dy s).fmt = s.fmt := rfl
@[simp] theorem movePixel_faddr (dx dy : Nat) (s : State) : (movePixel dx dy s).faddr = s.faddr := rfl
@[simp] theorem movePixel_finfo (dx dy : Nat) (s : State) : (movePixel dx dy s).finfo = s.finfo := rfl
@[simp] theorem movePixel_op (dx dy : Nat) (s : State) : (movePixel dx dy s).op = s.op := rfl
@[simp] theorem movePixel_bp (dx dy : Nat) (s : State) : (movePixel dx dy s).bp = s.bp := rfl
@[simp] theorem movePixel_out (dx dy : Nat) (s : State) : (movePixel dx dy s).out = s.out := rfl
@[simp] theorem movePixel_x (dx dy : Nat) (s : State) : (movePixel dx dy s).x = BitVec.ofNat 32 (min (s.x.toNat + dx) s.W) := rfl
@[simp] theorem movePixel_y (dx dy : Nat) (s : State) : (movePixel dx dy s).y = BitVec.ofNat 32 (min (s.y.toNat + dy) s.H) := rfl
@[simp] theorem movePixel_r (dx dy : Nat) (s : State) : (movePixel dx dy s).r = s.r := rfl
@[simp] theorem movePixel_p (dx dy : Nat) (s : State) : (movePixel dx dy s).p = s.p := rfl
@[simp] theorem movePixel_w (dx dy : Nat) (s : State) : (movePixel dx dy s).w = s.w := rfl
@[simp] theorem movePixel_next (dx dy : Nat) (s : State) : (movePixel dx dy s).next = s.next := rfl
@[simp] theorem movePixel_prev (dx dy : Nat) (s : State) : (movePixel dx dy s).prev = s.prev := rfl
@[simp] theorem movePixel_abortReq (dx dy : Nat) (s : State) : (movePixel dx dy s).abortReq = s.abortReq := rfl
@[simp] theorem movePixel_prior (dx dy : Nat) (s : State) : (movePixel dx dy s).prior = s.prior := rfl
@[simp] theorem movePixel_cur (dx dy : Nat) (s : State) : (movePixel dx dy s).cur = s.cur := rfl
@[simp] theorem movePixel_dict (dx dy : Nat) (s : State) : (movePixel dx dy s).dict = s.dict := rfl
@[simp] theorem movePixel_mem (dx dy : Nat) (s : State) : (movePixel dx dy s).mem = s.mem := rfl
@[simp] theorem movePixel_host (dx dy : Nat) (s : State) : (movePixel dx dy s).host = s.host := rfl
@[simp] theorem movePixel_returned (dx dy : Nat) (s : State) : (movePixel dx dy s).returned = s.returned := rfl
@[simp] theorem movePixel_seen (dx dy : Nat) (s : State) : (movePixel dx dy s).seen = s.seen := rfl
@[simp] theorem movePixel_free (dx dy : Nat) (s : State) : (movePixel dx dy s).free = s.free := rfl
@[simp] theorem movePixel_W (dx dy : Nat) (s : State) : (movePixel dx dy s).W = s.W := rfl
@[simp] theorem movePixel_H (dx dy : Nat) (s : State) : (movePixel dx dy s).H = s.H := rfl
@[simp] theorem movePixel_bd (dx dy : Nat) (s : State) : (movePixel dx dy s).bd = s.bd := rfl
@[simp] theorem movePixel_nc (dx dy : Nat) (s : State) : (movePixel dx dy s).nc = s.nc := rfl
@[simp] theorem movePixel_lzwMin (dx dy : Nat) (s : State) : (movePixel dx dy s).lzwMin = s.lzwMin := rfl
@[simp] theorem movePixel_vflip (dx dy : Nat) (s : State) : (movePixel dx dy s).vflip = s.vflip := rfl
@[simp] theorem movePixel_le (dx dy : Nat) (s : State) : (movePixel dx dy s).le = s.le := rfl
@[simp] theorem movePixel_align4 (dx dy : Nat) (s : State) : (movePixel dx dy s).align4 = s.align4 := rfl
@[simp] theorem movePixel_rb (dx dy : Nat) (s : State) : (movePixel dx dy s).rb = s.rb := rfl
@[simp] theorem movePixel_bppb (dx dy : Nat) (s : State) : (movePixel dx dy s).bppb = s.bppb := rfl
@[simp] theorem movePixel_stride (dx dy : Nat) (s : State) : (movePixel dx dy s).stride = s.stride := rfl
@[simp] theorem movePixel_rowSamples (dx dy : Nat) (s : State) : (movePixel dx dy s).rowSamples = s.rowSamples := rfl
@[simp] theorem movePixel_outSize (dx dy : Nat) (s : State) : (movePixel dx dy s).outSize = s.outSize := rfl

/-! ### newLine -/

@[simp] theorem newLine_params (s : State) : (newLine s).params = s.params := rfl
@[simp] theorem newLine_ctrlOp (s : State) : (newLine s).ctrlOp = s.ctrlOp := rfl
@[simp] theorem newLine_irqEn (s : State) : (newLine s).irqEn = s.irqEn := rfl
@[simp] theorem newLine_phase (s : State) : (newLine s).phase = s.phase := rfl
@[simp] theorem newLine_done (s : State) : (newLine s).done = s.done := rfl
@[simp] theorem newLine_fault (s : State) : (newLine s).fault = s.fault := rfl
@[simp] theorem newLine_ovf (s : State) : (newLine s).ovf = s.ovf := rfl
@[simp] theorem newLine_short (s : State) : (newLine s).short = s.short := rfl
@[simp] theorem newLine_fcode (s : State) : (newLine s).fcode = s.fcode := rfl
@[simp] theorem newLine_srcAddr (s : State) : (newLine s).srcAddr = s.srcAddr := rfl
@[simp] theorem newLine_srcLen (s : State) : (newLine s).srcLen = s.srcLen := rfl
@[simp] theorem newLine_dstAddr (s : State) : (newLine s).dstAddr = s.dstAddr := rfl
@[simp] theorem newLine_dstLen (s : State) : (newLine s).dstLen = s.dstLen := rfl
@[simp] theorem newLine_width (s : State) : (newLine s).width = s.width := rfl
@[simp] theorem newLine_height (s : State) : (newLine s).height = s.height := rfl
@[simp] theorem newLine_fmt (s : State) : (newLine s).fmt = s.fmt := rfl
@[simp] theorem newLine_faddr (s : State) : (newLine s).faddr = s.faddr := rfl
@[simp] theorem newLine_finfo (s : State) : (newLine s).finfo = s.finfo := rfl
@[simp] theorem newLine_op (s : State) : (newLine s).op = s.op := rfl
@[simp] theorem newLine_bp (s : State) : (newLine s).bp = s.bp := rfl
@[simp] theorem newLine_out (s : State) : (newLine s).out = s.out := rfl
@[simp] theorem newLine_x (s : State) : (newLine s).x = 0 := rfl
@[simp] theorem newLine_y (s : State) : (newLine s).y = BitVec.ofNat 32 (min (s.y.toNat + 1) s.H) := rfl
@[simp] theorem newLine_r (s : State) : (newLine s).r = s.r := rfl
@[simp] theorem newLine_p (s : State) : (newLine s).p = s.p := rfl
@[simp] theorem newLine_w (s : State) : (newLine s).w = s.w := rfl
@[simp] theorem newLine_next (s : State) : (newLine s).next = s.next := rfl
@[simp] theorem newLine_prev (s : State) : (newLine s).prev = s.prev := rfl
@[simp] theorem newLine_abortReq (s : State) : (newLine s).abortReq = s.abortReq := rfl
@[simp] theorem newLine_prior (s : State) : (newLine s).prior = s.prior := rfl
@[simp] theorem newLine_cur (s : State) : (newLine s).cur = s.cur := rfl
@[simp] theorem newLine_dict (s : State) : (newLine s).dict = s.dict := rfl
@[simp] theorem newLine_mem (s : State) : (newLine s).mem = s.mem := rfl
@[simp] theorem newLine_host (s : State) : (newLine s).host = s.host := rfl
@[simp] theorem newLine_returned (s : State) : (newLine s).returned = s.returned := rfl
@[simp] theorem newLine_seen (s : State) : (newLine s).seen = s.seen := rfl
@[simp] theorem newLine_free (s : State) : (newLine s).free = s.free := rfl
@[simp] theorem newLine_W (s : State) : (newLine s).W = s.W := rfl
@[simp] theorem newLine_H (s : State) : (newLine s).H = s.H := rfl
@[simp] theorem newLine_bd (s : State) : (newLine s).bd = s.bd := rfl
@[simp] theorem newLine_nc (s : State) : (newLine s).nc = s.nc := rfl
@[simp] theorem newLine_lzwMin (s : State) : (newLine s).lzwMin = s.lzwMin := rfl
@[simp] theorem newLine_vflip (s : State) : (newLine s).vflip = s.vflip := rfl
@[simp] theorem newLine_le (s : State) : (newLine s).le = s.le := rfl
@[simp] theorem newLine_align4 (s : State) : (newLine s).align4 = s.align4 := rfl
@[simp] theorem newLine_rb (s : State) : (newLine s).rb = s.rb := rfl
@[simp] theorem newLine_bppb (s : State) : (newLine s).bppb = s.bppb := rfl
@[simp] theorem newLine_stride (s : State) : (newLine s).stride = s.stride := rfl
@[simp] theorem newLine_rowSamples (s : State) : (newLine s).rowSamples = s.rowSamples := rfl
@[simp] theorem newLine_outSize (s : State) : (newLine s).outSize = s.outSize := rfl

/-! ### keepRow -/

@[simp] theorem keepRow_params (row : List Byte) (s : State) : (keepRow row s).params = s.params := rfl
@[simp] theorem keepRow_ctrlOp (row : List Byte) (s : State) : (keepRow row s).ctrlOp = s.ctrlOp := rfl
@[simp] theorem keepRow_irqEn (row : List Byte) (s : State) : (keepRow row s).irqEn = s.irqEn := rfl
@[simp] theorem keepRow_phase (row : List Byte) (s : State) : (keepRow row s).phase = s.phase := rfl
@[simp] theorem keepRow_done (row : List Byte) (s : State) : (keepRow row s).done = s.done := rfl
@[simp] theorem keepRow_fault (row : List Byte) (s : State) : (keepRow row s).fault = s.fault := rfl
@[simp] theorem keepRow_ovf (row : List Byte) (s : State) : (keepRow row s).ovf = s.ovf := rfl
@[simp] theorem keepRow_short (row : List Byte) (s : State) : (keepRow row s).short = s.short := rfl
@[simp] theorem keepRow_fcode (row : List Byte) (s : State) : (keepRow row s).fcode = s.fcode := rfl
@[simp] theorem keepRow_srcAddr (row : List Byte) (s : State) : (keepRow row s).srcAddr = s.srcAddr := rfl
@[simp] theorem keepRow_srcLen (row : List Byte) (s : State) : (keepRow row s).srcLen = s.srcLen := rfl
@[simp] theorem keepRow_dstAddr (row : List Byte) (s : State) : (keepRow row s).dstAddr = s.dstAddr := rfl
@[simp] theorem keepRow_dstLen (row : List Byte) (s : State) : (keepRow row s).dstLen = s.dstLen := rfl
@[simp] theorem keepRow_width (row : List Byte) (s : State) : (keepRow row s).width = s.width := rfl
@[simp] theorem keepRow_height (row : List Byte) (s : State) : (keepRow row s).height = s.height := rfl
@[simp] theorem keepRow_fmt (row : List Byte) (s : State) : (keepRow row s).fmt = s.fmt := rfl
@[simp] theorem keepRow_faddr (row : List Byte) (s : State) : (keepRow row s).faddr = s.faddr := rfl
@[simp] theorem keepRow_finfo (row : List Byte) (s : State) : (keepRow row s).finfo = s.finfo := rfl
@[simp] theorem keepRow_op (row : List Byte) (s : State) : (keepRow row s).op = s.op := rfl
@[simp] theorem keepRow_bp (row : List Byte) (s : State) : (keepRow row s).bp = s.bp := rfl
@[simp] theorem keepRow_out (row : List Byte) (s : State) : (keepRow row s).out = s.out := rfl
@[simp] theorem keepRow_x (row : List Byte) (s : State) : (keepRow row s).x = s.x := rfl
@[simp] theorem keepRow_y (row : List Byte) (s : State) : (keepRow row s).y = s.y := rfl
@[simp] theorem keepRow_r (row : List Byte) (s : State) : (keepRow row s).r = s.r := rfl
@[simp] theorem keepRow_p (row : List Byte) (s : State) : (keepRow row s).p = s.p := rfl
@[simp] theorem keepRow_w (row : List Byte) (s : State) : (keepRow row s).w = s.w := rfl
@[simp] theorem keepRow_next (row : List Byte) (s : State) : (keepRow row s).next = s.next := rfl
@[simp] theorem keepRow_prev (row : List Byte) (s : State) : (keepRow row s).prev = s.prev := rfl
@[simp] theorem keepRow_abortReq (row : List Byte) (s : State) : (keepRow row s).abortReq = s.abortReq := rfl
@[simp] theorem keepRow_prior (row : List Byte) (s : State) : (keepRow row s).prior = overlay row s.prior := rfl
@[simp] theorem keepRow_cur (row : List Byte) (s : State) : (keepRow row s).cur = overlay row s.cur := rfl
@[simp] theorem keepRow_dict (row : List Byte) (s : State) : (keepRow row s).dict = s.dict := rfl
@[simp] theorem keepRow_mem (row : List Byte) (s : State) : (keepRow row s).mem = s.mem := rfl
@[simp] theorem keepRow_host (row : List Byte) (s : State) : (keepRow row s).host = s.host := rfl
@[simp] theorem keepRow_returned (row : List Byte) (s : State) : (keepRow row s).returned = s.returned := rfl
@[simp] theorem keepRow_seen (row : List Byte) (s : State) : (keepRow row s).seen = s.seen := rfl
@[simp] theorem keepRow_free (row : List Byte) (s : State) : (keepRow row s).free = s.free := rfl
@[simp] theorem keepRow_W (row : List Byte) (s : State) : (keepRow row s).W = s.W := rfl
@[simp] theorem keepRow_H (row : List Byte) (s : State) : (keepRow row s).H = s.H := rfl
@[simp] theorem keepRow_bd (row : List Byte) (s : State) : (keepRow row s).bd = s.bd := rfl
@[simp] theorem keepRow_nc (row : List Byte) (s : State) : (keepRow row s).nc = s.nc := rfl
@[simp] theorem keepRow_lzwMin (row : List Byte) (s : State) : (keepRow row s).lzwMin = s.lzwMin := rfl
@[simp] theorem keepRow_vflip (row : List Byte) (s : State) : (keepRow row s).vflip = s.vflip := rfl
@[simp] theorem keepRow_le (row : List Byte) (s : State) : (keepRow row s).le = s.le := rfl
@[simp] theorem keepRow_align4 (row : List Byte) (s : State) : (keepRow row s).align4 = s.align4 := rfl
@[simp] theorem keepRow_rb (row : List Byte) (s : State) : (keepRow row s).rb = s.rb := rfl
@[simp] theorem keepRow_bppb (row : List Byte) (s : State) : (keepRow row s).bppb = s.bppb := rfl
@[simp] theorem keepRow_stride (row : List Byte) (s : State) : (keepRow row s).stride = s.stride := rfl
@[simp] theorem keepRow_rowSamples (row : List Byte) (s : State) : (keepRow row s).rowSamples = s.rowSamples := rfl
@[simp] theorem keepRow_outSize (row : List Byte) (s : State) : (keepRow row s).outSize = s.outSize := rfl

/-! ### enterPass -/

@[simp] theorem enterPass_params (q : Nat) (s : State) : (enterPass q s).params = s.params := rfl
@[simp] theorem enterPass_ctrlOp (q : Nat) (s : State) : (enterPass q s).ctrlOp = s.ctrlOp := rfl
@[simp] theorem enterPass_irqEn (q : Nat) (s : State) : (enterPass q s).irqEn = s.irqEn := rfl
@[simp] theorem enterPass_phase (q : Nat) (s : State) : (enterPass q s).phase = s.phase := rfl
@[simp] theorem enterPass_done (q : Nat) (s : State) : (enterPass q s).done = s.done := rfl
@[simp] theorem enterPass_fault (q : Nat) (s : State) : (enterPass q s).fault = s.fault := rfl
@[simp] theorem enterPass_ovf (q : Nat) (s : State) : (enterPass q s).ovf = s.ovf := rfl
@[simp] theorem enterPass_short (q : Nat) (s : State) : (enterPass q s).short = s.short := rfl
@[simp] theorem enterPass_fcode (q : Nat) (s : State) : (enterPass q s).fcode = s.fcode := rfl
@[simp] theorem enterPass_srcAddr (q : Nat) (s : State) : (enterPass q s).srcAddr = s.srcAddr := rfl
@[simp] theorem enterPass_srcLen (q : Nat) (s : State) : (enterPass q s).srcLen = s.srcLen := rfl
@[simp] theorem enterPass_dstAddr (q : Nat) (s : State) : (enterPass q s).dstAddr = s.dstAddr := rfl
@[simp] theorem enterPass_dstLen (q : Nat) (s : State) : (enterPass q s).dstLen = s.dstLen := rfl
@[simp] theorem enterPass_width (q : Nat) (s : State) : (enterPass q s).width = s.width := rfl
@[simp] theorem enterPass_height (q : Nat) (s : State) : (enterPass q s).height = s.height := rfl
@[simp] theorem enterPass_fmt (q : Nat) (s : State) : (enterPass q s).fmt = s.fmt := rfl
@[simp] theorem enterPass_faddr (q : Nat) (s : State) : (enterPass q s).faddr = s.faddr := rfl
@[simp] theorem enterPass_finfo (q : Nat) (s : State) : (enterPass q s).finfo = s.finfo := rfl
@[simp] theorem enterPass_op (q : Nat) (s : State) : (enterPass q s).op = s.op := rfl
@[simp] theorem enterPass_bp (q : Nat) (s : State) : (enterPass q s).bp = s.bp := rfl
@[simp] theorem enterPass_out (q : Nat) (s : State) : (enterPass q s).out = s.out := rfl
@[simp] theorem enterPass_x (q : Nat) (s : State) : (enterPass q s).x = s.x := rfl
@[simp] theorem enterPass_y (q : Nat) (s : State) : (enterPass q s).y = s.y := rfl
@[simp] theorem enterPass_r (q : Nat) (s : State) : (enterPass q s).r = 0 := rfl
@[simp] theorem enterPass_p (q : Nat) (s : State) : (enterPass q s).p = BitVec.ofNat 3 q := rfl
@[simp] theorem enterPass_w (q : Nat) (s : State) : (enterPass q s).w = s.w := rfl
@[simp] theorem enterPass_next (q : Nat) (s : State) : (enterPass q s).next = s.next := rfl
@[simp] theorem enterPass_prev (q : Nat) (s : State) : (enterPass q s).prev = s.prev := rfl
@[simp] theorem enterPass_abortReq (q : Nat) (s : State) : (enterPass q s).abortReq = s.abortReq := rfl
@[simp] theorem enterPass_prior (q : Nat) (s : State) : (enterPass q s).prior = overlay (List.replicate (s.passRowBytes q) 0) s.prior := rfl
@[simp] theorem enterPass_cur (q : Nat) (s : State) : (enterPass q s).cur = s.cur := rfl
@[simp] theorem enterPass_dict (q : Nat) (s : State) : (enterPass q s).dict = s.dict := rfl
@[simp] theorem enterPass_mem (q : Nat) (s : State) : (enterPass q s).mem = s.mem := rfl
@[simp] theorem enterPass_host (q : Nat) (s : State) : (enterPass q s).host = s.host := rfl
@[simp] theorem enterPass_returned (q : Nat) (s : State) : (enterPass q s).returned = s.returned := rfl
@[simp] theorem enterPass_seen (q : Nat) (s : State) : (enterPass q s).seen = s.seen := rfl
@[simp] theorem enterPass_free (q : Nat) (s : State) : (enterPass q s).free = s.free := rfl
@[simp] theorem enterPass_W (q : Nat) (s : State) : (enterPass q s).W = s.W := rfl
@[simp] theorem enterPass_H (q : Nat) (s : State) : (enterPass q s).H = s.H := rfl
@[simp] theorem enterPass_bd (q : Nat) (s : State) : (enterPass q s).bd = s.bd := rfl
@[simp] theorem enterPass_nc (q : Nat) (s : State) : (enterPass q s).nc = s.nc := rfl
@[simp] theorem enterPass_lzwMin (q : Nat) (s : State) : (enterPass q s).lzwMin = s.lzwMin := rfl
@[simp] theorem enterPass_vflip (q : Nat) (s : State) : (enterPass q s).vflip = s.vflip := rfl
@[simp] theorem enterPass_le (q : Nat) (s : State) : (enterPass q s).le = s.le := rfl
@[simp] theorem enterPass_align4 (q : Nat) (s : State) : (enterPass q s).align4 = s.align4 := rfl
@[simp] theorem enterPass_rb (q : Nat) (s : State) : (enterPass q s).rb = s.rb := rfl
@[simp] theorem enterPass_bppb (q : Nat) (s : State) : (enterPass q s).bppb = s.bppb := rfl
@[simp] theorem enterPass_stride (q : Nat) (s : State) : (enterPass q s).stride = s.stride := rfl
@[simp] theorem enterPass_rowSamples (q : Nat) (s : State) : (enterPass q s).rowSamples = s.rowSamples := rfl
@[simp] theorem enterPass_outSize (q : Nat) (s : State) : (enterPass q s).outSize = s.outSize := rfl

/-! ### lzwReset -/

@[simp] theorem lzwReset_params (m : Nat) (s : State) : (lzwReset m s).params = s.params := rfl
@[simp] theorem lzwReset_ctrlOp (m : Nat) (s : State) : (lzwReset m s).ctrlOp = s.ctrlOp := rfl
@[simp] theorem lzwReset_irqEn (m : Nat) (s : State) : (lzwReset m s).irqEn = s.irqEn := rfl
@[simp] theorem lzwReset_phase (m : Nat) (s : State) : (lzwReset m s).phase = s.phase := rfl
@[simp] theorem lzwReset_done (m : Nat) (s : State) : (lzwReset m s).done = s.done := rfl
@[simp] theorem lzwReset_fault (m : Nat) (s : State) : (lzwReset m s).fault = s.fault := rfl
@[simp] theorem lzwReset_ovf (m : Nat) (s : State) : (lzwReset m s).ovf = s.ovf := rfl
@[simp] theorem lzwReset_short (m : Nat) (s : State) : (lzwReset m s).short = s.short := rfl
@[simp] theorem lzwReset_fcode (m : Nat) (s : State) : (lzwReset m s).fcode = s.fcode := rfl
@[simp] theorem lzwReset_srcAddr (m : Nat) (s : State) : (lzwReset m s).srcAddr = s.srcAddr := rfl
@[simp] theorem lzwReset_srcLen (m : Nat) (s : State) : (lzwReset m s).srcLen = s.srcLen := rfl
@[simp] theorem lzwReset_dstAddr (m : Nat) (s : State) : (lzwReset m s).dstAddr = s.dstAddr := rfl
@[simp] theorem lzwReset_dstLen (m : Nat) (s : State) : (lzwReset m s).dstLen = s.dstLen := rfl
@[simp] theorem lzwReset_width (m : Nat) (s : State) : (lzwReset m s).width = s.width := rfl
@[simp] theorem lzwReset_height (m : Nat) (s : State) : (lzwReset m s).height = s.height := rfl
@[simp] theorem lzwReset_fmt (m : Nat) (s : State) : (lzwReset m s).fmt = s.fmt := rfl
@[simp] theorem lzwReset_faddr (m : Nat) (s : State) : (lzwReset m s).faddr = s.faddr := rfl
@[simp] theorem lzwReset_finfo (m : Nat) (s : State) : (lzwReset m s).finfo = s.finfo := rfl
@[simp] theorem lzwReset_op (m : Nat) (s : State) : (lzwReset m s).op = s.op := rfl
@[simp] theorem lzwReset_bp (m : Nat) (s : State) : (lzwReset m s).bp = s.bp := rfl
@[simp] theorem lzwReset_out (m : Nat) (s : State) : (lzwReset m s).out = s.out := rfl
@[simp] theorem lzwReset_x (m : Nat) (s : State) : (lzwReset m s).x = s.x := rfl
@[simp] theorem lzwReset_y (m : Nat) (s : State) : (lzwReset m s).y = s.y := rfl
@[simp] theorem lzwReset_r (m : Nat) (s : State) : (lzwReset m s).r = s.r := rfl
@[simp] theorem lzwReset_p (m : Nat) (s : State) : (lzwReset m s).p = s.p := rfl
@[simp] theorem lzwReset_w (m : Nat) (s : State) : (lzwReset m s).w = BitVec.ofNat 4 (m + 1) := rfl
@[simp] theorem lzwReset_next (m : Nat) (s : State) : (lzwReset m s).next = BitVec.ofNat 13 (2 ^ m + 2) := rfl
@[simp] theorem lzwReset_prev (m : Nat) (s : State) : (lzwReset m s).prev = none := rfl
@[simp] theorem lzwReset_abortReq (m : Nat) (s : State) : (lzwReset m s).abortReq = s.abortReq := rfl
@[simp] theorem lzwReset_prior (m : Nat) (s : State) : (lzwReset m s).prior = s.prior := rfl
@[simp] theorem lzwReset_cur (m : Nat) (s : State) : (lzwReset m s).cur = s.cur := rfl
@[simp] theorem lzwReset_dict (m : Nat) (s : State) : (lzwReset m s).dict = s.dict := rfl
@[simp] theorem lzwReset_mem (m : Nat) (s : State) : (lzwReset m s).mem = s.mem := rfl
@[simp] theorem lzwReset_host (m : Nat) (s : State) : (lzwReset m s).host = s.host := rfl
@[simp] theorem lzwReset_returned (m : Nat) (s : State) : (lzwReset m s).returned = s.returned := rfl
@[simp] theorem lzwReset_seen (m : Nat) (s : State) : (lzwReset m s).seen = s.seen := rfl
@[simp] theorem lzwReset_free (m : Nat) (s : State) : (lzwReset m s).free = s.free := rfl
@[simp] theorem lzwReset_W (m : Nat) (s : State) : (lzwReset m s).W = s.W := rfl
@[simp] theorem lzwReset_H (m : Nat) (s : State) : (lzwReset m s).H = s.H := rfl
@[simp] theorem lzwReset_bd (m : Nat) (s : State) : (lzwReset m s).bd = s.bd := rfl
@[simp] theorem lzwReset_nc (m : Nat) (s : State) : (lzwReset m s).nc = s.nc := rfl
@[simp] theorem lzwReset_lzwMin (m : Nat) (s : State) : (lzwReset m s).lzwMin = s.lzwMin := rfl
@[simp] theorem lzwReset_vflip (m : Nat) (s : State) : (lzwReset m s).vflip = s.vflip := rfl
@[simp] theorem lzwReset_le (m : Nat) (s : State) : (lzwReset m s).le = s.le := rfl
@[simp] theorem lzwReset_align4 (m : Nat) (s : State) : (lzwReset m s).align4 = s.align4 := rfl
@[simp] theorem lzwReset_rb (m : Nat) (s : State) : (lzwReset m s).rb = s.rb := rfl
@[simp] theorem lzwReset_bppb (m : Nat) (s : State) : (lzwReset m s).bppb = s.bppb := rfl
@[simp] theorem lzwReset_stride (m : Nat) (s : State) : (lzwReset m s).stride = s.stride := rfl
@[simp] theorem lzwReset_rowSamples (m : Nat) (s : State) : (lzwReset m s).rowSamples = s.rowSamples := rfl
@[simp] theorem lzwReset_outSize (m : Nat) (s : State) : (lzwReset m s).outSize = s.outSize := rfl

/-! ### complete -/

@[simp] theorem complete_params (s : State) : (complete s).params = s.params := rfl
@[simp] theorem complete_ctrlOp (s : State) : (complete s).ctrlOp = s.ctrlOp := rfl
@[simp] theorem complete_irqEn (s : State) : (complete s).irqEn = s.irqEn := rfl
@[simp] theorem complete_phase (s : State) : (complete s).phase = .idle := rfl
@[simp] theorem complete_done (s : State) : (complete s).done = true := rfl
@[simp] theorem complete_fault (s : State) : (complete s).fault = s.fault := rfl
@[simp] theorem complete_ovf (s : State) : (complete s).ovf = s.ovf := rfl
@[simp] theorem complete_short (s : State) : (complete s).short = s.short := rfl
@[simp] theorem complete_fcode (s : State) : (complete s).fcode = s.fcode := rfl
@[simp] theorem complete_srcAddr (s : State) : (complete s).srcAddr = s.srcAddr := rfl
@[simp] theorem complete_srcLen (s : State) : (complete s).srcLen = s.srcLen := rfl
@[simp] theorem complete_dstAddr (s : State) : (complete s).dstAddr = s.dstAddr := rfl
@[simp] theorem complete_dstLen (s : State) : (complete s).dstLen = s.dstLen := rfl
@[simp] theorem complete_width (s : State) : (complete s).width = s.width := rfl
@[simp] theorem complete_height (s : State) : (complete s).height = s.height := rfl
@[simp] theorem complete_fmt (s : State) : (complete s).fmt = s.fmt := rfl
@[simp] theorem complete_faddr (s : State) : (complete s).faddr = s.faddr := rfl
@[simp] theorem complete_finfo (s : State) : (complete s).finfo = s.finfo := rfl
@[simp] theorem complete_op (s : State) : (complete s).op = s.op := rfl
@[simp] theorem complete_bp (s : State) : (complete s).bp = s.bp := rfl
@[simp] theorem complete_out (s : State) : (complete s).out = s.out := rfl
@[simp] theorem complete_x (s : State) : (complete s).x = s.x := rfl
@[simp] theorem complete_y (s : State) : (complete s).y = s.y := rfl
@[simp] theorem complete_r (s : State) : (complete s).r = s.r := rfl
@[simp] theorem complete_p (s : State) : (complete s).p = s.p := rfl
@[simp] theorem complete_w (s : State) : (complete s).w = s.w := rfl
@[simp] theorem complete_next (s : State) : (complete s).next = s.next := rfl
@[simp] theorem complete_prev (s : State) : (complete s).prev = s.prev := rfl
@[simp] theorem complete_abortReq (s : State) : (complete s).abortReq = s.abortReq := rfl
@[simp] theorem complete_prior (s : State) : (complete s).prior = s.prior := rfl
@[simp] theorem complete_cur (s : State) : (complete s).cur = s.cur := rfl
@[simp] theorem complete_dict (s : State) : (complete s).dict = s.dict := rfl
@[simp] theorem complete_mem (s : State) : (complete s).mem = s.mem := rfl
@[simp] theorem complete_host (s : State) : (complete s).host = s.host := rfl
@[simp] theorem complete_returned (s : State) : (complete s).returned = s.returned := rfl
@[simp] theorem complete_seen (s : State) : (complete s).seen = [] := rfl
@[simp] theorem complete_free (s : State) : (complete s).free = s.free := rfl
@[simp] theorem complete_W (s : State) : (complete s).W = s.W := rfl
@[simp] theorem complete_H (s : State) : (complete s).H = s.H := rfl
@[simp] theorem complete_bd (s : State) : (complete s).bd = s.bd := rfl
@[simp] theorem complete_nc (s : State) : (complete s).nc = s.nc := rfl
@[simp] theorem complete_lzwMin (s : State) : (complete s).lzwMin = s.lzwMin := rfl
@[simp] theorem complete_vflip (s : State) : (complete s).vflip = s.vflip := rfl
@[simp] theorem complete_le (s : State) : (complete s).le = s.le := rfl
@[simp] theorem complete_align4 (s : State) : (complete s).align4 = s.align4 := rfl
@[simp] theorem complete_rb (s : State) : (complete s).rb = s.rb := rfl
@[simp] theorem complete_bppb (s : State) : (complete s).bppb = s.bppb := rfl
@[simp] theorem complete_stride (s : State) : (complete s).stride = s.stride := rfl
@[simp] theorem complete_rowSamples (s : State) : (complete s).rowSamples = s.rowSamples := rfl
@[simp] theorem complete_outSize (s : State) : (complete s).outSize = s.outSize := rfl

/-! ### continueRun -/

@[simp] theorem continueRun_params (s : State) : (continueRun s).params = s.params := rfl
@[simp] theorem continueRun_ctrlOp (s : State) : (continueRun s).ctrlOp = s.ctrlOp := rfl
@[simp] theorem continueRun_irqEn (s : State) : (continueRun s).irqEn = s.irqEn := rfl
@[simp] theorem continueRun_phase (s : State) : (continueRun s).phase = s.phase := rfl
@[simp] theorem continueRun_done (s : State) : (continueRun s).done = s.done := rfl
@[simp] theorem continueRun_fault (s : State) : (continueRun s).fault = s.fault := rfl
@[simp] theorem continueRun_ovf (s : State) : (continueRun s).ovf = s.ovf := rfl
@[simp] theorem continueRun_short (s : State) : (continueRun s).short = s.short := rfl
@[simp] theorem continueRun_fcode (s : State) : (continueRun s).fcode = s.fcode := rfl
@[simp] theorem continueRun_srcAddr (s : State) : (continueRun s).srcAddr = s.srcAddr := rfl
@[simp] theorem continueRun_srcLen (s : State) : (continueRun s).srcLen = s.srcLen := rfl
@[simp] theorem continueRun_dstAddr (s : State) : (continueRun s).dstAddr = s.dstAddr := rfl
@[simp] theorem continueRun_dstLen (s : State) : (continueRun s).dstLen = s.dstLen := rfl
@[simp] theorem continueRun_width (s : State) : (continueRun s).width = s.width := rfl
@[simp] theorem continueRun_height (s : State) : (continueRun s).height = s.height := rfl
@[simp] theorem continueRun_fmt (s : State) : (continueRun s).fmt = s.fmt := rfl
@[simp] theorem continueRun_faddr (s : State) : (continueRun s).faddr = s.faddr := rfl
@[simp] theorem continueRun_finfo (s : State) : (continueRun s).finfo = s.finfo := rfl
@[simp] theorem continueRun_op (s : State) : (continueRun s).op = s.op := rfl
@[simp] theorem continueRun_bp (s : State) : (continueRun s).bp = s.bp := rfl
@[simp] theorem continueRun_out (s : State) : (continueRun s).out = s.out := rfl
@[simp] theorem continueRun_x (s : State) : (continueRun s).x = s.x := rfl
@[simp] theorem continueRun_y (s : State) : (continueRun s).y = s.y := rfl
@[simp] theorem continueRun_r (s : State) : (continueRun s).r = s.r := rfl
@[simp] theorem continueRun_p (s : State) : (continueRun s).p = s.p := rfl
@[simp] theorem continueRun_w (s : State) : (continueRun s).w = s.w := rfl
@[simp] theorem continueRun_next (s : State) : (continueRun s).next = s.next := rfl
@[simp] theorem continueRun_prev (s : State) : (continueRun s).prev = s.prev := rfl
@[simp] theorem continueRun_abortReq (s : State) : (continueRun s).abortReq = s.abortReq := rfl
@[simp] theorem continueRun_prior (s : State) : (continueRun s).prior = s.prior := rfl
@[simp] theorem continueRun_cur (s : State) : (continueRun s).cur = s.cur := rfl
@[simp] theorem continueRun_dict (s : State) : (continueRun s).dict = s.dict := rfl
@[simp] theorem continueRun_mem (s : State) : (continueRun s).mem = s.mem := rfl
@[simp] theorem continueRun_host (s : State) : (continueRun s).host = s.host := rfl
@[simp] theorem continueRun_returned (s : State) : (continueRun s).returned = s.returned := rfl
@[simp] theorem continueRun_seen (s : State) : (continueRun s).seen = boundaryOf s :: s.seen := rfl
@[simp] theorem continueRun_free (s : State) : (continueRun s).free = s.free := rfl
@[simp] theorem continueRun_W (s : State) : (continueRun s).W = s.W := rfl
@[simp] theorem continueRun_H (s : State) : (continueRun s).H = s.H := rfl
@[simp] theorem continueRun_bd (s : State) : (continueRun s).bd = s.bd := rfl
@[simp] theorem continueRun_nc (s : State) : (continueRun s).nc = s.nc := rfl
@[simp] theorem continueRun_lzwMin (s : State) : (continueRun s).lzwMin = s.lzwMin := rfl
@[simp] theorem continueRun_vflip (s : State) : (continueRun s).vflip = s.vflip := rfl
@[simp] theorem continueRun_le (s : State) : (continueRun s).le = s.le := rfl
@[simp] theorem continueRun_align4 (s : State) : (continueRun s).align4 = s.align4 := rfl
@[simp] theorem continueRun_rb (s : State) : (continueRun s).rb = s.rb := rfl
@[simp] theorem continueRun_bppb (s : State) : (continueRun s).bppb = s.bppb := rfl
@[simp] theorem continueRun_stride (s : State) : (continueRun s).stride = s.stride := rfl
@[simp] theorem continueRun_rowSamples (s : State) : (continueRun s).rowSamples = s.rowSamples := rfl
@[simp] theorem continueRun_outSize (s : State) : (continueRun s).outSize = s.outSize := rfl

/-! ### enterFault -/

@[simp] theorem enterFault_params (code : FaultCode) (info addr : Word) (s : State) : (enterFault code info addr s).params = s.params := rfl
@[simp] theorem enterFault_ctrlOp (code : FaultCode) (info addr : Word) (s : State) : (enterFault code info addr s).ctrlOp = s.ctrlOp := rfl
@[simp] theorem enterFault_irqEn (code : FaultCode) (info addr : Word) (s : State) : (enterFault code info addr s).irqEn = s.irqEn := rfl
@[simp] theorem enterFault_phase (code : FaultCode) (info addr : Word) (s : State) : (enterFault code info addr s).phase = .idle := rfl
@[simp] theorem enterFault_done (code : FaultCode) (info addr : Word) (s : State) : (enterFault code info addr s).done = false := rfl
@[simp] theorem enterFault_fault (code : FaultCode) (info addr : Word) (s : State) : (enterFault code info addr s).fault = true := rfl
@[simp] theorem enterFault_ovf (code : FaultCode) (info addr : Word) (s : State) : (enterFault code info addr s).ovf = s.ovf := rfl
@[simp] theorem enterFault_short (code : FaultCode) (info addr : Word) (s : State) : (enterFault code info addr s).short = s.short := rfl
@[simp] theorem enterFault_fcode (code : FaultCode) (info addr : Word) (s : State) : (enterFault code info addr s).fcode = faultValue code := rfl
@[simp] theorem enterFault_srcAddr (code : FaultCode) (info addr : Word) (s : State) : (enterFault code info addr s).srcAddr = s.srcAddr := rfl
@[simp] theorem enterFault_srcLen (code : FaultCode) (info addr : Word) (s : State) : (enterFault code info addr s).srcLen = s.srcLen := rfl
@[simp] theorem enterFault_dstAddr (code : FaultCode) (info addr : Word) (s : State) : (enterFault code info addr s).dstAddr = s.dstAddr := rfl
@[simp] theorem enterFault_dstLen (code : FaultCode) (info addr : Word) (s : State) : (enterFault code info addr s).dstLen = s.dstLen := rfl
@[simp] theorem enterFault_width (code : FaultCode) (info addr : Word) (s : State) : (enterFault code info addr s).width = s.width := rfl
@[simp] theorem enterFault_height (code : FaultCode) (info addr : Word) (s : State) : (enterFault code info addr s).height = s.height := rfl
@[simp] theorem enterFault_fmt (code : FaultCode) (info addr : Word) (s : State) : (enterFault code info addr s).fmt = s.fmt := rfl
@[simp] theorem enterFault_faddr (code : FaultCode) (info addr : Word) (s : State) : (enterFault code info addr s).faddr = addr := rfl
@[simp] theorem enterFault_finfo (code : FaultCode) (info addr : Word) (s : State) : (enterFault code info addr s).finfo = info := rfl
@[simp] theorem enterFault_op (code : FaultCode) (info addr : Word) (s : State) : (enterFault code info addr s).op = s.op := rfl
@[simp] theorem enterFault_bp (code : FaultCode) (info addr : Word) (s : State) : (enterFault code info addr s).bp = s.bp := rfl
@[simp] theorem enterFault_out (code : FaultCode) (info addr : Word) (s : State) : (enterFault code info addr s).out = s.out := rfl
@[simp] theorem enterFault_x (code : FaultCode) (info addr : Word) (s : State) : (enterFault code info addr s).x = s.x := rfl
@[simp] theorem enterFault_y (code : FaultCode) (info addr : Word) (s : State) : (enterFault code info addr s).y = s.y := rfl
@[simp] theorem enterFault_r (code : FaultCode) (info addr : Word) (s : State) : (enterFault code info addr s).r = s.r := rfl
@[simp] theorem enterFault_p (code : FaultCode) (info addr : Word) (s : State) : (enterFault code info addr s).p = s.p := rfl
@[simp] theorem enterFault_w (code : FaultCode) (info addr : Word) (s : State) : (enterFault code info addr s).w = s.w := rfl
@[simp] theorem enterFault_next (code : FaultCode) (info addr : Word) (s : State) : (enterFault code info addr s).next = s.next := rfl
@[simp] theorem enterFault_prev (code : FaultCode) (info addr : Word) (s : State) : (enterFault code info addr s).prev = s.prev := rfl
@[simp] theorem enterFault_abortReq (code : FaultCode) (info addr : Word) (s : State) : (enterFault code info addr s).abortReq = s.abortReq := rfl
@[simp] theorem enterFault_prior (code : FaultCode) (info addr : Word) (s : State) : (enterFault code info addr s).prior = s.prior := rfl
@[simp] theorem enterFault_cur (code : FaultCode) (info addr : Word) (s : State) : (enterFault code info addr s).cur = s.cur := rfl
@[simp] theorem enterFault_dict (code : FaultCode) (info addr : Word) (s : State) : (enterFault code info addr s).dict = s.dict := rfl
@[simp] theorem enterFault_mem (code : FaultCode) (info addr : Word) (s : State) : (enterFault code info addr s).mem = s.mem := rfl
@[simp] theorem enterFault_host (code : FaultCode) (info addr : Word) (s : State) : (enterFault code info addr s).host = s.host := rfl
@[simp] theorem enterFault_returned (code : FaultCode) (info addr : Word) (s : State) : (enterFault code info addr s).returned = s.returned := rfl
@[simp] theorem enterFault_seen (code : FaultCode) (info addr : Word) (s : State) : (enterFault code info addr s).seen = [] := rfl
@[simp] theorem enterFault_free (code : FaultCode) (info addr : Word) (s : State) : (enterFault code info addr s).free = s.free := rfl
@[simp] theorem enterFault_W (code : FaultCode) (info addr : Word) (s : State) : (enterFault code info addr s).W = s.W := rfl
@[simp] theorem enterFault_H (code : FaultCode) (info addr : Word) (s : State) : (enterFault code info addr s).H = s.H := rfl
@[simp] theorem enterFault_bd (code : FaultCode) (info addr : Word) (s : State) : (enterFault code info addr s).bd = s.bd := rfl
@[simp] theorem enterFault_nc (code : FaultCode) (info addr : Word) (s : State) : (enterFault code info addr s).nc = s.nc := rfl
@[simp] theorem enterFault_lzwMin (code : FaultCode) (info addr : Word) (s : State) : (enterFault code info addr s).lzwMin = s.lzwMin := rfl
@[simp] theorem enterFault_vflip (code : FaultCode) (info addr : Word) (s : State) : (enterFault code info addr s).vflip = s.vflip := rfl
@[simp] theorem enterFault_le (code : FaultCode) (info addr : Word) (s : State) : (enterFault code info addr s).le = s.le := rfl
@[simp] theorem enterFault_align4 (code : FaultCode) (info addr : Word) (s : State) : (enterFault code info addr s).align4 = s.align4 := rfl
@[simp] theorem enterFault_rb (code : FaultCode) (info addr : Word) (s : State) : (enterFault code info addr s).rb = s.rb := rfl
@[simp] theorem enterFault_bppb (code : FaultCode) (info addr : Word) (s : State) : (enterFault code info addr s).bppb = s.bppb := rfl
@[simp] theorem enterFault_stride (code : FaultCode) (info addr : Word) (s : State) : (enterFault code info addr s).stride = s.stride := rfl
@[simp] theorem enterFault_rowSamples (code : FaultCode) (info addr : Word) (s : State) : (enterFault code info addr s).rowSamples = s.rowSamples := rfl
@[simp] theorem enterFault_outSize (code : FaultCode) (info addr : Word) (s : State) : (enterFault code info addr s).outSize = s.outSize := rfl

/-! ### scrambleOutput -/

@[simp] theorem scrambleOutput_params (s : State) : (scrambleOutput s).params = s.params := rfl
@[simp] theorem scrambleOutput_ctrlOp (s : State) : (scrambleOutput s).ctrlOp = s.ctrlOp := rfl
@[simp] theorem scrambleOutput_irqEn (s : State) : (scrambleOutput s).irqEn = s.irqEn := rfl
@[simp] theorem scrambleOutput_phase (s : State) : (scrambleOutput s).phase = s.phase := rfl
@[simp] theorem scrambleOutput_done (s : State) : (scrambleOutput s).done = s.done := rfl
@[simp] theorem scrambleOutput_fault (s : State) : (scrambleOutput s).fault = s.fault := rfl
@[simp] theorem scrambleOutput_ovf (s : State) : (scrambleOutput s).ovf = s.ovf := rfl
@[simp] theorem scrambleOutput_short (s : State) : (scrambleOutput s).short = s.short := rfl
@[simp] theorem scrambleOutput_fcode (s : State) : (scrambleOutput s).fcode = s.fcode := rfl
@[simp] theorem scrambleOutput_srcAddr (s : State) : (scrambleOutput s).srcAddr = s.srcAddr := rfl
@[simp] theorem scrambleOutput_srcLen (s : State) : (scrambleOutput s).srcLen = s.srcLen := rfl
@[simp] theorem scrambleOutput_dstAddr (s : State) : (scrambleOutput s).dstAddr = s.dstAddr := rfl
@[simp] theorem scrambleOutput_dstLen (s : State) : (scrambleOutput s).dstLen = s.dstLen := rfl
@[simp] theorem scrambleOutput_width (s : State) : (scrambleOutput s).width = s.width := rfl
@[simp] theorem scrambleOutput_height (s : State) : (scrambleOutput s).height = s.height := rfl
@[simp] theorem scrambleOutput_fmt (s : State) : (scrambleOutput s).fmt = s.fmt := rfl
@[simp] theorem scrambleOutput_faddr (s : State) : (scrambleOutput s).faddr = s.faddr := rfl
@[simp] theorem scrambleOutput_finfo (s : State) : (scrambleOutput s).finfo = s.finfo := rfl
@[simp] theorem scrambleOutput_op (s : State) : (scrambleOutput s).op = s.op := rfl
@[simp] theorem scrambleOutput_bp (s : State) : (scrambleOutput s).bp = s.bp := rfl
@[simp] theorem scrambleOutput_out (s : State) : (scrambleOutput s).out = s.out := rfl
@[simp] theorem scrambleOutput_x (s : State) : (scrambleOutput s).x = s.x := rfl
@[simp] theorem scrambleOutput_y (s : State) : (scrambleOutput s).y = s.y := rfl
@[simp] theorem scrambleOutput_r (s : State) : (scrambleOutput s).r = s.r := rfl
@[simp] theorem scrambleOutput_p (s : State) : (scrambleOutput s).p = s.p := rfl
@[simp] theorem scrambleOutput_w (s : State) : (scrambleOutput s).w = s.w := rfl
@[simp] theorem scrambleOutput_next (s : State) : (scrambleOutput s).next = s.next := rfl
@[simp] theorem scrambleOutput_prev (s : State) : (scrambleOutput s).prev = s.prev := rfl
@[simp] theorem scrambleOutput_abortReq (s : State) : (scrambleOutput s).abortReq = s.abortReq := rfl
@[simp] theorem scrambleOutput_prior (s : State) : (scrambleOutput s).prior = s.prior := rfl
@[simp] theorem scrambleOutput_cur (s : State) : (scrambleOutput s).cur = s.cur := rfl
@[simp] theorem scrambleOutput_dict (s : State) : (scrambleOutput s).dict = s.dict := rfl
@[simp] theorem scrambleOutput_mem (s : State) : (scrambleOutput s).mem = s.mem.havoc s.free s.dstAddr.toNat (min s.outSize (s.params.memSize - s.dstAddr.toNat)) := rfl
@[simp] theorem scrambleOutput_host (s : State) : (scrambleOutput s).host = s.host := rfl
@[simp] theorem scrambleOutput_returned (s : State) : (scrambleOutput s).returned = s.returned := rfl
@[simp] theorem scrambleOutput_seen (s : State) : (scrambleOutput s).seen = s.seen := rfl
@[simp] theorem scrambleOutput_free (s : State) : (scrambleOutput s).free = s.free + 1 := rfl
@[simp] theorem scrambleOutput_W (s : State) : (scrambleOutput s).W = s.W := rfl
@[simp] theorem scrambleOutput_H (s : State) : (scrambleOutput s).H = s.H := rfl
@[simp] theorem scrambleOutput_bd (s : State) : (scrambleOutput s).bd = s.bd := rfl
@[simp] theorem scrambleOutput_nc (s : State) : (scrambleOutput s).nc = s.nc := rfl
@[simp] theorem scrambleOutput_lzwMin (s : State) : (scrambleOutput s).lzwMin = s.lzwMin := rfl
@[simp] theorem scrambleOutput_vflip (s : State) : (scrambleOutput s).vflip = s.vflip := rfl
@[simp] theorem scrambleOutput_le (s : State) : (scrambleOutput s).le = s.le := rfl
@[simp] theorem scrambleOutput_align4 (s : State) : (scrambleOutput s).align4 = s.align4 := rfl
@[simp] theorem scrambleOutput_rb (s : State) : (scrambleOutput s).rb = s.rb := rfl
@[simp] theorem scrambleOutput_bppb (s : State) : (scrambleOutput s).bppb = s.bppb := rfl
@[simp] theorem scrambleOutput_stride (s : State) : (scrambleOutput s).stride = s.stride := rfl
@[simp] theorem scrambleOutput_rowSamples (s : State) : (scrambleOutput s).rowSamples = s.rowSamples := rfl
@[simp] theorem scrambleOutput_outSize (s : State) : (scrambleOutput s).outSize = s.outSize := rfl

/-! ### acknowledge -/

@[simp] theorem acknowledge_params (d f : Bool) (s : State) : (acknowledge d f s).params = s.params := rfl
@[simp] theorem acknowledge_ctrlOp (d f : Bool) (s : State) : (acknowledge d f s).ctrlOp = s.ctrlOp := rfl
@[simp] theorem acknowledge_irqEn (d f : Bool) (s : State) : (acknowledge d f s).irqEn = s.irqEn := rfl
@[simp] theorem acknowledge_phase (d f : Bool) (s : State) : (acknowledge d f s).phase = s.phase := rfl
@[simp] theorem acknowledge_done (d f : Bool) (s : State) : (acknowledge d f s).done = (s.done && !d) := rfl
@[simp] theorem acknowledge_fault (d f : Bool) (s : State) : (acknowledge d f s).fault = (s.fault && !f) := rfl
@[simp] theorem acknowledge_ovf (d f : Bool) (s : State) : (acknowledge d f s).ovf = s.ovf := rfl
@[simp] theorem acknowledge_short (d f : Bool) (s : State) : (acknowledge d f s).short = s.short := rfl
@[simp] theorem acknowledge_fcode (d f : Bool) (s : State) : (acknowledge d f s).fcode = s.fcode := rfl
@[simp] theorem acknowledge_srcAddr (d f : Bool) (s : State) : (acknowledge d f s).srcAddr = s.srcAddr := rfl
@[simp] theorem acknowledge_srcLen (d f : Bool) (s : State) : (acknowledge d f s).srcLen = s.srcLen := rfl
@[simp] theorem acknowledge_dstAddr (d f : Bool) (s : State) : (acknowledge d f s).dstAddr = s.dstAddr := rfl
@[simp] theorem acknowledge_dstLen (d f : Bool) (s : State) : (acknowledge d f s).dstLen = s.dstLen := rfl
@[simp] theorem acknowledge_width (d f : Bool) (s : State) : (acknowledge d f s).width = s.width := rfl
@[simp] theorem acknowledge_height (d f : Bool) (s : State) : (acknowledge d f s).height = s.height := rfl
@[simp] theorem acknowledge_fmt (d f : Bool) (s : State) : (acknowledge d f s).fmt = s.fmt := rfl
@[simp] theorem acknowledge_faddr (d f : Bool) (s : State) : (acknowledge d f s).faddr = s.faddr := rfl
@[simp] theorem acknowledge_finfo (d f : Bool) (s : State) : (acknowledge d f s).finfo = s.finfo := rfl
@[simp] theorem acknowledge_op (d f : Bool) (s : State) : (acknowledge d f s).op = s.op := rfl
@[simp] theorem acknowledge_bp (d f : Bool) (s : State) : (acknowledge d f s).bp = s.bp := rfl
@[simp] theorem acknowledge_out (d f : Bool) (s : State) : (acknowledge d f s).out = s.out := rfl
@[simp] theorem acknowledge_x (d f : Bool) (s : State) : (acknowledge d f s).x = s.x := rfl
@[simp] theorem acknowledge_y (d f : Bool) (s : State) : (acknowledge d f s).y = s.y := rfl
@[simp] theorem acknowledge_r (d f : Bool) (s : State) : (acknowledge d f s).r = s.r := rfl
@[simp] theorem acknowledge_p (d f : Bool) (s : State) : (acknowledge d f s).p = s.p := rfl
@[simp] theorem acknowledge_w (d f : Bool) (s : State) : (acknowledge d f s).w = s.w := rfl
@[simp] theorem acknowledge_next (d f : Bool) (s : State) : (acknowledge d f s).next = s.next := rfl
@[simp] theorem acknowledge_prev (d f : Bool) (s : State) : (acknowledge d f s).prev = s.prev := rfl
@[simp] theorem acknowledge_abortReq (d f : Bool) (s : State) : (acknowledge d f s).abortReq = s.abortReq := rfl
@[simp] theorem acknowledge_prior (d f : Bool) (s : State) : (acknowledge d f s).prior = s.prior := rfl
@[simp] theorem acknowledge_cur (d f : Bool) (s : State) : (acknowledge d f s).cur = s.cur := rfl
@[simp] theorem acknowledge_dict (d f : Bool) (s : State) : (acknowledge d f s).dict = s.dict := rfl
@[simp] theorem acknowledge_mem (d f : Bool) (s : State) : (acknowledge d f s).mem = s.mem := rfl
@[simp] theorem acknowledge_host (d f : Bool) (s : State) : (acknowledge d f s).host = s.host := rfl
@[simp] theorem acknowledge_returned (d f : Bool) (s : State) : (acknowledge d f s).returned = s.returned := rfl
@[simp] theorem acknowledge_seen (d f : Bool) (s : State) : (acknowledge d f s).seen = s.seen := rfl
@[simp] theorem acknowledge_free (d f : Bool) (s : State) : (acknowledge d f s).free = s.free := rfl
@[simp] theorem acknowledge_W (d f : Bool) (s : State) : (acknowledge d f s).W = s.W := rfl
@[simp] theorem acknowledge_H (d f : Bool) (s : State) : (acknowledge d f s).H = s.H := rfl
@[simp] theorem acknowledge_bd (d f : Bool) (s : State) : (acknowledge d f s).bd = s.bd := rfl
@[simp] theorem acknowledge_nc (d f : Bool) (s : State) : (acknowledge d f s).nc = s.nc := rfl
@[simp] theorem acknowledge_lzwMin (d f : Bool) (s : State) : (acknowledge d f s).lzwMin = s.lzwMin := rfl
@[simp] theorem acknowledge_vflip (d f : Bool) (s : State) : (acknowledge d f s).vflip = s.vflip := rfl
@[simp] theorem acknowledge_le (d f : Bool) (s : State) : (acknowledge d f s).le = s.le := rfl
@[simp] theorem acknowledge_align4 (d f : Bool) (s : State) : (acknowledge d f s).align4 = s.align4 := rfl
@[simp] theorem acknowledge_rb (d f : Bool) (s : State) : (acknowledge d f s).rb = s.rb := rfl
@[simp] theorem acknowledge_bppb (d f : Bool) (s : State) : (acknowledge d f s).bppb = s.bppb := rfl
@[simp] theorem acknowledge_stride (d f : Bool) (s : State) : (acknowledge d f s).stride = s.stride := rfl
@[simp] theorem acknowledge_rowSamples (d f : Bool) (s : State) : (acknowledge d f s).rowSamples = s.rowSamples := rfl
@[simp] theorem acknowledge_outSize (d f : Bool) (s : State) : (acknowledge d f s).outSize = s.outSize := rfl

/-! ### tick: only the wait of the host's next access changes -/

@[simp] theorem tick_params (s : State) : (tick s).params = s.params := by unfold tick; split <;> rfl
@[simp] theorem tick_ctrlOp (s : State) : (tick s).ctrlOp = s.ctrlOp := by unfold tick; split <;> rfl
@[simp] theorem tick_irqEn (s : State) : (tick s).irqEn = s.irqEn := by unfold tick; split <;> rfl
@[simp] theorem tick_phase (s : State) : (tick s).phase = s.phase := by unfold tick; split <;> rfl
@[simp] theorem tick_done (s : State) : (tick s).done = s.done := by unfold tick; split <;> rfl
@[simp] theorem tick_fault (s : State) : (tick s).fault = s.fault := by unfold tick; split <;> rfl
@[simp] theorem tick_ovf (s : State) : (tick s).ovf = s.ovf := by unfold tick; split <;> rfl
@[simp] theorem tick_short (s : State) : (tick s).short = s.short := by unfold tick; split <;> rfl
@[simp] theorem tick_fcode (s : State) : (tick s).fcode = s.fcode := by unfold tick; split <;> rfl
@[simp] theorem tick_srcAddr (s : State) : (tick s).srcAddr = s.srcAddr := by unfold tick; split <;> rfl
@[simp] theorem tick_srcLen (s : State) : (tick s).srcLen = s.srcLen := by unfold tick; split <;> rfl
@[simp] theorem tick_dstAddr (s : State) : (tick s).dstAddr = s.dstAddr := by unfold tick; split <;> rfl
@[simp] theorem tick_dstLen (s : State) : (tick s).dstLen = s.dstLen := by unfold tick; split <;> rfl
@[simp] theorem tick_width (s : State) : (tick s).width = s.width := by unfold tick; split <;> rfl
@[simp] theorem tick_height (s : State) : (tick s).height = s.height := by unfold tick; split <;> rfl
@[simp] theorem tick_fmt (s : State) : (tick s).fmt = s.fmt := by unfold tick; split <;> rfl
@[simp] theorem tick_faddr (s : State) : (tick s).faddr = s.faddr := by unfold tick; split <;> rfl
@[simp] theorem tick_finfo (s : State) : (tick s).finfo = s.finfo := by unfold tick; split <;> rfl
@[simp] theorem tick_op (s : State) : (tick s).op = s.op := by unfold tick; split <;> rfl
@[simp] theorem tick_bp (s : State) : (tick s).bp = s.bp := by unfold tick; split <;> rfl
@[simp] theorem tick_out (s : State) : (tick s).out = s.out := by unfold tick; split <;> rfl
@[simp] theorem tick_x (s : State) : (tick s).x = s.x := by unfold tick; split <;> rfl
@[simp] theorem tick_y (s : State) : (tick s).y = s.y := by unfold tick; split <;> rfl
@[simp] theorem tick_r (s : State) : (tick s).r = s.r := by unfold tick; split <;> rfl
@[simp] theorem tick_p (s : State) : (tick s).p = s.p := by unfold tick; split <;> rfl
@[simp] theorem tick_w (s : State) : (tick s).w = s.w := by unfold tick; split <;> rfl
@[simp] theorem tick_next (s : State) : (tick s).next = s.next := by unfold tick; split <;> rfl
@[simp] theorem tick_prev (s : State) : (tick s).prev = s.prev := by unfold tick; split <;> rfl
@[simp] theorem tick_abortReq (s : State) : (tick s).abortReq = s.abortReq := by unfold tick; split <;> rfl
@[simp] theorem tick_prior (s : State) : (tick s).prior = s.prior := by unfold tick; split <;> rfl
@[simp] theorem tick_cur (s : State) : (tick s).cur = s.cur := by unfold tick; split <;> rfl
@[simp] theorem tick_dict (s : State) : (tick s).dict = s.dict := by unfold tick; split <;> rfl
@[simp] theorem tick_mem (s : State) : (tick s).mem = s.mem := by unfold tick; split <;> rfl
@[simp] theorem tick_returned (s : State) : (tick s).returned = s.returned := by unfold tick; split <;> rfl
@[simp] theorem tick_seen (s : State) : (tick s).seen = s.seen := by unfold tick; split <;> rfl
@[simp] theorem tick_free (s : State) : (tick s).free = s.free := by unfold tick; split <;> rfl
@[simp] theorem tick_W (s : State) : (tick s).W = s.W := by unfold tick; split <;> rfl
@[simp] theorem tick_H (s : State) : (tick s).H = s.H := by unfold tick; split <;> rfl
@[simp] theorem tick_busy (s : State) : (tick s).busy = s.busy := by unfold tick; split <;> rfl
@[simp] theorem tick_bd (s : State) : (tick s).bd = s.bd := by unfold tick; split <;> rfl
@[simp] theorem tick_nc (s : State) : (tick s).nc = s.nc := by unfold tick; split <;> rfl
@[simp] theorem tick_lzwMin (s : State) : (tick s).lzwMin = s.lzwMin := by unfold tick; split <;> rfl
@[simp] theorem tick_rb (s : State) : (tick s).rb = s.rb := by unfold tick; split <;> rfl
@[simp] theorem tick_bppb (s : State) : (tick s).bppb = s.bppb := by unfold tick; split <;> rfl
@[simp] theorem tick_stride (s : State) : (tick s).stride = s.stride := by unfold tick; split <;> rfl
@[simp] theorem tick_outSize (s : State) : (tick s).outSize = s.outSize := by unfold tick; split <;> rfl
@[simp] theorem tick_ctx (s : State) : (tick s).ctx = s.ctx := by unfold tick; split <;> rfl
@[simp] theorem tick_input (s : State) : (tick s).input = s.input := by unfold tick; split <;> rfl
@[simp] theorem tick_inputExists (s : State) : (tick s).inputExists = s.inputExists := by unfold tick; split <;> rfl
@[simp] theorem tick_fetch (s : State) : fetch (tick s) = fetch s := by simp [fetch]

/-! ### finish: what both ends of a step keep -/

@[simp] theorem finish_params (c : Bool) (s : State) : (finish c s).params = s.params := by cases c <;> rfl
@[simp] theorem finish_ctrlOp (c : Bool) (s : State) : (finish c s).ctrlOp = s.ctrlOp := by cases c <;> rfl
@[simp] theorem finish_irqEn (c : Bool) (s : State) : (finish c s).irqEn = s.irqEn := by cases c <;> rfl
@[simp] theorem finish_fault (c : Bool) (s : State) : (finish c s).fault = s.fault := by cases c <;> rfl
@[simp] theorem finish_ovf (c : Bool) (s : State) : (finish c s).ovf = s.ovf := by cases c <;> rfl
@[simp] theorem finish_short (c : Bool) (s : State) : (finish c s).short = s.short := by cases c <;> rfl
@[simp] theorem finish_fcode (c : Bool) (s : State) : (finish c s).fcode = s.fcode := by cases c <;> rfl
@[simp] theorem finish_srcAddr (c : Bool) (s : State) : (finish c s).srcAddr = s.srcAddr := by cases c <;> rfl
@[simp] theorem finish_srcLen (c : Bool) (s : State) : (finish c s).srcLen = s.srcLen := by cases c <;> rfl
@[simp] theorem finish_dstAddr (c : Bool) (s : State) : (finish c s).dstAddr = s.dstAddr := by cases c <;> rfl
@[simp] theorem finish_dstLen (c : Bool) (s : State) : (finish c s).dstLen = s.dstLen := by cases c <;> rfl
@[simp] theorem finish_width (c : Bool) (s : State) : (finish c s).width = s.width := by cases c <;> rfl
@[simp] theorem finish_height (c : Bool) (s : State) : (finish c s).height = s.height := by cases c <;> rfl
@[simp] theorem finish_fmt (c : Bool) (s : State) : (finish c s).fmt = s.fmt := by cases c <;> rfl
@[simp] theorem finish_faddr (c : Bool) (s : State) : (finish c s).faddr = s.faddr := by cases c <;> rfl
@[simp] theorem finish_finfo (c : Bool) (s : State) : (finish c s).finfo = s.finfo := by cases c <;> rfl
@[simp] theorem finish_op (c : Bool) (s : State) : (finish c s).op = s.op := by cases c <;> rfl
@[simp] theorem finish_bp (c : Bool) (s : State) : (finish c s).bp = s.bp := by cases c <;> rfl
@[simp] theorem finish_out (c : Bool) (s : State) : (finish c s).out = s.out := by cases c <;> rfl
@[simp] theorem finish_x (c : Bool) (s : State) : (finish c s).x = s.x := by cases c <;> rfl
@[simp] theorem finish_y (c : Bool) (s : State) : (finish c s).y = s.y := by cases c <;> rfl
@[simp] theorem finish_r (c : Bool) (s : State) : (finish c s).r = s.r := by cases c <;> rfl
@[simp] theorem finish_p (c : Bool) (s : State) : (finish c s).p = s.p := by cases c <;> rfl
@[simp] theorem finish_w (c : Bool) (s : State) : (finish c s).w = s.w := by cases c <;> rfl
@[simp] theorem finish_next (c : Bool) (s : State) : (finish c s).next = s.next := by cases c <;> rfl
@[simp] theorem finish_prev (c : Bool) (s : State) : (finish c s).prev = s.prev := by cases c <;> rfl
@[simp] theorem finish_abortReq (c : Bool) (s : State) : (finish c s).abortReq = s.abortReq := by cases c <;> rfl
@[simp] theorem finish_prior (c : Bool) (s : State) : (finish c s).prior = s.prior := by cases c <;> rfl
@[simp] theorem finish_cur (c : Bool) (s : State) : (finish c s).cur = s.cur := by cases c <;> rfl
@[simp] theorem finish_dict (c : Bool) (s : State) : (finish c s).dict = s.dict := by cases c <;> rfl
@[simp] theorem finish_mem (c : Bool) (s : State) : (finish c s).mem = s.mem := by cases c <;> rfl
@[simp] theorem finish_host (c : Bool) (s : State) : (finish c s).host = s.host := by cases c <;> rfl
@[simp] theorem finish_returned (c : Bool) (s : State) : (finish c s).returned = s.returned := by cases c <;> rfl
@[simp] theorem finish_free (c : Bool) (s : State) : (finish c s).free = s.free := by cases c <;> rfl

/-- A step that completes the operation (40_command.md R140). -/
@[simp] theorem finish_true (s : State) : finish true s = complete s := rfl

/-- A step that does not. -/
@[simp] theorem finish_false (s : State) : finish false s = continueRun s := rfl

end Sys2Proof.Machine
end

