-- ==== Sys2Proof/Laws/Ops.lean ====
section
/-! SUPPORT. One lemma for each shared operation that says what it can do, for later proofs to cite
instead of unfolding it. -/

namespace Sys2Proof.Machine

/-! ### Outcomes and loops -/

/-- A meaning that ends in `orFault` answers next exactly with what its accesses give. -/
@[simp] theorem orFault_next {o : Option State} {t : State} :
    orFault o = .next t ↔ o = some t := by
  cases o <;> simp [orFault]

/-- A loop keeps what each turn keeps. -/
theorem each_keeps {α σ : Type} {f : α → σ → Option σ} {P : σ → Prop}
    (hf : ∀ a s t, P s → f a s = some t → P t) :
    ∀ (l : List α) {s t : σ}, P s → each f l s = some t → P t := by
  intro l
  induction l with
  | nil => intro s t hs h; simp only [each, Option.some.injEq] at h; exact h ▸ hs
  | cons a l ih =>
    intro s t hs h
    simp only [each, Option.bind_eq_some_iff] at h
    obtain ⟨u, hu, ht⟩ := h
    exact ih (hf a s u hs hu) ht

/-- A loop whose turns all succeed succeeds. -/
theorem each_isSome {α σ : Type} {f : α → σ → Option σ} {P : σ → Prop}
    (hf : ∀ a s, P s → ∃ t, f a s = some t ∧ P t) :
    ∀ (l : List α) (s : σ), P s → ∃ t, each f l s = some t ∧ P t := by
  intro l
  induction l with
  | nil => exact fun s hs => ⟨s, rfl, hs⟩
  | cons a l ih =>
    intro s hs
    obtain ⟨u, hu, hPu⟩ := hf a s hs
    obtain ⟨t, ht, hPt⟩ := ih u hPu
    exact ⟨t, by simp [each, hu, ht], hPt⟩

/-! ### Writes -/

/-- What a byte write can do. -/
theorem memWrite_eq_some {a : Nat} {v : Byte} {s t : State} :
    memWrite a v s = some t ↔
      a < s.params.memSize ∧ t = { s with mem := s.mem.write a v } := by
  simp only [memWrite, Option.map_eq_some_iff, Memory.store_eq_some]
  constructor
  · rintro ⟨m, ⟨ha, rfl⟩, rfl⟩; exact ⟨ha, rfl⟩
  · rintro ⟨ha, rfl⟩; exact ⟨_, ⟨ha, rfl⟩, rfl⟩

/-- What writes of a list can do. -/
theorem memWriteAll_eq_some {a : Nat} {vs : List Byte} {s t : State} :
    memWriteAll a vs s = some t ↔
      ∃ m, s.mem.storeAll s.params.memSize a vs = some m ∧ t = { s with mem := m } := by
  simp only [memWriteAll, Option.map_eq_some_iff]
  constructor
  · rintro ⟨m, hm, rfl⟩; exact ⟨m, hm, rfl⟩
  · rintro ⟨m, hm, rfl⟩; exact ⟨m, hm, rfl⟩

/-- Writes of existing addresses succeed. -/
theorem memWriteAll_run {a : Nat} {vs : List Byte} {s : State}
    (h : a + vs.length ≤ s.params.memSize) :
    ∃ m, s.mem.storeAll s.params.memSize a vs = some m ∧
      memWriteAll a vs s = some { s with mem := m } := by
  obtain ⟨m, hm⟩ := Memory.storeAll_isSome vs s.mem a h
  exact ⟨m, hm, by simp [memWriteAll, hm]⟩

/-! ### Emission (40_command.md R141) -/

/-- `Emit` of a string: the first `OUTSZ − OUT` bytes are stored from `DST_ADDR + OUT`, the rest
dropped with OVF. -/
theorem emitAll_run (vs : List Byte) :
    ∀ {s : State}, s.outSize < 2 ^ 32 → s.out.toNat ≤ s.outSize →
      s.dstAddr.toNat + s.outSize ≤ s.params.memSize →
      ∃ m, s.mem.storeAll s.params.memSize (s.dstAddr.toNat + s.out.toNat)
          (vs.take (min vs.length s.room)) = some m ∧
        emitAll vs s = some { s with
          mem := m
          out := s.out + BitVec.ofNat 32 (min vs.length s.room)
          ovf := s.ovf || decide (s.room < vs.length) } := by
  induction vs with
  | nil => intro s _ _ _; exact ⟨s.mem, by simp [Memory.storeAll], by simp [emitAll, each]⟩
  | cons v vs ih =>
    intro s h32 hout hmem
    by_cases hlt : s.out.toNat < s.outSize
    · obtain ⟨u, hu⟩ : ∃ u : State, u = { s with
          mem := s.mem.write (s.dstAddr.toNat + s.out.toNat) v, out := s.out + 1 } := ⟨_, rfl⟩
      have hemit : emit v s = some u := by
        have ha : s.dstAddr.toNat + s.out.toNat < s.params.memSize := by omega
        simp [emit, hlt, memWrite, Memory.store, ha, hu, countOut]
      have hsize : u.outSize = s.outSize := by subst hu; rfl
      have huout' : u.out = s.out + 1 := by rw [hu]
      have huout : u.out.toNat = s.out.toNat + 1 := by
        rw [huout', BitVec.toNat_add, show (1 : Word).toNat = 1 from rfl]
        omega
      have hroom : u.room + 1 = s.room := by simp only [State.room, hsize, huout]; omega
      obtain ⟨m, hm, he⟩ := ih (s := u) (by rw [hsize]; exact h32) (by omega)
        (by rw [hsize]; subst hu; exact hmem)
      refine ⟨m, ?_, ?_⟩
      · have hmin : min (vs.length + 1) s.room = min vs.length u.room + 1 := by omega
        have ha : s.dstAddr.toNat + s.out.toNat < s.params.memSize := by omega
        simp only [List.length_cons, hmin, List.take_succ_cons, Memory.storeAll, Memory.store, ha,
          if_true, Option.bind_some]
        rw [huout] at hm
        subst hu
        exact hm
      · have hmin : min (vs.length + 1) s.room = min vs.length u.room + 1 := by omega
        have hd : decide (s.room < (v :: vs).length) = decide (u.room < vs.length) := by
          simp only [List.length_cons, decide_eq_decide]; omega
        simp only [emitAll, each, hemit, Option.bind_some] at he ⊢
        have hsum : u.out + BitVec.ofNat 32 (min vs.length u.room)
            = s.out + BitVec.ofNat 32 (min vs.length u.room + 1) := by
          rw [huout', BitVec.add_assoc, Nat.add_comm _ 1, BitVec.ofNat_add]
          rfl
        rw [he, hd, List.length_cons, hmin, hsum]
        rw [hu]
    · have hroom : s.room = 0 := by simp only [State.room]; omega
      have hemit : emit v s = some (setOvf s) := by simp [emit, hlt]
      obtain ⟨m, hm, he⟩ := ih (s := setOvf s) h32 hout hmem
      have hroom' : (setOvf s).room = 0 := hroom
      refine ⟨m, ?_, ?_⟩
      · simpa [hroom, hroom', Memory.storeAll] using hm
      · simp only [emitAll, each, hemit, Option.bind_some] at he ⊢
        rw [he, hroom', hroom]
        simp [setOvf]

/-! ### Pixels (43_rle_packbits.md R241) -/

/-- The pixels of a run that fall inside the window. -/
def State.fitting (s : State) (n : Nat) : Nat := if s.y.toNat < s.H then min n (s.W - s.x.toNat) else 0

/-- `PutPixel` of a run: the pixels inside the window are stored side by side, the rest dropped
with OVF, and x saturates at W. -/
theorem putPixels_run (vs : List Byte) :
    ∀ {s : State}, s.x.toNat ≤ s.W → s.dstAddr.toNat + s.W * s.H ≤ s.params.memSize →
      ∃ m, s.mem.storeAll s.params.memSize (pixelAddress s) (vs.take (s.fitting vs.length)) = some m ∧
        putPixels vs s = some { s with
          mem := m
          x := BitVec.ofNat 32 (min (s.x.toNat + vs.length) s.W)
          out := s.out + BitVec.ofNat 32 (s.fitting vs.length)
          ovf := s.ovf || decide (s.fitting vs.length < vs.length) } := by
  induction vs with
  | nil =>
    intro s hx _
    refine ⟨s.mem, by simp [Memory.storeAll], ?_⟩
    have h0 : s.fitting 0 = 0 := by simp [State.fitting]
    have hmin : min s.x.toNat s.W = s.x.toNat := by omega
    simp [putPixels, each, h0, hmin]
  | cons v vs ih =>
    intro s hx hmem
    have hW : s.W < 2 ^ 32 := s.width.isLt
    by_cases hin : s.x.toNat < s.W ∧ s.y.toNat < s.H
    · have haddr : pixelAddress s < s.params.memSize := by
        have hrow : s.outRow s.y.toNat + 1 ≤ s.H := by
          unfold State.outRow; split <;> omega
        have : (s.outRow s.y.toNat + 1) * s.W ≤ s.H * s.W := Nat.mul_le_mul_right _ hrow
        rw [Nat.add_mul, Nat.one_mul, Nat.mul_comm s.H] at this
        unfold pixelAddress
        omega
      obtain ⟨u, hu⟩ : ∃ u : State, u = { s with
          mem := s.mem.write (pixelAddress s) v
          out := s.out + 1
          x := BitVec.ofNat 32 (min (s.x.toNat + 1) s.W) } := ⟨_, rfl⟩
      have hput : putPixel v s = some u := by
        simp only [putPixel, if_pos hin, memWrite, Memory.store, if_pos haddr, Option.map_some, hu]
        rfl
      have hux : u.x.toNat = s.x.toNat + 1 := by
        subst hu
        simp only [BitVec.toNat_ofNat]
        omega
      have huW : u.W = s.W := by subst hu; rfl
      have huH : u.H = s.H := by subst hu; rfl
      have huy : u.y = s.y := by subst hu; rfl
      have huaddr : pixelAddress u = pixelAddress s + 1 := by
        have : u.outRow u.y.toNat = s.outRow s.y.toNat := by subst hu; rfl
        simp only [pixelAddress, this, huW, hux]
        subst hu
        show s.dstAddr.toNat + _ + _ = _
        omega
      have hfit : s.fitting (vs.length + 1) = u.fitting vs.length + 1 := by
        simp only [State.fitting, huW, huH, huy, hux, hin.2, if_true]
        omega
      obtain ⟨m, hm, he⟩ := ih (s := u) (by rw [hux, huW]; omega)
        (by rw [huW, huH]; subst hu; exact hmem)
      refine ⟨m, ?_, ?_⟩
      · simp only [List.length_cons, hfit, List.take_succ_cons, Memory.storeAll, Memory.store,
          haddr, if_true, Option.bind_some]
        rw [huaddr] at hm
        subst hu
        exact hm
      · have hd : decide (s.fitting (vs.length + 1) < vs.length + 1)
            = decide (u.fitting vs.length < vs.length) := by
          simp only [hfit, decide_eq_decide]; omega
        simp only [putPixels, each, hput, Option.bind_some] at he ⊢
        rw [he, List.length_cons, hd, hfit, hux, huW,
          show s.x.toNat + 1 + vs.length = s.x.toNat + (vs.length + 1) by omega]
        have hsum : u.out + BitVec.ofNat 32 (u.fitting vs.length)
            = s.out + BitVec.ofNat 32 (u.fitting vs.length + 1) := by
          rw [show u.out = s.out + 1 by rw [hu], BitVec.add_assoc, Nat.add_comm _ 1,
            BitVec.ofNat_add]
          rfl
        rw [hsum]
        rw [hu]
    · have hput : putPixel v s = some (stepPixel (setOvf s)) := by simp [putPixel, hin]
      have hux : (stepPixel (setOvf s)).x.toNat = min (s.x.toNat + 1) s.W := by
        simp only [stepPixel_x, setOvf_x, setOvf_W, BitVec.toNat_ofNat]
        omega
      have hfit : s.fitting (vs.length + 1) = 0 := by simp only [State.fitting]; split <;> omega
      have hfit' : (stepPixel (setOvf s)).fitting vs.length = 0 := by
        simp only [State.fitting, stepPixel_W, setOvf_W, stepPixel_H, setOvf_H, stepPixel_y,
          setOvf_y, hux]
        split <;> omega
      obtain ⟨m, hm, he⟩ := ih (s := stepPixel (setOvf s)) (by rw [hux]; simp) hmem
      refine ⟨m, ?_, ?_⟩
      · simpa [hfit, hfit', Memory.storeAll] using hm
      · simp only [putPixels, each, hput, Option.bind_some] at he ⊢
        rw [he, List.length_cons, hfit, hfit', hux]
        have hx' : min (min (s.x.toNat + 1) s.W + vs.length) s.W
            = min (s.x.toNat + (vs.length + 1)) s.W := by omega
        simp [stepPixel, setOvf, State.W] at hx' ⊢
        rw [hx']

/-! ### Faults (60_exceptions.md R325, R326) -/

/-- A scrambled output window: every other byte as before, form and range kept. -/
theorem scrambleOutput_spec {s : State} (h : s.mem.wf = true) :
    (scrambleOutput s).mem.wf = true ∧
    (s.mem.within s.params.memSize = true →
      (scrambleOutput s).mem.within s.params.memSize = true) ∧
    ∀ a, s.inOutput a = false → (scrambleOutput s).mem.read a = s.mem.read a := by
  obtain ⟨hwf, hin, -, hother⟩ := Memory.havoc_spec s.free s.dstAddr.toNat
    (min s.outSize (s.params.memSize - s.dstAddr.toNat)) h
  refine ⟨hwf, fun hm => ?_, fun a ha => hother a ?_⟩
  · by_cases hd : s.dstAddr.toNat ≤ s.params.memSize
    · exact hin _ (by omega) hm
    · have : min s.outSize (s.params.memSize - s.dstAddr.toNat) = 0 := by omega
      simpa [this, Memory.havoc] using hm
  · simp only [State.inOutput, Bool.and_eq_false_iff, decide_eq_false_iff_not] at ha
    omega

/-- What a fault in a step leaves, whole: the fault registers, an idle engine, the progress registers
of the start of the step, and a scrambled output window. -/
theorem raiseInStep_eq (code : FaultCode) (info : Word) (s : State) :
    raiseInStep code info s =
      { s with
        faddr := faultAddress code s, finfo := info, fcode := faultValue code
        fault := true, done := false, phase := .idle, seen := []
        mem := (scrambleOutput s).mem, free := s.free + 1 } := rfl

/-- What a fault of START's checks leaves: memory and every other register as START cleared them. -/
theorem raiseAtStart_eq (code : FaultCode) (info : Word) (s : State) :
    raiseAtStart code info s =
      { s with
        faddr := 0, finfo := info, fcode := faultValue code
        fault := true, done := false, phase := .idle, seen := [] } := rfl

/-! ### LZW entries (42_lzw.md R203, R205, R211, R213) -/

/-- The width after an entry is added at `next`. -/
def State.widthAfter (s : State) (kind : LzwKind) : BitVec 4 :=
  if s.next.toNat + 1 + earlyBy kind = 2 ^ s.w.toNat ∧ s.w.toNat < 12 then s.w + 1 else s.w

/-- `AddEntry` where the dictionary has room. -/
theorem addEntry_room {kind : LzwKind} {pfx : BitVec 12} {sfx : Byte} {s : State}
    (h : s.next.toNat < 4096) : addEntry kind pfx sfx s = { s with
      dict := s.dict.write s.next.toNat ⟨pfx, sfx⟩, next := s.next + 1, w := s.widthAfter kind } := by
  have hnext : (s.next + 1).toNat = s.next.toNat + 1 := by
    rw [BitVec.toNat_add, show (1 : BitVec 13).toNat = 1 from rfl]
    omega
  unfold addEntry growWidth State.widthAfter
  rw [if_pos h]
  cases kind <;> simp only [hnext, earlyBy, Nat.add_zero] <;> split <;>
    rename_i hc <;> simp [hc]

/-- `AddEntry` where it is full. -/
theorem addEntry_full {kind : LzwKind} {pfx : BitVec 12} {sfx : Byte} {s : State}
    (h : ¬ s.next.toNat < 4096) : addEntry kind pfx sfx s = s := by simp [addEntry, h]

/-- What a code learns: nothing but prev without a previous code or without room, else the entry
(prev, sfx). -/
theorem learn_eq (kind : LzwKind) (sfx : Byte) (code : BitVec 12) (s : State) :
    learn kind sfx code s =
      match s.prev with
      | none => { s with prev := some code }
      | some p =>
        if s.next.toNat < 4096 then { s with
          dict := s.dict.write s.next.toNat ⟨p, sfx⟩, next := s.next + 1, w := s.widthAfter kind
          prev := some code }
        else { s with prev := some code } := by
  unfold learn
  cases s.prev with
  | none => rfl
  | some p =>
    by_cases h : s.next.toNat < 4096
    · simp only [if_pos h, addEntry_room h]
    · simp only [if_neg h, addEntry_full h]

/-! ### Bits (45_adam7.md R303) -/

/-- A bit set in a byte reads back, the other seven as before. -/
theorem setBit_getLsbD {b : Byte} {i j : Nat} {v : Bool} (hi : i < 8) (hj : j < 8) :
    (setBit b i v).getLsbD j = if j = i then v else b.getLsbD j := by
  have hbit : (BitVec.ofNat 8 (2 ^ i)).getLsbD j = decide (j = i) := by
    rw [BitVec.getLsbD_ofNat, Nat.testBit_two_pow]
    simp [hj, eq_comm]
  by_cases hji : j = i <;> cases v <;>
    simp only [setBit, Bool.false_eq_true, if_false, if_true, BitVec.getLsbD_or, BitVec.getLsbD_and,
      BitVec.getLsbD_not, hbit] <;>
    simp [hji, hj, hi]

/-- What `PutBit` can do. -/
theorem putBit_eq_some {base q : Nat} {v : Bool} {s t : State} :
    putBit base q v s = some t ↔ base + q / 8 < s.params.memSize ∧ t = { s with
      mem := s.mem.write (base + q / 8) (setBit (s.mem.read (base + q / 8)) (7 - q % 8) v) } :=
  memWrite_eq_some

/-! ### The step -/

/-- The engine's turn: the step is an engine step. -/
theorem step_engine {s : State} (h : engineTurn s = true) : step s = engineStep (tick s) := by
  simp [step, transition, h]

/-- What an engine step that answers next can be: E_ABORT, E_TRUNC, or the fetched instruction run. -/
theorem engineStep_next {s t : State} (h : engineStep s = .next t) :
    (s.abortReq = true ∧ t = raiseInStep .abort 0 s) ∨
    (s.abortReq = false ∧ s.inputExists = true ∧
      ((fetch s = .truncated ∧ t = raiseInStep .trunc 0 s) ∨
        ∃ i, fetch s = .instr i ∧ exec i s = .next t)) := by
  unfold engineStep at h
  split at h
  · exact .inl ⟨‹_›, (Host.Outcome.next.inj h).symm⟩
  · rename_i habort
    split at h
    · cases h
    · rename_i hin
      refine .inr ⟨by simpa using habort, by simpa using hin, ?_⟩
      split at h
      · exact .inr ⟨_, ‹_›, h⟩
      · exact .inl ⟨‹_›, (Host.Outcome.next.inj h).symm⟩
      · cases h

/-- The host's turn: the step performs its next access. -/
theorem step_host {s : State} (h : engineTurn s = false) {q : Queued} {rest : List Queued}
    (hq : s.host = q :: rest) : step s = performAccess q.access { s with host := rest } := by
  simp [step, transition, h, hq]

/-- With neither agent to move, nothing changes (60_exceptions.md R347). -/
theorem step_idle {s : State} (h : engineTurn s = false) (hq : s.host = []) : step s = .next s := by
  simp [step, transition, h, hq]

end Sys2Proof.Machine
end

