-- ==== Sys2Proof/Laws/Bus.lean ====
section
/-! SUPPORT. What the host's accesses can do (20_memory.md R65, R70): one lemma for each operation of
Machine/Bus.lean that a proof about the host needs. -/

namespace Sys2Proof.Machine

/-! ### Register reads -/

/-- What a register reads does not depend on the host's queue. -/
@[simp] theorem readRegister_host (off : Nat) (s : State) (host : List Queued) :
    readRegister off { s with host := host } = readRegister off s := by
  unfold readRegister
  split <;> rfl

/-! ### Values of several bytes -/

@[simp] theorem splitBytes_length (size v : Nat) : (splitBytes size v).length = size := by
  induction size generalizing v with
  | zero => rfl
  | succ n ih => simp [splitBytes, ih]

/-- Byte `k` of a value of `size` bytes. -/
theorem splitBytes_getElem? {size k : Nat} (h : k < size) (v : Nat) :
    (splitBytes size v)[k]? = some (BitVec.ofNat 8 (v / 256 ^ k)) := by
  induction size generalizing v k with
  | zero => omega
  | succ n ih =>
    cases k with
    | zero => simp [splitBytes]
    | succ k =>
      rw [splitBytes, List.getElem?_cons_succ, ih (by omega), Nat.div_div_eq_div_mul, pow_succ']

/-- The bytes of a value join to the value, as wide as they are. -/
theorem joinBytes_splitBytes (size v : Nat) : joinBytes (splitBytes size v) = v % 256 ^ size := by
  induction size generalizing v with
  | zero => simp [splitBytes, joinBytes, Nat.mod_one]
  | succ n ih =>
    rw [splitBytes, joinBytes, ih, pow_succ', Nat.mod_mul]
    simp

/-- A byte more is the most significant one. -/
theorem joinBytes_append_singleton (bs : List Byte) (b : Byte) :
    joinBytes (bs ++ [b]) = joinBytes bs + b.toNat * 256 ^ bs.length := by
  induction bs with
  | nil => simp [joinBytes]
  | cons c cs ih =>
    simp only [List.cons_append, joinBytes, ih, List.length_cons, pow_succ]
    ring

/-! ### Address decoding -/

/-- An aligned word of the register block is its register. -/
theorem regionOf_register (p : Params) {off : Nat} (h : off < 256) (h4 : off % 4 = 0) :
    regionOf p (p.regBase + off) 4 = .register off := by
  simp [regionOf, registerForm, h4, h]
  omega

/-- An access that lies whole in the data memory is the memory's. -/
theorem regionOf_memory {p : Params} (hp : p.wf = true) {a size : Nat}
    (ha : a + size ≤ p.memSize) : regionOf p (p.memBase + a) size = .memory a := by
  simp only [Params.wf, Bool.and_eq_true, Bool.or_eq_true, decide_eq_true_eq] at hp
  have h : ¬ (p.memBase + a < p.regBase + 256 ∧ p.regBase < p.memBase + a + size) := by omega
  have h' : p.memBase ≤ p.memBase + a ∧ p.memBase + a + size ≤ p.memBase + p.memSize := by omega
  rw [regionOf, if_neg h, if_pos h', Nat.add_sub_cancel_left]

/-- A register access is an aligned word of the register block. -/
theorem regionOf_eq_register {p : Params} {addr size off : Nat}
    (h : regionOf p addr size = .register off) :
    addr = p.regBase + off ∧ off < 256 ∧ off % 4 = 0 ∧ size = 4 := by
  unfold regionOf at h
  split at h
  · split at h
    · rename_i h1 h2
      obtain rfl := Region.register.inj h
      simp only [registerForm, Bool.and_eq_true, decide_eq_true_eq] at h2
      omega
    · cases h
  · split at h <;> cases h

/-! ### Data-memory accesses -/

/-- A list of checks that reports nothing: its first does not fail, and the rest report nothing. -/
theorem check_passed {α : Type} {c : Prop} [Decidable c] {fault : α} {rest : Option α}
    (h : (if c then some fault else rest) = none) : ¬ c ∧ rest = none := by
  by_cases hc : c
  · simp [hc] at h
  · exact ⟨hc, by simpa [hc] using h⟩

/-- Check 12 of a START that passed: no byte of the input window is in the output window. -/
theorem windowsDisjoint_of_startFault {s : State} (h : startFault s = none) (h8 : s.op.toNat ≠ 8) :
    windowsDisjoint s = true := by
  unfold startFault at h
  iterate 11 replace h := (check_passed h).2
  have hlast := (check_passed h).1
  simp only [ne_eq, h8, not_false_eq_true, decide_true, Bool.true_and, Bool.not_eq_true',
    Bool.not_eq_false] at hlast
  exact hlast

/-- Where START's checks passed, a byte of the input window reads as it is (R70 item 4). -/
theorem hostByte_of_input {s : State} {a : Nat} (h : startFault s = none) (ha : s.inInput a = true) :
    hostByte a s = s.mem.read a := by
  simp only [State.inInput, Bool.and_eq_true, decide_eq_true_eq] at ha
  have hd := windowsDisjoint_of_startFault h ha.1.1
  simp only [windowsDisjoint, Bool.or_eq_true, decide_eq_true_eq] at hd
  have ho : s.inOutput a = false := by
    simp only [State.inOutput, Bool.and_eq_false_iff, decide_eq_false_iff_not]
    generalize s.outSize = o at *
    omega
  simp [hostByte, ho]

/-- One byte of a host read: what it takes, and what it leaves to the queue. -/
theorem memoryRead_eq {a size : Nat} (got : List Byte) {s : State} (ha : a < s.params.memSize) :
    memoryRead a size got s = .next (if size ≤ 1 then
      { s with returned := joinBytes (got ++ [hostByte a s]) :: s.returned, free := s.free + 1 }
    else
      { s with
        host := ⟨Config.byteGap (s.free + 1), .readRest (a + 1) (size - 1) (got ++ [hostByte a s])⟩ ::
          s.host
        free := s.free + 1 }) := by
  simp [memoryRead, resume, Nat.not_le.2 ha]

/-- One byte of a host write: what it stores, and what it leaves to the queue. -/
theorem memoryWrite_eq {a : Nat} (v : Byte) (more : List Byte) {s : State}
    (ha : a < s.params.memSize) (hw : windowBusy a s = false) :
    memoryWrite a (v :: more) s = .next { s with
      mem := s.mem.write a v
      host := if more = [] then s.host
        else ⟨Config.byteGap (s.free + 1), .writeRest (a + 1) more⟩ :: s.host
      free := s.free + 1 } := by
  cases more <;> simp [memoryWrite, resume, Nat.not_le.2 ha, hw]

/-- A host memory read that answers next changes nothing but what it returned, the head of the queue
and the counter of free values. -/
theorem memoryRead_next {a size : Nat} {got : List Byte} {s t : State}
    (h : memoryRead a size got s = .next t) :
    ∃ host returned, t = { s with host := host, returned := returned, free := s.free + 1 } := by
  unfold memoryRead at h
  split at h
  · cases h
  · obtain rfl := Host.Outcome.next.inj h
    split
    · exact ⟨_, _, rfl⟩
    · exact ⟨_, _, rfl⟩

/-- A host memory write that answers next stored at most one byte, at an address that exists and lies
in no window of a running operation. -/
theorem memoryWrite_next {a : Nat} {data : List Byte} {s t : State}
    (h : memoryWrite a data s = .next t) : t = s ∨
    ∃ v host, a < s.params.memSize ∧ windowBusy a s = false ∧
      t = { s with mem := s.mem.write a v, host := host, free := s.free + 1 } := by
  cases data with
  | nil => exact .inl (Host.Outcome.next.inj h).symm
  | cons v more =>
    by_cases ha : a < s.params.memSize
    · by_cases hw : windowBusy a s = false
      · rw [memoryWrite_eq v more ha hw] at h
        exact .inr ⟨v, _, ha, hw, (Host.Outcome.next.inj h).symm⟩
      · simp [memoryWrite, Nat.not_le.2 ha, hw] at h
    · simp [memoryWrite, Nat.not_lt.1 ha] at h

end Sys2Proof.Machine
end

