-- ==== Sys2Proof/Laws/Decode.lean ====
section
/-! SUPPORT. Lemmas of the decoder's and the encoder's pieces: taking bytes, reading a code's bits, and
the bytes of a number. -/

namespace Sys2Proof

/-- Taking bytes succeeds where there are enough, and takes the first ones. -/
theorem takeExact_eq_some {n : Nat} {bs d : List Byte} :
    takeExact n bs = some d ↔ n ≤ bs.length ∧ d = bs.take n := by
  induction n generalizing bs d with
  | zero => simp [takeExact, eq_comm]
  | succ n ih =>
    cases bs with
    | nil => simp [takeExact]
    | cons b bs =>
      simp only [takeExact, Option.map_eq_some_iff, ih, List.length_cons, List.take_succ_cons]
      constructor
      · rintro ⟨r, ⟨hr, rfl⟩, rfl⟩; exact ⟨by omega, rfl⟩
      · rintro ⟨hr, rfl⟩; exact ⟨_, ⟨by omega, rfl⟩, rfl⟩

/-- Taking bytes fails exactly where there are too few. -/
theorem takeExact_eq_none {n : Nat} {bs : List Byte} : takeExact n bs = none ↔ bs.length < n := by
  rw [Option.eq_none_iff_forall_ne_some]
  constructor
  · intro h
    by_contra hn
    exact h _ (takeExact_eq_some.2 ⟨by omega, rfl⟩)
  · intro h d hd
    have := (takeExact_eq_some.1 hd).1
    omega

/-- The bytes at the head of a longer list. -/
theorem takeExact_append {n : Nat} {d rest : List Byte} (h : d.length = n) :
    takeExact n (d ++ rest) = some d :=
  takeExact_eq_some.2 ⟨by simp [h], by simp [← h]⟩

/-- A code of `w` bits is below `2^w`. -/
theorem readCode_lt (kind : LzwKind) (bs : List Byte) (bit w : Nat) :
    readCode kind bs bit w < 2 ^ w := by
  induction w with
  | zero => simp [readCode]
  | succ w ih =>
    have hb : (streamBit kind bs (bit + w)).toNat ≤ 1 := Bool.toNat_le _
    have hp : 2 ^ (w + 1) = 2 * 2 ^ w := by rw [Nat.pow_succ, Nat.mul_comm]
    cases kind with
    | gif =>
      have : 2 ^ w * (streamBit .gif bs (bit + w)).toNat ≤ 2 ^ w * 1 := Nat.mul_le_mul_left _ hb
      simp only [readCode]
      omega
    | tiff =>
      simp only [readCode]
      omega

/-- Codes read from lists that agree on the bits read are equal. -/
theorem readCode_congr {kind : LzwKind} {bs cs : List Byte} {bit w : Nat}
    (h : ∀ n, bit ≤ n → n < bit + w → streamBit kind bs n = streamBit kind cs n) :
    readCode kind bs bit w = readCode kind cs bit w := by
  induction w with
  | zero => rfl
  | succ w ih =>
    have hw := ih fun n h1 h2 => h n h1 (by omega)
    cases kind <;> simp [readCode, hw, h (bit + w) (by omega) (by omega)]

/-- Byte `k` of a number's bytes. -/
theorem bytesLe_getD (n v k : Nat) (h : k < n) :
    (bytesLe n v).getD k 0 = BitVec.ofNat 8 (v / 256 ^ k) := by
  induction n generalizing v k with
  | zero => omega
  | succ n ih =>
    cases k with
    | zero => simp [bytesLe]
    | succ k =>
      have := ih (v / 256) k (by omega)
      simp only [bytesLe, List.getD_cons_succ, this, Nat.div_div_eq_div_mul, Nat.pow_succ,
        Nat.mul_comm]

end Sys2Proof
end

