-- ==== Sys2Proof/Laws/PerInstr.lean ====
section
/-! SUPPORT. Per-instruction lemmas: the length of every well-formed instruction's encoding is the one
30_encoding.md R104 gives, an LZW code's the bytes its bits reach into. -/

namespace Sys2Proof.Laws.EncodedLength

/-- The bytes of a PNG row element (R94). -/
def pngBytes : Ctx → Nat
  | .png len => 1 + len
  | _ => 0

/-- The bytes a literal packet's element has (R98, R250). -/
def literalBytes (h : BitVec 7) : Ctx → Nat
  | .packbits room => 1 + min (h.toNat + 1) room
  | _ => 0

/-- The bytes an LZW code reaches into (R99, R100). -/
def codeBytes : Ctx → Nat
  | .lzw _ _ w _ _ bit => divCeil (bit + w) 8
  | _ => 0

/-- The bytes of an UNPACK row (R280). -/
def strideBytes : Ctx → Nat
  | .unpack _ stride => stride
  | _ => 0

/-- The length in bytes that R90 and R94 to R100 give an instruction in a context. -/
def tableLength (c : Ctx) : Instr → Nat
  | .startDefilter _ _ | .startAdam7 _ _ | .startLzwGif _ _ | .startLzwTiff _ _ | .startRle8 _ _
  | .startRle4 _ _ | .startPackbits _ _ | .startUnpack _ _ | .startHpred _ _
  | .startReserved _ _ _ | .abort _ _ | .ack _ _ => 4
  | .pngNone _ | .pngSub _ | .pngUp _ | .pngAvg _ | .pngPaeth _ => pngBytes c
  | .pngIllegal _ => 1
  | .rle8Enc _ _ | .rle8Eol | .rle8Eob | .rle4Enc _ _ | .rle4Eol | .rle4Eob => 2
  | .rle8Delta _ _ | .rle4Delta _ _ => 4
  | .rle8Abs n _ => 2 + n.toNat + n.toNat % 2
  | .rle4Abs n _ => 2 + divCeil n.toNat 2 + divCeil n.toNat 2 % 2
  | .pbLit h _ => literalBytes h c
  | .pbRep _ _ => 2
  | .pbNop => 1
  | .lzwGifRoot _ | .lzwGifClear | .lzwGifEoi | .lzwGifDict _ | .lzwGifKwkwk _ | .lzwGifInvalid _
  | .lzwTiffRoot _ | .lzwTiffClear | .lzwTiffEoi | .lzwTiffDict _ | .lzwTiffKwkwk _
  | .lzwTiffInvalid _ => codeBytes c
  | .unpackRowSub8 _ | .unpackRow16 _ | .unpackRow32 _ => strideBytes c
  | .hpredRow => 0

/-- Where the instruction is well formed its encoding has the length of R104. -/
def Statement (i : Instr) : Prop :=
  ∀ c : Ctx, i.wf c = true → (encode c i).length = tableLength c i

/-- The bytes of a number are as many as asked for. -/
theorem bytesLe_length (n v : Nat) : (bytesLe n v).length = n := by
  induction n generalizing v with
  | zero => rfl
  | succ n ih => simp [bytesLe, ih]

/-- An LZW code reaches into `divCeil (bit + w) 8` bytes. -/
theorem packCode_length (kind : LzwKind) (bit w code : Nat) :
    (packCode kind bit w code).length = divCeil (bit + w) 8 := by
  cases kind <;> simp [packCode, bytesLe_length]

/-- An LZW code's encoding in any context. -/
theorem lzw_length (c : Ctx) (code : Nat → Nat) : (encodeLzw c code).length = codeBytes c := by
  cases c <;> simp [encodeLzw, packCode_length, codeBytes]

/-- A PNG row in its context. -/
theorem png_length {c : Ctx} {f : Byte} {raw : List Byte} (h : c = .png raw.length) :
    (f :: raw).length = pngBytes c := by
  subst h
  exact Nat.add_comm _ 1

/-- An absolute run with its pad byte. -/
theorem abs_length (z n : Byte) (m : Nat) {data : List Byte} (h : data.length = m) :
    (z :: n :: data ++ List.replicate (m % 2) (0x00 : Byte)).length = 2 + m + m % 2 := by
  simp only [List.length_cons, List.length_append, List.length_replicate, h]
  omega

/-- A literal packet in its context. -/
theorem literal_length {c : Ctx} {k : BitVec 7} {data : List Byte}
    (h : Instr.wf c (.pbLit k data) = true) : (encode c (.pbLit k data)).length =
      tableLength c (.pbLit k data) := by
  cases c <;> simp [Instr.wf] at h ⊢
  simp [encode, tableLength, literalBytes, h, Nat.add_comm]

/-- An UNPACK row in its context. -/
theorem unpack_length {c : Ctx} {row : List Byte} {ok : Nat → Bool}
    (h : c.unpackOk row ok = true) : row.length = strideBytes c := by
  cases c <;> simp [Ctx.unpackOk] at h
  simp [strideBytes, h.2]

theorem startDefilter (irqEn abort : Bool) : Statement (.startDefilter irqEn abort) :=
  fun _ _ => rfl

theorem startAdam7 (irqEn abort : Bool) : Statement (.startAdam7 irqEn abort) :=
  fun _ _ => rfl

theorem startLzwGif (irqEn abort : Bool) : Statement (.startLzwGif irqEn abort) :=
  fun _ _ => rfl

theorem startLzwTiff (irqEn abort : Bool) : Statement (.startLzwTiff irqEn abort) :=
  fun _ _ => rfl

theorem startRle8 (irqEn abort : Bool) : Statement (.startRle8 irqEn abort) :=
  fun _ _ => rfl

theorem startRle4 (irqEn abort : Bool) : Statement (.startRle4 irqEn abort) :=
  fun _ _ => rfl

theorem startPackbits (irqEn abort : Bool) : Statement (.startPackbits irqEn abort) :=
  fun _ _ => rfl

theorem startUnpack (irqEn abort : Bool) : Statement (.startUnpack irqEn abort) :=
  fun _ _ => rfl

theorem startHpred (irqEn abort : Bool) : Statement (.startHpred irqEn abort) :=
  fun _ _ => rfl

theorem startReserved (irqEn abort : Bool) (op : BitVec 4) : Statement (.startReserved irqEn abort op) :=
  fun _ _ => rfl

theorem abort (irqEn : Bool) (op : BitVec 4) : Statement (.abort irqEn op) :=
  fun _ _ => rfl

theorem ack (done fault : Bool) : Statement (.ack done fault) :=
  fun _ _ => rfl

theorem pngNone (raw : List Byte) : Statement (.pngNone raw) :=
  fun _ h => png_length (of_decide_eq_true h)

theorem pngSub (raw : List Byte) : Statement (.pngSub raw) :=
  fun _ h => png_length (of_decide_eq_true h)

theorem pngUp (raw : List Byte) : Statement (.pngUp raw) :=
  fun _ h => png_length (of_decide_eq_true h)

theorem pngAvg (raw : List Byte) : Statement (.pngAvg raw) :=
  fun _ h => png_length (of_decide_eq_true h)

theorem pngPaeth (raw : List Byte) : Statement (.pngPaeth raw) :=
  fun _ h => png_length (of_decide_eq_true h)

theorem pngIllegal (f : Byte) : Statement (.pngIllegal f) :=
  fun _ _ => rfl

theorem rle8Enc (n v : Byte) : Statement (.rle8Enc n v) :=
  fun _ _ => rfl

theorem rle8Eol : Statement .rle8Eol :=
  fun _ _ => rfl

theorem rle8Eob : Statement .rle8Eob :=
  fun _ _ => rfl

theorem rle8Delta (dx dy : Byte) : Statement (.rle8Delta dx dy) :=
  fun _ _ => rfl

theorem rle8Abs (n : Byte) (data : List Byte) : Statement (.rle8Abs n data) :=
  fun _ h => abs_length 0 n _ (of_decide_eq_true (Bool.and_eq_true_iff.1 h).2)

theorem rle4Enc (n v : Byte) : Statement (.rle4Enc n v) :=
  fun _ _ => rfl

theorem rle4Eol : Statement .rle4Eol :=
  fun _ _ => rfl

theorem rle4Eob : Statement .rle4Eob :=
  fun _ _ => rfl

theorem rle4Delta (dx dy : Byte) : Statement (.rle4Delta dx dy) :=
  fun _ _ => rfl

theorem rle4Abs (n : Byte) (data : List Byte) : Statement (.rle4Abs n data) :=
  fun _ h => abs_length 0 n _ (of_decide_eq_true (Bool.and_eq_true_iff.1 h).2)

theorem pbLit (h : BitVec 7) (data : List Byte) : Statement (.pbLit h data) :=
  fun _ h => literal_length h

theorem pbRep (h v : Byte) : Statement (.pbRep h v) :=
  fun _ _ => rfl

theorem pbNop : Statement .pbNop :=
  fun _ _ => rfl

theorem lzwGifRoot (code : BitVec 12) : Statement (.lzwGifRoot code) :=
  fun c _ => lzw_length c _

theorem lzwGifClear : Statement .lzwGifClear :=
  fun c _ => lzw_length c _

theorem lzwGifEoi : Statement .lzwGifEoi :=
  fun c _ => lzw_length c _

theorem lzwGifDict (code : BitVec 12) : Statement (.lzwGifDict code) :=
  fun c _ => lzw_length c _

theorem lzwGifKwkwk (code : BitVec 12) : Statement (.lzwGifKwkwk code) :=
  fun c _ => lzw_length c _

theorem lzwGifInvalid (code : BitVec 12) : Statement (.lzwGifInvalid code) :=
  fun c _ => lzw_length c _

theorem lzwTiffRoot (code : BitVec 12) : Statement (.lzwTiffRoot code) :=
  fun c _ => lzw_length c _

theorem lzwTiffClear : Statement .lzwTiffClear :=
  fun c _ => lzw_length c _

theorem lzwTiffEoi : Statement .lzwTiffEoi :=
  fun c _ => lzw_length c _

theorem lzwTiffDict (code : BitVec 12) : Statement (.lzwTiffDict code) :=
  fun c _ => lzw_length c _

theorem lzwTiffKwkwk (code : BitVec 12) : Statement (.lzwTiffKwkwk code) :=
  fun c _ => lzw_length c _

theorem lzwTiffInvalid (code : BitVec 12) : Statement (.lzwTiffInvalid code) :=
  fun c _ => lzw_length c _

theorem unpackRowSub8 (row : List Byte) : Statement (.unpackRowSub8 row) :=
  fun _ h => unpack_length h

theorem unpackRow16 (row : List Byte) : Statement (.unpackRow16 row) :=
  fun _ h => unpack_length h

theorem unpackRow32 (row : List Byte) : Statement (.unpackRow32 row) :=
  fun _ h => unpack_length h

theorem hpredRow : Statement .hpredRow :=
  fun _ _ => rfl

end Sys2Proof.Laws.EncodedLength
end

