-- ==== Sys2Proof/Laws/Rows.lean ====
section
/-! SUPPORT. What the two row loops compute, byte by byte: the reconstruction of a PNG row
(41_png_defilter.md R170) and the running sums of an HPRED row (42_lzw.md R220). -/

namespace Sys2Proof.Machine

/-- An appended byte leaves the bytes before it. -/
theorem getD_append_left {l m : List Byte} {k : Nat} (h : k < l.length) :
    (l ++ m).getD k 0 = l.getD k 0 := by
  simp [List.getD_eq_getElem?_getD, List.getElem?_append_left h]

/-- A byte appended at the end. -/
theorem getD_append_end (l : List Byte) (v : Byte) : (l ++ [v]).getD l.length 0 = v := by
  simp [List.getD_eq_getElem?_getD]

/-- The neighbour one pixel back is the same in every row that agrees below. -/
theorem leftOf_congr {bppb i : Nat} {l m : List Byte} (hb : 1 ≤ bppb)
    (h : ∀ k < i, l.getD k 0 = m.getD k 0) : leftOf bppb l i = leftOf bppb m i := by
  unfold leftOf
  split
  · exact h _ (by omega)
  · rfl

/-- What the reconstruction loop does from `cur` on. -/
theorem defilterFrom_spec {f : PngFilter} {bppb : Nat} {prior : List Byte} (hb : 1 ≤ bppb)
    (ds : List Byte) : ∀ cur : List Byte,
      (defilterFrom f bppb prior ds cur).length = cur.length + ds.length ∧
      (∀ k < cur.length, (defilterFrom f bppb prior ds cur).getD k 0 = cur.getD k 0) ∧
      ∀ k < ds.length, (defilterFrom f bppb prior ds cur).getD (cur.length + k) 0 =
        ds.getD k 0 + predict f (leftOf bppb (defilterFrom f bppb prior ds cur) (cur.length + k))
          (prior.getD (cur.length + k) 0) (leftOf bppb prior (cur.length + k)) := by
  induction ds with
  | nil => intro cur; simp [defilterFrom]
  | cons d ds ih =>
    intro cur
    obtain ⟨v, hv⟩ : ∃ v, v = d + predict f (leftOf bppb cur cur.length)
      (prior.getD cur.length 0) (leftOf bppb prior cur.length) := ⟨_, rfl⟩
    have hstep : defilterFrom f bppb prior (d :: ds) cur =
        defilterFrom f bppb prior ds (cur ++ [v]) := by rw [defilterFrom, hv]
    obtain ⟨hlen, hold, hnew⟩ := ih (cur ++ [v])
    simp only [List.length_append, List.length_cons, List.length_nil] at hlen hold hnew
    rw [hstep]
    refine ⟨by rw [hlen, List.length_cons]; omega, fun k hk => ?_, fun k hk => ?_⟩
    · rw [hold k (by omega), getD_append_left hk]
    · cases k with
      | zero =>
        have hback : leftOf bppb (defilterFrom f bppb prior ds (cur ++ [v])) cur.length =
            leftOf bppb cur cur.length := leftOf_congr hb fun k hk => by
          rw [hold k (by omega), getD_append_left hk]
        rw [Nat.add_zero, hold _ (by omega), getD_append_end, hback]
        exact hv
      | succ k =>
        have h := hnew k (by simpa using hk)
        rwa [show cur.length + (0 + 1) + k = cur.length + (k + 1) by omega] at h

/-- A reconstructed row: its length, and each byte from its already reconstructed neighbours. -/
theorem defilterRow_spec {f : PngFilter} {bppb : Nat} {prior raw : List Byte} (hb : 1 ≤ bppb) :
    (defilterRow f bppb prior raw).length = raw.length ∧
    ∀ k < raw.length, (defilterRow f bppb prior raw).getD k 0 =
      raw.getD k 0 + predict f (leftOf bppb (defilterRow f bppb prior raw) k) (prior.getD k 0)
        (leftOf bppb prior k) := by
  obtain ⟨hlen, -, hnew⟩ := defilterFrom_spec (f := f) (prior := prior) hb raw []
  simp only [List.length_nil, Nat.zero_add] at hlen hnew
  exact ⟨hlen, hnew⟩

/-- What the running sums do from `done` on. -/
theorem sumFrom_spec {nc : Nat} (hn : 1 ≤ nc) (ds : List Byte) : ∀ done : List Byte,
    (sumFrom nc ds done).length = done.length + ds.length ∧
    (∀ k < done.length, (sumFrom nc ds done).getD k 0 = done.getD k 0) ∧
    ∀ k < ds.length, (sumFrom nc ds done).getD (done.length + k) 0 =
      if done.length + k < nc then ds.getD k 0
      else ds.getD k 0 + (sumFrom nc ds done).getD (done.length + k - nc) 0 := by
  induction ds with
  | nil => intro done; simp [sumFrom]
  | cons d ds ih =>
    intro done
    obtain ⟨v, hv⟩ : ∃ v, v = if done.length < nc then d else d + done.getD (done.length - nc) 0 :=
      ⟨_, rfl⟩
    have hstep : sumFrom nc (d :: ds) done = sumFrom nc ds (done ++ [v]) := by rw [sumFrom, hv]
    obtain ⟨hlen, hold, hnew⟩ := ih (done ++ [v])
    simp only [List.length_append, List.length_cons, List.length_nil] at hlen hold hnew
    rw [hstep]
    refine ⟨by rw [hlen, List.length_cons]; omega, fun k hk => ?_, fun k hk => ?_⟩
    · rw [hold k (by omega), getD_append_left hk]
    · cases k with
      | zero =>
        rw [Nat.add_zero, hold _ (by omega), getD_append_end]
        by_cases hlt : done.length < nc
        · simpa [hlt] using hv
        · rw [if_neg hlt, hold (done.length - nc) (by omega), getD_append_left (by omega)]
          simpa [hlt] using hv
      | succ k =>
        have h := hnew k (by simpa using hk)
        rwa [show done.length + (0 + 1) + k = done.length + (k + 1) by omega] at h

/-- A row of differences undone: its length, and each byte from the one NC before it. -/
theorem undoPredictor_spec {nc : Nat} {row : List Byte} (hn : 1 ≤ nc) :
    (undoPredictor nc row).length = row.length ∧
    ∀ k < row.length, (undoPredictor nc row).getD k 0 =
      if k < nc then row.getD k 0 else row.getD k 0 + (undoPredictor nc row).getD (k - nc) 0 := by
  obtain ⟨hlen, -, hnew⟩ := sumFrom_spec hn row []
  simp only [List.length_nil, Nat.zero_add] at hlen hnew
  exact ⟨hlen, hnew⟩

end Sys2Proof.Machine
end

