-- ==== Sys2Proof/Tests/Slice0.lean ====
section
/-! SUPPORT. Tests: an ill-formed term for each check of WellFormed, a word written out from the spec's
encoding for every constructor, the spec's one-step examples, and a witness for the hypotheses of every
statement. Expected values are the spec's; the rule is named beside each. -/

namespace Sys2Proof.Tests

open Sys2Proof Sys2Proof.Machine Sys2Proof.Claims

/-! ### WellFormed refuses -/

theorem test_wf_start_outside_ctrl : (Instr.startDefilter false false).wf .status = false := by decide
theorem test_wf_reserved_op_below_9 : (Instr.startReserved false false 8).wf .ctrl = false := by decide
theorem test_wf_abort_outside_ctrl : (Instr.abort false 0).wf .rle8 = false := by decide
theorem test_wf_ack_clears_nothing : (Instr.ack false false).wf .status = false := by decide
theorem test_wf_ack_outside_status : (Instr.ack true true).wf .ctrl = false := by decide
theorem test_wf_png_row_length : (Instr.pngSub [1, 2]).wf (.png 3) = false := by decide
theorem test_wf_png_illegal_of_legal_byte : (Instr.pngIllegal 4).wf (.png 3) = false := by decide
theorem test_wf_png_illegal_outside_png : (Instr.pngIllegal 5).wf .rle8 = false := by decide
theorem test_wf_rle8_enc_of_zero : (Instr.rle8Enc 0 7).wf .rle8 = false := by decide
theorem test_wf_rle8_eol_in_rle4 : Instr.rle8Eol.wf .rle4 = false := by decide
theorem test_wf_rle8_abs_below_3 : (Instr.rle8Abs 2 [1, 2]).wf .rle8 = false := by decide
theorem test_wf_rle8_abs_data_length : (Instr.rle8Abs 3 [1, 2]).wf .rle8 = false := by decide
theorem test_wf_rle4_enc_of_zero : (Instr.rle4Enc 0 7).wf .rle4 = false := by decide
theorem test_wf_rle4_delta_in_rle8 : (Instr.rle4Delta 0 0).wf .rle8 = false := by decide
theorem test_wf_rle4_abs_below_3 : (Instr.rle4Abs 2 [0x12]).wf .rle4 = false := by decide
theorem test_wf_rle4_abs_data_length : (Instr.rle4Abs 5 [0x12, 0x34]).wf .rle4 = false := by decide
theorem test_wf_literal_length : (Instr.pbLit 2 [1, 2]).wf (.packbits 9) = false := by decide
theorem test_wf_literal_outside_packbits : (Instr.pbLit 0 [1]).wf .rle8 = false := by decide
theorem test_wf_repeat_of_literal_header : (Instr.pbRep 0x80 1).wf (.packbits 9) = false := by decide
theorem test_wf_nop_outside_packbits : Instr.pbNop.wf .rle4 = false := by decide
theorem test_wf_lzw_other_variant :
    (Instr.lzwTiffRoot 1).wf (.lzw .gif 2 3 6 false 0) = false := by decide
theorem test_wf_lzw_code_too_wide :
    (Instr.lzwGifDict 9).wf (.lzw .gif 2 3 12 true 0) = false := by decide
theorem test_wf_lzw_width_above_12 : Instr.lzwTiffClear.wf (.lzw .tiff 8 13 258 false 0) = false := by
  decide
theorem test_wf_root_not_below_clear :
    (Instr.lzwGifRoot 4).wf (.lzw .gif 2 3 6 true 0) = false := by decide
theorem test_wf_dict_without_prev :
    (Instr.lzwGifDict 6).wf (.lzw .gif 2 3 7 false 0) = false := by decide
theorem test_wf_dict_not_below_next :
    (Instr.lzwGifDict 7).wf (.lzw .gif 2 3 7 true 0) = false := by decide
theorem test_wf_kwkwk_not_next :
    (Instr.lzwGifKwkwk 6).wf (.lzw .gif 2 3 7 true 0) = false := by decide
theorem test_wf_invalid_of_valid_code :
    (Instr.lzwGifInvalid 7).wf (.lzw .gif 2 3 7 true 0) = false := by decide
theorem test_wf_invalid_of_clear :
    (Instr.lzwTiffInvalid 256).wf (.lzw .tiff 8 9 258 false 0) = false := by decide
theorem test_wf_unpack_stride : (Instr.unpackRowSub8 [1]).wf (.unpack 8 2) = false := by decide
theorem test_wf_unpack_sub8_of_16 : (Instr.unpackRowSub8 [1]).wf (.unpack 16 1) = false := by decide
theorem test_wf_unpack_16_of_8 : (Instr.unpackRow16 [1]).wf (.unpack 8 1) = false := by decide
theorem test_wf_unpack_32_of_16 : (Instr.unpackRow32 [1]).wf (.unpack 16 1) = false := by decide
theorem test_wf_hpred_outside_hpred : Instr.hpredRow.wf .ctrl = false := by decide

/-! ### Words written out from the encoding tables, one for each constructor -/

/-- R91: START words, IRQ_EN = 0; the word's first byte is bits 7:0 (R64). -/
theorem test_decode_start_words :
    decode .ctrl [0x01, 0, 0, 0] = .instr (.startDefilter false false) ∧
    decode .ctrl [0x11, 0, 0, 0] = .instr (.startAdam7 false false) ∧
    decode .ctrl [0x21, 0, 0, 0] = .instr (.startLzwGif false false) ∧
    decode .ctrl [0x31, 0, 0, 0] = .instr (.startLzwTiff false false) ∧
    decode .ctrl [0x41, 0, 0, 0] = .instr (.startRle8 false false) ∧
    decode .ctrl [0x51, 0, 0, 0] = .instr (.startRle4 false false) ∧
    decode .ctrl [0x61, 0, 0, 0] = .instr (.startPackbits false false) ∧
    decode .ctrl [0x71, 0, 0, 0] = .instr (.startUnpack false false) ∧
    decode .ctrl [0x81, 0, 0, 0] = .instr (.startHpred false false) := by decide

/-- R90: OP 9 and 15 with IRQ_EN; bits 3:2 and 31:9 are ignored (R24). -/
theorem test_decode_reserved_ops :
    decode .ctrl [0x91, 0x01, 0, 0] = .instr (.startReserved true false 9) ∧
    decode .ctrl [0xFF, 0xFE, 0xFF, 0xFF] = .instr (.startReserved false true 15) := by decide

/-- R91: ABORT 0x102 keeps IRQ_EN, ACK is 0x6 written to STATUS; a word with neither bit is none. -/
theorem test_decode_abort_ack :
    decode .ctrl [0x02, 0x01, 0, 0] = .instr (.abort true 0) ∧
    decode .status [0x06, 0, 0, 0] = .instr (.ack true true) ∧
    decode .status [0x04, 0, 0, 0] = .instr (.ack false true) ∧
    decode .ctrl [0x70, 0x01, 0, 0] = .notACommand ∧
    decode .status [0xF9, 0xFF, 0, 0] = .notACommand := by decide

/-- R95: the five filter bytes and the first and last illegal one. -/
theorem test_decode_png :
    decode (.png 1) [0x00, 0xAB] = .instr (.pngNone [0xAB]) ∧
    decode (.png 1) [0x01, 0xAB] = .instr (.pngSub [0xAB]) ∧
    decode (.png 1) [0x02, 0xAB] = .instr (.pngUp [0xAB]) ∧
    decode (.png 1) [0x03, 0xAB] = .instr (.pngAvg [0xAB]) ∧
    decode (.png 1) [0x04, 0xAB] = .instr (.pngPaeth [0xAB]) ∧
    decode (.png 1) [0x05] = .instr (.pngIllegal 5) ∧
    decode (.png 1) [0xFF] = .instr (.pngIllegal 255) := by decide

/-- R96. -/
theorem test_decode_rle8 :
    decode .rle8 [0xFF, 0x07] = .instr (.rle8Enc 255 7) ∧
    decode .rle8 [0x00, 0x00] = .instr .rle8Eol ∧
    decode .rle8 [0x00, 0x01] = .instr .rle8Eob ∧
    decode .rle8 [0x00, 0x02, 0x05, 0x06] = .instr (.rle8Delta 5 6) ∧
    decode .rle8 [0x00, 0x03, 0x01, 0x02, 0x03, 0x99] = .instr (.rle8Abs 3 [1, 2, 3]) := by decide

/-- R97. -/
theorem test_decode_rle4 :
    decode .rle4 [0x05, 0x12] = .instr (.rle4Enc 5 0x12) ∧
    decode .rle4 [0x00, 0x00] = .instr .rle4Eol ∧
    decode .rle4 [0x00, 0x01] = .instr .rle4Eob ∧
    decode .rle4 [0x00, 0x02, 0x05, 0x06] = .instr (.rle4Delta 5 6) ∧
    decode .rle4 [0x00, 0x05, 0x12, 0x34, 0x50, 0x00] = .instr (.rle4Abs 5 [0x12, 0x34, 0x50]) := by
  decide

/-- R98. -/
theorem test_decode_packbits :
    decode (.packbits 9) [0x02, 0x41, 0x42, 0x43] = .instr (.pbLit 2 [0x41, 0x42, 0x43]) ∧
    decode (.packbits 9) [0x81, 0x07] = .instr (.pbRep 0x81 7) ∧
    decode (.packbits 9) [0x80] = .instr .pbNop := by decide

/-- R99, MIN = 2: `8C` is 10001100, so the codes from bits 0 and 3 are 4 (CLEAR) and 1; R147. -/
theorem test_decode_lzw_gif :
    decode (.lzw .gif 2 3 6 false 0) [0x8C] = .instr .lzwGifClear ∧
    decode (.lzw .gif 2 3 6 false 3) [0x8C] = .instr (.lzwGifRoot 1) ∧
    decode (.lzw .gif 2 3 6 true 6) [0x8C, 0x5D] = .instr (.lzwGifKwkwk 6) ∧
    decode (.lzw .gif 2 3 7 true 1) [0x5D] = .instr (.lzwGifDict 6) ∧
    decode (.lzw .gif 2 4 8 true 4) [0x5D] = .instr .lzwGifEoi ∧
    decode (.lzw .gif 2 3 6 true 0) [0x07] = .instr (.lzwGifInvalid 7) := by decide

/-- R100: `80 10 60 20` holds 256, 65 and 257 at width 9; R148. `81 00` holds 258 and
`81 80` 259 at width 9. -/
theorem test_decode_lzw_tiff :
    decode (.lzw .tiff 8 9 258 false 0) [0x80, 0x10] = .instr .lzwTiffClear ∧
    decode (.lzw .tiff 8 9 258 false 1) [0x10, 0x60] = .instr (.lzwTiffRoot 65) ∧
    decode (.lzw .tiff 8 9 258 true 2) [0x60, 0x20] = .instr .lzwTiffEoi ∧
    decode (.lzw .tiff 8 9 258 true 0) [0x81, 0x00] = .instr (.lzwTiffKwkwk 258) ∧
    decode (.lzw .tiff 8 9 259 true 0) [0x81, 0x00] = .instr (.lzwTiffDict 258) ∧
    decode (.lzw .tiff 8 9 258 true 0) [0x81, 0x80] = .instr (.lzwTiffInvalid 259) := by decide

/-- R280: a row of S bytes, its kind selected by BD; HPRED reads nothing (R220). -/
theorem test_decode_unpack_hpred :
    decode (.unpack 2 1) [0x1B] = .instr (.unpackRowSub8 [0x1B]) ∧
    decode (.unpack 16 4) [0x12, 0x34, 0xAB, 0xCD] = .instr (.unpackRow16 [0x12, 0x34, 0xAB, 0xCD]) ∧
    decode (.unpack 32 4) [0xDE, 0xAD, 0xBE, 0xEF] = .instr (.unpackRow32 [0xDE, 0xAD, 0xBE, 0xEF]) ∧
    decode .hpred [] = .instr .hpredRow := by decide

/-- The table's numbering: a command word, a 16-bit element (first byte most significant), a code. -/
theorem test_decode_table_words :
    decodeTableWord 32 0x00000011 = some (.startAdam7 false false) ∧
    decodeTableWord 16 0x0307 = some (.rle8Enc 3 7) ∧
    decodeTableWord 12 0x041 = some (.lzwTiffRoot 65) := by decide +kernel

/-! ### States the tests step from -/

/-- A run of `op` on a 2×2 image of 8-bit samples: input at 0x10, output at 0x40. -/
def running (op : BitVec 4) : State :=
  { State.reset with
    phase := .run, op := op, ctrlOp := op
    srcAddr := 0x10, srcLen := 8, dstAddr := 0x40, dstLen := 16
    width := 2, height := 2, fmt := 0x00020108
    seen := [firstBoundary 0] }

/-- `running` with another width. -/
def wide (op : BitVec 4) (w : Word) : State := { running op with width := w }

/-- A GIF run of MIN = 2, three-bit codes, in the cleared state. -/
def gif : State := { running 2 with w := 3, next := 6 }

/-- The GIF run after code 1. -/
def gifAfterRoot : State := { gif with prev := some 1 }

/-- The GIF run with DICT[6] = (1, 1), prev = 6 and next = 7 (R206). -/
def gifWithEntry : State := { gif with prev := some 6, next := 7, dict := [(6, ⟨1, 1⟩)] }

/-- An ADAM7 run of a 3×3 image in pass `p`. -/
def adam7 (p : BitVec 3) : State := { wide 1 3 with height := 3, p := p, seen := [firstBoundary p] }

/-- Whether an outcome is a next state that `p` holds of. -/
def passes (o : Result) (p : State → Bool) : Bool :=
  match o with
  | .next t => p t
  | _ => false

/-- The bytes of `t` from the output window's first. -/
def output (t : State) (n : Nat) : List Byte := (List.range n).map fun k => t.mem.read (0x40 + k)

/-! ### One step of each instruction -/

/-- R172: prior `10 20`, row `00 05 06` gives `05 06`. -/
theorem test_png_none : passes (exec (.pngNone [0x05, 0x06]) { running 0 with prior := [0x10, 0x20] })
    (fun t => decide (output t 2 = [0x05, 0x06] ∧ t.prior = [0x05, 0x06])) = true := by
  decide

/-- R173: row `01 0A 05` gives `0A 0F`; the cursor, OUT and r move on. -/
theorem test_png_sub : passes (exec (.pngSub [0x0A, 0x05]) (running 0))
    (fun t => decide (output t 2 = [0x0A, 0x0F] ∧ t.bp = 24 ∧ t.out = 2 ∧ t.r = 1)) = true := by
  decide

/-- R174: prior `0A 0F`, row `02 00 00` gives `0A 0F`; here the last row, which completes. -/
theorem test_png_up :
    passes (exec (.pngUp [0, 0]) { running 0 with prior := [0x0A, 0x0F], r := 1 })
      (fun t => decide ((output t 4).drop 2 = [0x0A, 0x0F] ∧ t.done = true ∧ t.phase = .idle)) =
      true := by decide

/-- R175: prior `FF FF`, row `03 01 00` gives `80 BF`. -/
theorem test_png_avg : passes (exec (.pngAvg [0x01, 0x00]) { running 0 with prior := [0xFF, 0xFF] })
    (fun t => decide (output t 2 = [0x80, 0xBF])) = true := by decide

/-- R176: a = 10, b = 20, c = 15 gives predictor 15; byte 0 has predictor b = 15. -/
theorem test_png_paeth :
    passes (exec (.pngPaeth [0xFB, 0x01]) { running 0 with prior := [15, 20] })
      (fun t => decide (output t 2 = [10, 16])) = true := by decide

/-- R177: row `05 00` faults E_FILTER with FINFO = 5, FADDR the filter byte's offset. -/
theorem test_png_illegal : passes (exec (.pngIllegal 5) { running 0 with bp := 24, r := 1 })
    (fun t => decide (t.fcode = 5 ∧ t.finfo = 5 ∧ t.faddr = 3 ∧ t.fault = true ∧ t.phase = .idle ∧
      t.bp = 24 ∧ t.r = 1)) = true := by decide

/-- R306: pass 5's row `c d` lands at (0, 2) and (2, 2), and pass 6 is entered. -/
theorem test_adam7_row : passes (exec (.pngNone [3, 4]) (adam7 5))
    (fun t => decide (output t 9 = [0, 0, 0, 0, 0, 0, 3, 0, 4] ∧ t.p = 6 ∧ t.r = 0 ∧ t.out = 2)) =
    true := by decide

/-- R242: W = 4, `03 07` writes 07 at x = 0, 1, 2. -/
theorem test_rle8_enc : passes (exec (.rle8Enc 3 7) (wide 4 4))
    (fun t => decide (output t 4 = [7, 7, 7, 0] ∧ t.x = 3 ∧ t.out = 3 ∧ t.ovf = false)) = true := by
  decide

/-- R241: a run past the right edge drops the rest with OVF, x saturating at W. -/
theorem test_rle8_enc_clipped : passes (exec (.rle8Enc 3 7) { wide 4 4 with x := 3 })
    (fun t => decide (output t 5 = [0, 0, 0, 7, 0] ∧ t.x = 4 ∧ t.out = 1 ∧ t.ovf = true)) = true := by
  decide

/-- R243: at (3, 0), EOL moves to (0, 1). -/
theorem test_rle8_eol : passes (exec .rle8Eol { wide 4 4 with x := 3 })
    (fun t => decide (t.x = 0 ∧ t.y = 1 ∧ t.bp = 16)) = true := by decide

/-- R244: EOB as the first element completes with OUT = 0 and no SHORT. -/
theorem test_rle8_eob : passes (exec .rle8Eob (running 4))
    (fun t => decide (t.done = true ∧ t.phase = .idle ∧ t.short = false ∧ t.out = 0)) = true := by
  decide

/-- R245: at (1, 0), `00 02 02 01` moves to (3, 1). -/
theorem test_rle8_delta : passes (exec (.rle8Delta 2 1) { wide 4 4 with x := 1 })
    (fun t => decide (t.x = 3 ∧ t.y = 1 ∧ t.bp = 32)) = true := by decide

/-- R246: W = 4, `00 03 01 02 03 00` writes `01 02 03` and consumes 6 bytes. -/
theorem test_rle8_abs : passes (exec (.rle8Abs 3 [1, 2, 3]) (wide 4 4))
    (fun t => decide (output t 4 = [1, 2, 3, 0] ∧ t.bp = 48)) = true := by decide

/-- R247: W = 5, `05 12` writes `01 02 01 02 01`. -/
theorem test_rle4_enc : passes (exec (.rle4Enc 5 0x12) (wide 5 5))
    (fun t => decide (output t 5 = [1, 2, 1, 2, 1])) = true := by decide

/-- R243 in RLE4, on the last row: y saturates at H. -/
theorem test_rle4_eol : passes (exec .rle4Eol { running 5 with x := 2, y := 2 })
    (fun t => decide (t.x = 0 ∧ t.y = 2)) = true := by decide

/-- R244 in RLE4. -/
theorem test_rle4_eob : passes (exec .rle4Eob (running 5))
    (fun t => decide (t.done = true ∧ t.bp = 16)) = true := by decide

/-- R245 in RLE4: x saturates at W, and is not reset. -/
theorem test_rle4_delta : passes (exec (.rle4Delta 255 0) { running 5 with x := 1 })
    (fun t => decide (t.x = 2 ∧ t.y = 0)) = true := by decide

/-- R248: `00 03 12 30` writes `01 02 03` and consumes 4 bytes; with VFLIP on the last stored row. -/
theorem test_rle4_abs :
    passes (exec (.rle4Abs 3 [0x12, 0x30]) { wide 5 4 with fmt := 0x01000000 })
      (fun t => decide (output t 8 = [0, 0, 0, 0, 1, 2, 3, 0] ∧ t.bp = 32)) = true := by
  decide

/-- R250: `02 41 42 43` emits `41 42 43`. -/
theorem test_pb_lit : passes (exec (.pbLit 2 [0x41, 0x42, 0x43]) (running 6))
    (fun t => decide (output t 3 = [0x41, 0x42, 0x43] ∧ t.out = 3 ∧ t.ovf = false ∧ t.bp = 32)) =
    true := by decide

/-- R250: a packet cut at OUTSZ reads only the bytes that fit, sets OVF and completes. -/
theorem test_pb_lit_cut : passes (exec (.pbLit 2 [0x41]) { running 6 with out := 15 })
    (fun t => decide (t.out = 16 ∧ t.ovf = true ∧ t.done = true ∧ t.bp = 16)) = true := by
  decide

/-- R251: `FE AA` emits `AA AA AA`. -/
theorem test_pb_rep : passes (exec (.pbRep 0xFE 0xAA) (running 6))
    (fun t => decide (output t 4 = [0xAA, 0xAA, 0xAA, 0] ∧ t.out = 3)) = true := by decide

/-- R252. -/
theorem test_pb_nop : passes (exec .pbNop (running 6))
    (fun t => decide (t.bp = 8 ∧ t.out = 0 ∧ t.phase = .run)) = true := by decide

/-- R204: after CLEAR, code 1 emits `01` and sets prev = 1, with next still 6. -/
theorem test_lzw_gif_root : passes (exec (.lzwGifRoot 1) gif)
    (fun t => decide (output t 1 = [1] ∧ t.prev = some 1 ∧ t.next = 6 ∧ t.bp = 3)) = true := by
  decide

/-- R202. -/
theorem test_lzw_gif_clear : passes (exec .lzwGifClear { gifWithEntry with w := 12 })
    (fun t => decide (t.w = 3 ∧ t.next = 6 ∧ t.prev = none ∧ t.bp = 12)) = true := by decide

/-- R208: EOI before the output is full sets SHORT. -/
theorem test_lzw_gif_eoi : passes (exec .lzwGifEoi gif)
    (fun t => decide (t.done = true ∧ t.short = true ∧ t.out = 0)) = true := by decide

/-- R206, R205: code 6 emits `01 01` and adds DICT[7] = (6, 1); next = 8 raises w to 4. -/
theorem test_lzw_gif_dict : passes (exec (.lzwGifDict 6) gifWithEntry)
    (fun t => decide (output t 2 = [1, 1] ∧ t.dict.read 7 = ⟨6, 1⟩ ∧ t.next = 8 ∧ t.w = 4)) = true := by
  decide

/-- R207: prev = 1, next = 6, code 6 emits `01 01` and adds DICT[6] = (1, 1). -/
theorem test_lzw_gif_kwkwk : passes (exec (.lzwGifKwkwk 6) gifAfterRoot)
    (fun t => decide (output t 2 = [1, 1] ∧ t.dict.read 6 = ⟨1, 1⟩ ∧ t.prev = some 6)) = true := by
  decide

/-- R209: after CLEAR, code 7 faults with FINFO = 7. -/
theorem test_lzw_gif_invalid : passes (exec (.lzwGifInvalid 7) gif)
    (fun t => decide (t.fcode = 6 ∧ t.finfo = 7 ∧ t.fault = true ∧ t.phase = .idle)) = true := by
  decide

/-- R213: with w = 9 and next = 510, the entry that makes next = 511 raises w to 10. -/
theorem test_lzw_tiff_root :
    passes (exec (.lzwTiffRoot 65) { running 3 with w := 9, next := 510, prev := some 66 })
      (fun t => decide (t.next = 511 ∧ t.w = 10 ∧ output t 1 = [65])) = true := by decide

/-- R202 in TIFF. -/
theorem test_lzw_tiff_clear : passes (exec .lzwTiffClear { running 3 with w := 12, next := 4096 })
    (fun t => decide (t.w = 9 ∧ t.next = 258)) = true := by decide

/-- R208: with the output one byte short of full. -/
theorem test_lzw_tiff_eoi : passes (exec .lzwTiffEoi { running 3 with w := 9, out := 15 })
    (fun t => decide (t.short = true ∧ t.done = true ∧ t.bp = 9)) = true := by decide

/-- R211: a full dictionary takes nothing, and prev still advances. -/
theorem test_lzw_tiff_dict : passes (exec (.lzwTiffDict 258) { running 3 with
      w := 12, next := 4096, prev := some 66, dict := [(258, ⟨65, 66⟩)] })
    (fun t => decide (output t 2 = [65, 66] ∧ t.next = 4096 ∧ t.w = 12 ∧ t.prev = some 258)) =
    true := by decide

/-- R207 in TIFF. -/
theorem test_lzw_tiff_kwkwk :
    passes (exec (.lzwTiffKwkwk 258) { running 3 with w := 9, next := 258, prev := some 65 })
      (fun t => decide (output t 2 = [65, 65] ∧ t.dict.read 258 = ⟨65, 65⟩)) = true := by decide

/-- R209 in TIFF. -/
theorem test_lzw_tiff_invalid : passes (exec (.lzwTiffInvalid 300) { running 3 with bp := 9 })
    (fun t => decide (t.finfo = 300 ∧ t.faddr = 1)) = true := by decide

/-- R281: BD = 2, byte `1B` gives `00 01 02 03`. -/
theorem test_unpack_sub8 : passes (exec (.unpackRowSub8 [0x1B]) { wide 7 4 with fmt := 0x102 })
    (fun t => decide (output t 4 = [0, 1, 2, 3] ∧ t.out = 4 ∧ t.r = 1)) = true := by decide

/-- R282: `12 34 AB CD` gives `12 AB` with LE = 0. -/
theorem test_unpack_16 :
    passes (exec (.unpackRow16 [0x12, 0x34, 0xAB, 0xCD]) { running 7 with fmt := 0x110 })
      (fun t => decide (output t 2 = [0x12, 0xAB])) = true := by decide

/-- R283: `DE AD BE EF` gives `EF` with LE = 1. -/
theorem test_unpack_32 :
    passes (exec (.unpackRow32 [0xDE, 0xAD, 0xBE, 0xEF]) { wide 7 1 with fmt := 0x02000120 })
      (fun t => decide (output t 1 = [0xEF])) = true := by decide

/-- R220: NC = 3, W = 2, row `0A 14 1E 01 02 03` becomes `0A 14 1E 0B 16 21`. -/
theorem test_hpred_row : passes (exec .hpredRow { running 8 with
      fmt := 0x308
      mem := [(0x40, 0x0A), (0x41, 0x14), (0x42, 0x1E), (0x43, 0x01), (0x44, 0x02), (0x45, 0x03)] })
    (fun t => decide (output t 6 = [0x0A, 0x14, 0x1E, 0x0B, 0x16, 0x21] ∧ t.bp = 0 ∧ t.r = 1)) =
    true := by decide

/-- R362: with reset values a START of OP 0 faults E_BAD_PARAM with FINFO = 2. -/
theorem test_start_from_reset : passes (exec (.startDefilter false false) State.reset)
    (fun t => decide (t.fcode = 2 ∧ t.finfo = 2 ∧ t.fault = true ∧ t.phase = .idle)) = true := by
  decide

/-- R137: a START that zero-fills. -/
theorem test_start_rle8 :
    passes (exec (.startRle8 true false) { running 4 with phase := .idle, mem := [(0x42, 9), (0x44, 7)] })
      (fun t => decide (t.phase = .run ∧ t.irqEn = true ∧ output t 5 = [0, 0, 0, 0, 7])) = true := by
  decide

/-- R302: START of ADAM7 enters pass 1. -/
theorem test_start_adam7 : passes (exec (.startAdam7 false false) { adam7 0 with phase := .idle })
    (fun t => decide (t.phase = .run ∧ t.p = 1)) = true := by decide

/-- R201: START of LZW. -/
theorem test_start_lzw :
    passes (exec (.startLzwGif false false) { gifWithEntry with phase := .idle })
      (fun t => decide (t.w = 3 ∧ t.next = 6 ∧ t.prev = none ∧ t.dict = [(6, ⟨1, 1⟩)])) = true ∧
    passes (exec (.startLzwTiff false false) { running 3 with phase := .idle })
      (fun t => decide (t.w = 9 ∧ t.next = 258)) = true := by decide

/-- R135 check 4 of HPRED, and check 12. -/
theorem test_start_checks :
    passes (exec (.startHpred false false) { running 8 with phase := .idle, fmt := 0x110 })
      (fun t => decide (t.fcode = 2 ∧ t.finfo = 4)) = true ∧
    passes (exec (.startUnpack false false) { running 7 with phase := .idle, dstAddr := 0x17 })
      (fun t => decide (t.fcode = 3 ∧ t.finfo = 12)) = true := by decide

/-- R154, R155. -/
theorem test_abort_ack : passes (exec (.abort true 9) (running 0))
      (fun t => decide (t.abortReq = true ∧ t.irqEn = true ∧ t.ctrlOp = 0)) = true ∧
    passes (exec (.ack true false) { State.reset with done := true, fcode := 4 })
      (fun t => decide (t.done = false ∧ t.fcode = 4)) = true := by decide

/-- R131: after reset `rd ID` returns 0x50585231. -/
theorem test_step_reads_id : passes (step { State.reset with host := [⟨0, .read 0x10000 4⟩] })
    (fun t => decide (t.returned = [0x50585231] ∧ t.host = [])) = true := by decide

/-- R65: the value of a wide access is little-endian. -/
theorem test_host_value_order : splitBytes 4 0x11223344 = [0x44, 0x33, 0x22, 0x11] ∧
    joinBytes [0x44, 0x33, 0x22, 0x11] = 0x11223344 := by decide

/-- R65: where the register block follows the memory, an access of the memory's last four bytes and
the first register is refused; the two accesses it is made of are not. -/
theorem test_region_across_spaces :
    let p : Params := { Config.params with regBase := 4096 }
    p.wf = true ∧ regionOf p 4092 8 = .malformed ∧ regionOf p 4092 4 = .memory 4092 ∧
    regionOf p 4096 4 = .register 0 ∧ regionOf p 4096 8 = .malformed ∧ regionOf p 4352 4 = .outside := by
  decide

/-- R24: a CTRL write with neither START nor ABORT while BUSY = 1 writes IRQ_EN and leaves OP. -/
theorem test_plain_ctrl_write :
    passes (step { running 4 with host := [⟨0, .write 0x10004 4 0x170⟩] })
      (fun t => decide (t.irqEn = true ∧ t.ctrlOp = 4 ∧ t.phase = .run)) = true ∧
    passes (step { State.reset with host := [⟨0, .write 0x10004 4 0x170⟩] })
      (fun t => decide (t.irqEn = true ∧ t.ctrlOp = 7)) = true := by decide

/-- The table word of R96 `03 07` is fetched and run by the next step after reset. -/
theorem test_step_runs_table_word : passes (step (State.reset.withFetchWord 16 0x0307))
    (fun t => decide (t.bp = 16 ∧ t.op = 4)) = true := by decide +kernel

/-! ### Witnesses: states and operands that meet a statement's hypotheses -/

/-- What `passes` says. -/
theorem passes_next {o : Result} {p : State → Bool} (h : passes o p = true) :
    ∃ t, o = .next t ∧ p t = true := by
  cases o with
  | next t => exact ⟨t, rfl, h⟩
  | fault f => simp [passes] at h
  | refused r => simp [passes] at h

/-- The invariant of a state with no LZW operation running. -/
theorem inv_of {s : State} (hp : s.params.wf = true) (hm : memoryOk s = true)
    (hb : buffersOk s = true) (hs : statusOk s = true)
    (hr : s.busy = false ∨ (startFault s = none ∧ progressOk s = true ∧ seenOk s = true ∧
      s.op.toNat ≠ 2 ∧ s.op.toNat ≠ 3)) : Inv s where
  params := hp
  memory := hm
  buffers := hb
  status := hs
  checked := fun h => by rcases hr with hr | hr <;> simp_all
  progress := fun h => by rcases hr with hr | hr <;> simp_all
  seen := fun h => by rcases hr with hr | hr <;> simp_all
  lzw := fun h h2 => by rcases hr with hr | hr <;> simp_all

/-- A PackBits run is in the invariant. -/
theorem inv_packbits : Inv (running 6) :=
  inv_of (by decide) (by decide) (by decide) (by decide) (.inr (by decide))

/-- An HPRED run is in the invariant. -/
theorem inv_hpred : Inv (running 8) :=
  inv_of (by decide) (by decide) (by decide) (by decide) (.inr (by decide))

/-- The LZW state after one root code is in form. -/
theorem lzwOk_gifAfterRoot : LzwOk gifAfterRoot where
  width_low := by decide
  width_high := by decide
  next_low := by decide
  next_high := by decide
  next_fits := fun _ => by decide
  prev_known := fun p hp => by
    obtain rfl : 1 = p := by simpa [gifAfterRoot] using hp
    exact .inl (by decide)
  prev_none := fun h => by simp [gifAfterRoot] at h
  entry_known := fun e h1 h2 => by
    have : 6 ≤ e := h1
    have : e < 6 := h2
    omega

/-- The LZW state with one entry is in form. -/
theorem lzwOk_gifWithEntry : LzwOk gifWithEntry where
  width_low := by decide
  width_high := by decide
  next_low := by decide
  next_high := by decide
  next_fits := fun _ => by decide
  prev_known := fun p hp => by
    obtain rfl : 6 = p := by simpa [gifWithEntry] using hp
    exact .inr (by decide)
  prev_none := fun h => by simp [gifWithEntry] at h
  entry_known := fun e h1 h2 => by
    have h3 : 6 ≤ e := h1
    have h4 : e < 7 := h2
    obtain rfl : e = 6 := by omega
    exact ⟨.inl (by decide), by decide⟩

/-- An LZW run is in the invariant. -/
theorem inv_gifAfterRoot : Inv gifAfterRoot where
  params := by decide
  memory := by decide
  buffers := by decide
  status := by decide
  checked := fun _ => by decide
  progress := fun _ => by decide
  seen := fun _ => by decide
  lzw := fun _ _ => lzwOk_gifAfterRoot

theorem witness_DecodeEncodeRoundTrip :
    (Instr.rle8Abs 255 (List.replicate 255 1)).wf .rle8 = true ∧
    (Instr.lzwTiffDict 4095).wf (.lzw .tiff 8 12 4096 true 7) = true ∧
    (Instr.pbLit 127 []).wf (.packbits 0) = true ∧
    (Instr.startReserved true true 15).wf .ctrl = true := by decide +kernel

theorem witness_DecodedInstructionIsWellFormed :
    ∃ (c : Ctx) (bs : List Byte) (i : Instr),
      (∀ kind min w next hasPrev bit, c = .lzw kind min w next hasPrev bit → w ≤ 12) ∧
      decode c bs = .instr i :=
  ⟨.lzw .gif 2 12 6 false 0, [0x04, 0x00], .lzwGifClear,
    fun _ _ _ _ _ _ h => by injection h; omega, by decide⟩

theorem witness_ProperBeginningIsTruncated :
    Instr.rle8Eol.wf .rle8 = true ∧ 1 < (encode .rle8 Instr.rle8Eol).length := by decide

theorem witness_IllegalFilterByteFoundFirst : 4 < (5 : Byte).toNat ∧ 4 < (255 : Byte).toNat := by
  decide

theorem witness_PackbitsHeaderClasses :
    (0 ≤ (0x7F : Byte).toInt ∧ ([] : List Byte).length = min ((0x7F : Byte).toInt.toNat + 1) 0) ∧
    (0 ≤ (0x00 : Byte).toInt ∧ [(9 : Byte)].length = min ((0x00 : Byte).toInt.toNat + 1) 5) ∧
    (-127 ≤ (0x81 : Byte).toInt ∧ (0x81 : Byte).toInt ≤ -1) ∧
    (-127 ≤ (0xFF : Byte).toInt ∧ (0xFF : Byte).toInt ≤ -1) ∧
    (0x80 : Byte).toInt = -128 := by decide

/-- An RLE8 run whose next element is EOL: memory reads 0. -/
theorem witness_StepRunsDecodedInstruction_element :
    engineTurn (running 4) = true ∧ (running 4).abortReq = false ∧ (running 4).inputExists = true ∧
    (running 4).ctx = some .rle8 ∧ decode .rle8 (running 4).input = .instr .rle8Eol ∧
    Instr.rle8Eol.wf .rle8 = true := by decide

theorem witness_StepRunsDecodedInstruction_ctrl : ∃ s rest,
    hostTurn s (writeOf s 0x04 2) rest ∧ decode .ctrl (leBytes 2) = .instr (.abort false 0) ∧
    (Instr.abort false 0).wf .ctrl = true :=
  ⟨{ running 4 with host := [⟨0, .write 0x10004 4 2⟩] }, [], ⟨0, rfl, .inr rfl⟩, by decide, by decide⟩

theorem witness_StepRunsDecodedInstruction_status : ∃ s rest,
    hostTurn s (writeOf s 0x08 6) rest ∧ decode .status (leBytes 6) = .instr (.ack true true) ∧
    (Instr.ack true true).wf .status = true :=
  ⟨{ State.reset with host := [⟨3, .write 0x10008 4 6⟩] }, [], ⟨3, rfl, .inl rfl⟩,
    by decide, by decide⟩

theorem witness_AbortTestedFirst :
    engineTurn { running 4 with abortReq := true } = true ∧ (running 4).mem.wf = true ∧
    State.reset.phase = .idle := by decide

theorem witness_TruncatedElementFaults :
    engineTurn { running 4 with bp := 56 } = true ∧
    State.inputExists { running 4 with bp := 56 } = true ∧
    State.ctx { running 4 with bp := 56 } = some .rle8 ∧
    decode .rle8 (State.input { running 4 with bp := 56 }) = .truncated ∧
    (running 4).abortReq = false ∧ (running 4).mem.wf = true := by decide

theorem witness_IdleMachineStays : State.reset.phase = .idle ∧ State.reset.host = [] := by decide

theorem witness_IllegalElementsFault : (running 0).mem.wf = true := by decide

theorem witness_StartReservedFaultsBadOp :
    State.reset.phase = .idle ∧ 9 ≤ (9 : BitVec 4).toNat ∧ 9 ≤ (15 : BitVec 4).toNat := by decide

/-- Check 2 at W = 0 and at W = MAX_DIM + 1, check 1, and check 12. -/
theorem witness_StartReportsFirstFailingCheck :
    State.reset.phase = .idle ∧
    (failing (cleared 0 false State.reset)).map Check.info = some 2 ∧
    (failing (cleared 4 false { State.reset with width := 65536 })).map Check.info = some 2 ∧
    (failing (cleared 9 false State.reset)).map Check.info = some 9 ∧
    (failing (cleared 7 false { running 7 with dstAddr := 0x17 })).map Check.info = some 12 := by
  decide

theorem witness_StartRowOperationsBegin : State.phase { running 0 with phase := .idle } = .idle ∧
    (failing (cleared 0 false { running 0 with phase := .idle })).isNone = true ∧
    (failing (cleared 7 false { running 0 with phase := .idle })).isNone = true ∧
    (failing (cleared 8 false { running 0 with phase := .idle })).isNone = true := by decide

theorem witness_StartZeroFillingOperationsBegin :
    State.phase { running 0 with phase := .idle } = .idle ∧ (running 0).mem.wf = true ∧
    (failing (cleared 1 false { running 0 with phase := .idle })).isNone = true ∧
    (failing (cleared 4 false { running 0 with phase := .idle })).isNone = true ∧
    (failing (cleared 5 false { running 0 with phase := .idle })).isNone = true := by decide

theorem witness_StartSequentialOperationsBegin :
    State.phase { running 0 with phase := .idle } = .idle ∧
    (failing (cleared 2 false { running 0 with phase := .idle })).isNone = true ∧
    (failing (cleared 3 false { running 0 with phase := .idle })).isNone = true ∧
    (failing (cleared 6 false { running 0 with phase := .idle })).isNone = true := by decide

theorem witness_StartWhileBusyIsIgnored : (running 4).phase = .run := by decide

theorem witness_AbortSetsLatch : (running 4).phase = .run ∧ State.reset.phase = .idle := by decide

/-- `rowsOk` is decided by its parts. -/
theorem rowsOk_of {n : Nat} {s : State} (h : s.mem.wf = true ∧ s.r.toNat < s.height.toNat ∧
    s.dstAddr.toNat + s.height.toNat * n ≤ s.params.memSize) : rowsOk n s := h

/-- The first row and the last one. -/
theorem witness_DefilterRowWrites : (running 0).op = 0 ∧ [0x0A, 0x05].length = (running 0).rb ∧
    rowsOk (running 0).rb (running 0) ∧ rowsOk (running 0).rb { running 0 with r := 1 } :=
  ⟨by decide, by decide, rowsOk_of (by decide), rowsOk_of (by decide)⟩

/-- Pass 5, a row of two pixels. -/
theorem witness_Adam7RowScatters : (adam7 5).op = 1 ∧ 1 ≤ (adam7 5).p.toNat ∧
    [3, 4].length = (adam7 5).passRowBytes (adam7 5).p.toNat ∧
    (adam7 5).r.toNat < (adam7 5).passH (adam7 5).p.toNat ∧ (adam7 5).mem.wf = true ∧
    (adam7 5).dstAddr.toNat + (adam7 5).height.toNat * (adam7 5).rb ≤ (adam7 5).params.memSize := by
  decide

theorem witness_PassClassesPartitionGrid : 1 ≤ 1 ∧ 1 ≤ 7 ∧ 7 ≤ 7 := by decide

theorem witness_PassSizesAddUpAndFit :
    0 < (running 1).width.toNat ∧ 0 < (running 1).height.toNat := by decide

theorem witness_FilterInverted : (running 0).op = 0 ∧ [0x0A, 0x0F].length = (running 0).rb ∧
    rowsOk (running 0).rb (running 0) := ⟨by decide, by decide, rowsOk_of (by decide)⟩

/-- x = 0, and x = W on the row after the last. -/
theorem witness_Rle8RunsPlacePixels : pixelsOk (running 4) ∧
    pixelsOk { running 4 with x := 2, y := 2 } ∧ [1, 2, 3].length = (3 : Byte).toNat := by
  refine ⟨?_, ?_, by decide⟩ <;> unfold pixelsOk <;> decide

theorem witness_Rle4RunsPlacePixels : pixelsOk (running 5) ∧
    pixelsOk { running 5 with x := 2, y := 2 } ∧ [0x12, 0x30].length = divCeil (3 : Byte).toNat 2 := by
  refine ⟨?_, ?_, by decide⟩ <;> unfold pixelsOk <;> decide

/-- Room for the packet, and one byte of room. -/
theorem witness_PackbitsLiteralEmits : (running 6).op = 6 ∧ sequentialOk (running 6) ∧
    sequentialOk { running 6 with out := 15 } ∧ [1, 2, 3].length = kept (running 6) (2 + 1) ∧
    [1].length = kept { running 6 with out := 15 } (127 + 1) := by
  refine ⟨by decide, ?_, ?_, by decide, by decide⟩ <;> unfold sequentialOk <;> decide

theorem witness_PackbitsRepeatEmits : (running 6).op = 6 ∧ sequentialOk (running 6) ∧
    (0x81 : Byte).toInt < 0 ∧ (0xFF : Byte).toInt < 0 := by
  refine ⟨by decide, ?_, by decide, by decide⟩
  unfold sequentialOk
  decide

theorem witness_PackbitsNopConsumesHeader :
    (running 6).op = 6 ∧ (running 6).out.toNat < (running 6).dstLen.toNat := by decide

/-- Both variants, before and after a first code. -/
theorem witness_LzwRootEmitsAndLearns : gif.op = lzwOp .gif ∧ sequentialOk gif ∧
    sequentialOk gifAfterRoot ∧ sparseWf emptyEntry gif.dict = true ∧
    (running 3).op = lzwOp .tiff ∧ sequentialOk (running 3) := by
  refine ⟨by decide, ?_, ?_, by decide, by decide, ?_⟩ <;> unfold sequentialOk <;> decide

theorem witness_LzwDictEmitsAndLearns : gifWithEntry.op = lzwOp .gif ∧ sequentialOk gifWithEntry ∧
    sparseWf emptyEntry gifWithEntry.dict = true := by
  refine ⟨by decide, ?_, by decide⟩
  unfold sequentialOk
  decide

theorem witness_LzwKwkwkEmitsAndLearns : gifAfterRoot.op = lzwOp .gif ∧
    sequentialOk gifAfterRoot ∧ sparseWf emptyEntry gifAfterRoot.dict = true ∧
    gifAfterRoot.prev = some 1 := by
  refine ⟨by decide, ?_, by decide, by decide⟩
  unfold sequentialOk
  decide

theorem witness_LzwKwkwkDefinesItsString : ∃ t, gifAfterRoot.op = lzwOp .gif ∧ LzwOk gifAfterRoot ∧
    sparseWf emptyEntry gifAfterRoot.dict = true ∧ gifAfterRoot.prev = some 1 ∧
    (6 : BitVec 12).toNat = gifAfterRoot.next.toNat ∧
    exec (kwkwkInstr .gif 6) gifAfterRoot = .next t := by
  obtain ⟨t, ht, -⟩ := passes_next (o := exec (kwkwkInstr .gif 6) gifAfterRoot)
    (p := fun t => decide (t.next = 7)) (by decide)
  exact ⟨t, by decide, lzwOk_gifAfterRoot, by decide, by decide, by decide, ht⟩

/-- The last root code, and the one entry. -/
theorem witness_LzwStringUnfolds : gifWithEntry.op = lzwOp .gif ∧ LzwOk gifWithEntry ∧
    (3 : BitVec 12).toNat < 2 ^ Claims.lzwMin .gif gifWithEntry ∧
    2 ^ Claims.lzwMin .gif gifWithEntry + 2 ≤ (6 : BitVec 12).toNat ∧
    (6 : BitVec 12).toNat < gifWithEntry.next.toNat :=
  ⟨by decide, lzwOk_gifWithEntry, by decide, by decide, by decide⟩

theorem witness_LzwClearResetsDecoder :
    gif.op = lzwOp .gif ∧ gif.out.toNat < gif.dstLen.toNat ∧ (running 3).op = lzwOp .tiff := by decide

theorem witness_LzwEoiEndsOperation : gif.op = lzwOp .gif ∧ (running 3).op = lzwOp .tiff := by decide

/-- BD = 8 and BD = 1. -/
theorem witness_UnpackSub8Row : (running 7).op = 7 ∧ (running 7).bd ∈ [1, 2, 4, 8] ∧
    [1, 2].length = (running 7).stride ∧ rowsOk ((running 7).width.toNat * (running 7).nc) (running 7) ∧
    State.bd { running 7 with fmt := 0x101 } ∈ [1, 2, 4, 8] ∧
    [1].length = State.stride { running 7 with fmt := 0x101 } :=
  ⟨by decide, by decide, by decide, rowsOk_of (by decide), by decide, by decide⟩

theorem witness_UnpackWideRow :
    State.bd { running 7 with fmt := 0x110 } = 16 ∧
    [1, 2, 3, 4].length = State.stride { running 7 with fmt := 0x110 } ∧
    rowsOk 2 { running 7 with fmt := 0x110 } ∧
    State.bd { running 7 with fmt := 0x120, r := 1 } = 32 ∧
    [1, 2, 3, 4, 5, 6, 7, 8].length = State.stride { running 7 with fmt := 0x120, r := 1 } ∧
    rowsOk 2 { running 7 with fmt := 0x120, r := 1 } :=
  ⟨by decide, by decide, rowsOk_of (by decide), by decide, by decide, rowsOk_of (by decide)⟩

theorem witness_HpredRowSums : (running 8).op = 8 ∧ 1 ≤ (running 8).nc ∧
    rowsOk ((running 8).width.toNat * (running 8).nc) (running 8) :=
  ⟨by decide, by decide, rowsOk_of (by decide)⟩

theorem witness_ResetRegistersRead : 0 < 256 ∧ 0 % 4 = 0 ∧ 252 < 256 ∧ 252 % 4 = 0 := by decide

/-- RLE, row and sequential operations; the first and last reserved offset; a read of FINFO. -/
theorem witness_StatusAndControlBits : ∃ s : State, (running 4).op ∈ [4, 5] ∧
    (running 0).op ∈ [0, 1, 7, 8] ∧ (running 6).op ∈ [2, 3, 6] ∧ 0x48 ≤ 0x48 ∧ 0x48 ≤ 0xFC ∧
    hostTurn s (readOf s 0x44) [] ∧ s.phase = .idle ∧ 0x44 < 256 ∧ 0x44 % 4 = 0 :=
  ⟨{ State.reset with host := [⟨0, .read 0x10044 4⟩] }, by decide, by decide, by decide, by decide,
    by decide, ⟨0, rfl, .inl rfl⟩, rfl, by decide, by decide⟩

/-- The first operand register and FMT, with an all-ones value. -/
theorem witness_OperandWriteReadsBack : ∃ s t : State, s.phase = .idle ∧ t.phase = .idle ∧
    0x0C ∈ operandOffsets ∧ 0x24 ∈ operandOffsets ∧
    s.host = ⟨0, writeOf s 0x0C 7⟩ :: ⟨0, readOf s 0x0C⟩ :: [] ∧
    t.host = ⟨0, writeOf t 0x24 0xFFFFFFFF⟩ :: ⟨0, readOf t 0x24⟩ :: [] :=
  ⟨{ State.reset with host := [⟨0, .write 0x1000C 4 7⟩, ⟨0, .read 0x1000C 4⟩] },
    { State.reset with host := [⟨0, .write 0x10024 4 0xFFFFFFFF⟩, ⟨0, .read 0x10024 4⟩] },
    rfl, rfl, by decide, by decide, rfl, rfl⟩

/-- WIDTH while BUSY = 1; ID and the last reserved offset while idle. -/
theorem witness_OtherRegisterWritesIgnored : ∃ s t u : State,
    hostTurn s (writeOf s 0x1C 1) [] ∧ s.phase = .run ∧
    hostTurn t (writeOf t 0x00 1) [] ∧ 0x00 ∉ operandOffsets ∧
    hostTurn u (writeOf u 0xFC 1) [] ∧ 0xFC ∉ operandOffsets :=
  ⟨{ running 4 with host := [⟨0, .write 0x1001C 4 1⟩] },
    { State.reset with host := [⟨0, .write 0x10000 4 1⟩] },
    { State.reset with host := [⟨0, .write 0x100FC 4 1⟩] },
    ⟨0, rfl, .inr rfl⟩, rfl, ⟨0, rfl, .inl rfl⟩, by decide, ⟨0, rfl, .inl rfl⟩, by decide⟩

/-- CTRL words with no command, idle and busy; a STATUS word with every other bit set. -/
theorem witness_OtherRegisterWritesIgnored_plain : ∃ s t u : State,
    hostTurn s (writeOf s 0x04 0x170) [] ∧ s.phase = .run ∧
    hostTurn t (writeOf t 0x04 0xFFFFFFFC) [] ∧ t.phase = .idle ∧
    (0x170 : Word).getLsbD 0 = false ∧ (0x170 : Word).getLsbD 1 = false ∧
    (0xFFFFFFFC : Word).getLsbD 0 = false ∧ (0xFFFFFFFC : Word).getLsbD 1 = false ∧
    hostTurn u (writeOf u 0x08 0xFFFFFFF9) [] ∧
    (0xFFFFFFF9 : Word).getLsbD 1 = false ∧ (0xFFFFFFF9 : Word).getLsbD 2 = false :=
  ⟨{ running 4 with host := [⟨0, .write 0x10004 4 0x170⟩] },
    { State.reset with host := [⟨0, .write 0x10004 4 0xFFFFFFFC⟩] },
    { State.reset with host := [⟨0, .write 0x10008 4 0xFFFFFFF9⟩] },
    ⟨0, rfl, .inr rfl⟩, rfl, ⟨0, rfl, .inl rfl⟩, rfl, by decide, by decide, by decide, by decide,
    ⟨0, rfl, .inl rfl⟩, by decide, by decide⟩

theorem witness_ReadWhileBusyShowsABoundary : ∃ s : State, s.phase = .run ∧ s.seen ≠ [] ∧
    hostTurn s (readOf s 0x28) [] ∧ 0x28 < 256 ∧ 0x28 % 4 = 0 :=
  ⟨{ running 4 with host := [⟨0, .read 0x10028 4⟩] }, rfl, by decide, ⟨0, rfl, .inr rfl⟩,
    by decide, by decide⟩

/-- Idle: one byte at address 0, and the memory's last eight bytes. -/
theorem witness_HostMemoryWriteReadsBack : ∃ s t : State, s.phase = .idle ∧ t.phase = .idle ∧
    s.params.wf = true ∧ s.mem.wf = true ∧ 0 + 1 ≤ s.params.memSize ∧ 4088 + 8 ≤ t.params.memSize ∧
    s.host = ⟨0, .write (s.params.memBase + 0) 1 7⟩ :: ⟨0, .read (s.params.memBase + 0) 1⟩ :: [] ∧
    t.host = ⟨0, .read (t.params.memBase + 4088) 8⟩ :: [] :=
  ⟨{ State.reset with host := [⟨0, .write 0 1 7⟩, ⟨0, .read 0 1⟩] },
    { State.reset with host := [⟨0, .read 4088 8⟩] },
    rfl, rfl, by decide, by decide, by decide, by decide, rfl, rfl⟩

/-- Busy: a write between the windows, its rest, and reads of a byte of each window. -/
theorem witness_HostMemoryWriteReadsBack_busy : ∃ s t u v : State,
    s.params.wf = true ∧ s.mem.wf = true ∧
    hostTurn s (.write 0x20 2 0x0201) [] ∧ writes s (.write 0x20 2 0x0201) 0x20 [1, 2] ∧
    s.phase = .run ∧ s.inOutput 0x20 = false ∧ s.inInput 0x20 = false ∧
    hostTurn t (.writeRest 0x21 [2]) [] ∧ writes t (.writeRest 0x21 [2]) 0x21 [2] ∧
    hostTurn u (.read 0x17 1) [] ∧ reads u (.read 0x17 1) 0x17 1 [] ∧ u.phase = .run ∧
    Inv u ∧ u.inInput 0x17 = true ∧
    hostTurn v (.readRest 0x40 3 [9]) [] ∧ reads v (.readRest 0x40 3 [9]) 0x40 3 [9] ∧
    v.inOutput 0x40 = true :=
  ⟨{ running 4 with host := [⟨0, .write 0x20 2 0x0201⟩] },
    { running 4 with host := [⟨0, .writeRest 0x21 [2]⟩] },
    { running 6 with host := [⟨0, .read 0x17 1⟩] },
    { running 4 with host := [⟨0, .readRest 0x40 3 [9]⟩] },
    by decide, by decide, ⟨0, rfl, .inr rfl⟩, ⟨by decide, .inl ⟨0x0201, by decide, by decide⟩⟩, rfl,
    by decide, by decide, ⟨0, rfl, .inr rfl⟩, ⟨by decide, .inr rfl⟩, ⟨0, rfl, .inr rfl⟩,
    ⟨by decide, by decide, .inl ⟨by decide, rfl⟩⟩, rfl,
    inv_of (by decide) (by decide) (by decide) (by decide) (.inr (by decide)), by decide,
    ⟨0, rfl, .inr rfl⟩, ⟨by decide, by decide, .inr rfl⟩, by decide⟩

/-- A byte read of ID, a misaligned write, and one that reaches into the block from below. -/
theorem witness_HostRefusals_register : ∃ a b c : State,
    hostTurn a (.read 0x10000 1) [] ∧ touches (.read 0x10000 1) 0x10000 1 ∧
    0x10000 < a.params.regBase + 256 ∧ a.params.regBase < 0x10000 + 1 ∧
    hostTurn b (.write 0x10002 4 0) [] ∧ touches (.write 0x10002 4 0) 0x10002 4 ∧
    (0x10002 - b.params.regBase) % 4 ≠ 0 ∧
    hostTurn c (.read 0xFFFC 8) [] ∧ touches (.read 0xFFFC 8) 0xFFFC 8 ∧
    c.params.regBase < 0xFFFC + 8 ∧ ¬ c.params.regBase ≤ 0xFFFC :=
  ⟨{ State.reset with host := [⟨0, .read 0x10000 1⟩] },
    { State.reset with host := [⟨0, .write 0x10002 4 0⟩] },
    { State.reset with host := [⟨0, .read 0xFFFC 8⟩] },
    ⟨0, rfl, .inl rfl⟩, ⟨by decide, .inl rfl⟩, by decide, by decide,
    ⟨0, rfl, .inl rfl⟩, ⟨by decide, .inr ⟨0, rfl⟩⟩, by decide,
    ⟨0, rfl, .inl rfl⟩, ⟨by decide, .inl rfl⟩, by decide, by decide⟩

/-- Writes to the first byte of the output window and the last of the input window; an access past the
register block, and one that runs past the memory's end. -/
theorem witness_HostRefusals : ∃ c d e f : State,
    hostTurn c (.write 0x40 1 0) [] ∧ writes c (.write 0x40 1 0) 0x40 [0] ∧ c.params.wf = true ∧
    c.phase = .run ∧ c.inOutput 0x40 = true ∧
    hostTurn d (.writeRest 0x17 [0]) [] ∧ writes d (.writeRest 0x17 [0]) 0x17 [0] ∧
    d.phase = .run ∧ d.inInput 0x17 = true ∧
    hostTurn e (.read 0x10100 1) [] ∧ touches (.read 0x10100 1) 0x10100 1 ∧
    e.params.regBase + 256 ≤ 0x10100 ∧ e.params.memBase + e.params.memSize < 0x10100 + 1 ∧
    hostTurn f (.write 4095 2 0) [] ∧ touches (.write 4095 2 0) 4095 2 ∧
    4095 + 2 ≤ f.params.regBase ∧ f.params.memBase + f.params.memSize < 4095 + 2 :=
  ⟨{ running 4 with host := [⟨0, .write 0x40 1 0⟩] },
    { running 4 with host := [⟨0, .writeRest 0x17 [0]⟩] },
    { State.reset with host := [⟨0, .read 0x10100 1⟩] },
    { State.reset with host := [⟨0, .write 4095 2 0⟩] },
    ⟨0, rfl, .inr rfl⟩, ⟨by decide, .inl ⟨0, by decide, by decide⟩⟩, by decide, rfl, by decide,
    ⟨0, rfl, .inr rfl⟩, ⟨by decide, .inr rfl⟩, rfl, by decide,
    ⟨0, rfl, .inl rfl⟩, ⟨by decide, .inl rfl⟩, by decide, by decide,
    ⟨0, rfl, .inl rfl⟩, ⟨by decide, .inr ⟨0, rfl⟩⟩, by decide, by decide⟩

/-- A reset of an idle machine, and one during a run. -/
theorem witness_PlatformResetLeavesMemory : ∃ s t : State, hostTurn s .reset [] ∧ s.phase = .idle ∧
    s.mem.wf = true ∧ hostTurn t .reset [] ∧ t.phase = .run ∧ t.mem.wf = true :=
  ⟨{ State.reset with host := [⟨0, .reset⟩] }, { running 4 with host := [⟨0, .reset⟩] },
    ⟨0, rfl, .inl rfl⟩, rfl, by decide, ⟨0, rfl, .inr rfl⟩, rfl, by decide⟩

/-- An ACK of DONE. -/
theorem witness_InterruptStaysPending : ∃ s t : State, step s = .next t ∧ irq s = true ∧
    irq t = false := by
  obtain ⟨t, ht, hp⟩ := passes_next (o := step { State.reset with
      done := true, irqEn := true, host := [⟨0, .write 0x10008 4 2⟩] })
    (p := fun t => !irq t) (by decide)
  exact ⟨_, t, ht, by decide, by simpa using hp⟩

/-- A PackBits run steps over a literal packet of one byte, and goes on. -/
theorem witness_StepKeepsInv : ∃ t, Inv (running 6) ∧ engineTurn (running 6) = true ∧
    step (running 6) = .next t ∧ t.phase = .run ∧ (running 6).op ≠ 8 := by
  obtain ⟨t, ht, hp⟩ := passes_next (o := step (running 6)) (p := fun t => decide (t.phase = .run))
    (by decide)
  exact ⟨t, inv_packbits, by decide, ht, of_decide_eq_true hp, by decide⟩

theorem witness_InvRunsNeverFault : Inv gifAfterRoot := inv_gifAfterRoot

/-- The same step, an address outside the output window and one of the input window. -/
theorem witness_EngineWritesOnlyItsWindow : ∃ t, Inv (running 6) ∧ engineTurn (running 6) = true ∧
    step (running 6) = .next t ∧ (running 6).inOutput 0x50 = false ∧
    (running 6).inInput 0x10 = true := by
  obtain ⟨t, h⟩ := witness_StepKeepsInv
  exact ⟨t, h.1, h.2.1, h.2.2.1, by decide, by decide⟩

/-- A PackBits run and an HPRED run with no host. -/
theorem witness_OperationTerminates : Inv (running 6) ∧ (running 6).phase = .run ∧
    (running 6).host = [] ∧ Inv (running 8) ∧ (running 8).phase = .run ∧ (running 8).op = 8 :=
  ⟨inv_packbits, rfl, rfl, inv_hpred, rfl, rfl⟩

theorem witness_OperandsFixedWhileBusy : ∃ t, step (running 6) = .next t ∧
    (running 6).phase = .run ∧ t.phase = .run := by
  obtain ⟨t, h⟩ := witness_StepKeepsInv
  exact ⟨t, h.2.2.1, rfl, h.2.2.2.1⟩

/-- A START of PACKBITS that begins, and one that faults. -/
theorem witness_OnlyStartRaisesWhileIdle : ∃ s t u v : State, s.phase = .idle ∧ step s = .next t ∧
    t.phase = .run ∧ u.phase = .idle ∧ step u = .next v ∧ v.fault = true ∧ u.fault = false := by
  obtain ⟨t, ht, hp⟩ := passes_next (o := step { running 6 with
      phase := .idle, host := [⟨0, .write 0x10004 4 0x61⟩] })
    (p := fun t => decide (t.phase = .run)) (by decide)
  obtain ⟨v, hv, hq⟩ := passes_next (o := step { State.reset with
      host := [⟨0, .write 0x10004 4 0x01⟩] })
    (p := fun t => t.fault) (by decide)
  exact ⟨_, t, _, v, rfl, ht, of_decide_eq_true hp, rfl, hv, hq, rfl⟩

/-- The PackBits step of `witness_StepKeepsInv`, and an HPRED step with a row to come. -/
theorem witness_CursorMovesForward : ∃ t, Inv (running 8) ∧ engineTurn (running 8) = true ∧
    step (running 8) = .next t ∧ t.phase = .run ∧ (running 8).op = 8 := by
  obtain ⟨t, ht, hp⟩ := passes_next (o := step (running 8)) (p := fun t => decide (t.phase = .run))
    (by decide)
  exact ⟨t, inv_hpred, by decide, ht, of_decide_eq_true hp, by decide⟩

end Sys2Proof.Tests
end

/-! PROOFS. The bit orders of LZW codes (00_scope.md R12), a fault in a step as the claims state it
(R13), and what every step keeps of the registers an operation runs with (R9). -/

/-! ### Bits of LZW codes (00_scope.md R12, 30_encoding.md R99, R100) -/

namespace Sys2Proof

/-- A GIF stream bit as a digit of its byte. -/
theorem streamBit_gif_toNat (bs : List Byte) (n : Nat) :
    (streamBit .gif bs n).toNat = (bs.getD (n / 8) 0).toNat / 2 ^ (n % 8) % 2 :=
  Nat.toNat_testBit _ _

/-- A TIFF stream bit as a digit of its byte. -/
theorem streamBit_tiff_toNat (bs : List Byte) (n : Nat) :
    (streamBit .tiff bs n).toNat = (bs.getD (n / 8) 0).toNat / 2 ^ (7 - n % 8) % 2 :=
  Nat.toNat_testBit _ _

/-- Each bit of a GIF code counts twice the one read before it. -/
theorem readCode_gif_eq_sum (bs : List Byte) (bit w : Nat) :
    readCode .gif bs bit w =
      ∑ j ∈ Finset.range w, (streamBit .gif bs (bit + j)).toNat * 2 ^ j := by
  induction w with
  | zero => rfl
  | succ w ih => rw [Finset.sum_range_succ, readCode, ih, Nat.mul_comm (2 ^ w)]

/-- Each bit of a TIFF code doubles the weight of all bits read before it. -/
theorem readCode_tiff_eq_sum (bs : List Byte) (bit w : Nat) :
    readCode .tiff bs bit w =
      ∑ j ∈ Finset.range w, (streamBit .tiff bs (bit + j)).toNat * 2 ^ (w - 1 - j) := by
  induction w with
  | zero => rfl
  | succ w ih =>
    have hdouble : ∀ j ∈ Finset.range w,
        2 * ((streamBit .tiff bs (bit + j)).toNat * 2 ^ (w - 1 - j)) =
          (streamBit .tiff bs (bit + j)).toNat * 2 ^ (w + 1 - 1 - j) := by
      intro j hj
      have hlt : j < w := Finset.mem_range.1 hj
      rw [show w + 1 - 1 - j = w - 1 - j + 1 by omega, pow_succ]
      ring
    rw [readCode, ih, Finset.sum_range_succ, Finset.mul_sum, Finset.sum_congr rfl hdouble]
    simp

/-- Settles O7: the recursive reader is the sum of its bits, each at the weight of its bit order. -/
theorem lzwCodeBitOrder : Obligations.LzwCodeBitOrder := by
  intro bs bit w
  constructor
  · simp only [readCode_gif_eq_sum, streamBit_gif_toNat]
  · simp only [readCode_tiff_eq_sum, streamBit_tiff_toNat]

end Sys2Proof

namespace Sys2Proof.Machine

open Sys2Proof.Claims

/-! ### A fault in a step (60_exceptions.md R325, R326) -/

/-- A fault in a step is the claims' fault over the scrambled memory. -/
theorem raiseInStep_eq_faulted (code : FaultCode) (info : Word) (s : State) :
    raiseInStep code info s =
      faulted (faultValue code) info (faultAddress code s) (scrambleOutput s).mem s := rfl

/-- Scrambling the output window leaves every byte outside it. -/
theorem sameOutside_scrambleOutput {s : State} (h : s.mem.wf = true) :
    sameOutside s (scrambleOutput s).mem := by
  obtain ⟨hwf, -, hother⟩ := scrambleOutput_spec h
  refine ⟨hwf, fun b hb => hother b ?_⟩
  simp only [State.inOutput, Bool.and_eq_false_iff, decide_eq_false_iff_not]
  omega

/-- The wait of the host's next access does not move the output window. -/
@[simp] theorem sameOutside_tick (s : State) (m : Memory) :
    sameOutside (tick s) m ↔ sameOutside s m := by
  simp [sameOutside]

/-- The step of an engine whose input window ends inside the element (40_command.md R138). -/
theorem engineStep_truncated {s : State} (ha : s.abortReq = false) (hin : s.inputExists = true)
    (hf : fetch s = .truncated) : engineStep s = .next (raiseInStep .trunc 0 s) := by
  simp [engineStep, ha, hin, hf]

/-- Settles O10: the truncated fetch raises E_TRUNC, and raising scrambles only the output window. -/
theorem truncatedElementFaults : Obligations.TruncatedElementFaults := by
  intro s c hturn ha hin hc hd hwf
  have hf : fetch (tick s) = .truncated := by simp [fetch, hc, hd]
  have hstep : step s = .next (raiseInStep .trunc 0 (tick s)) := by
    rw [step_engine hturn, engineStep_truncated (by simpa using ha) (by simpa using hin) hf]
  refine ⟨(scrambleOutput (tick s)).mem, ?_, ?_⟩
  · rw [hstep, raiseInStep_eq_faulted]
    simp [faultValue, faultAddress]
  · rw [← sameOutside_tick]
    exact sameOutside_scrambleOutput (by simpa using hwf)

/-! ### The setup of a run: parameters, operand registers, CTRL.OP and the operation -/

/-- The registers a run reads and never writes (00_scope.md R9; 10_state.md R24, R39). -/
structure Setup where
  params : Params
  srcAddr : Word
  srcLen : Word
  dstAddr : Word
  dstLen : Word
  width : Word
  height : Word
  fmt : Word
  ctrlOp : BitVec 4
  op : BitVec 4

/-- The setup in a state. -/
def State.setup (s : State) : Setup where
  params := s.params
  srcAddr := s.srcAddr
  srcLen := s.srcLen
  dstAddr := s.dstAddr
  dstLen := s.dstLen
  width := s.width
  height := s.height
  fmt := s.fmt
  ctrlOp := s.ctrlOp
  op := s.op

/-- One setup is the same parameters and, as the claims list them, the same operands. -/
theorem setup_eq_iff {s t : State} :
    t.setup = s.setup ↔ t.params = s.params ∧ sameOperands s t := by
  simp [State.setup, sameOperands]

@[simp] theorem advance_setup (n : Nat) (s : State) : (advance n s).setup = s.setup := rfl
@[simp] theorem countOut_setup (n : Nat) (s : State) : (countOut n s).setup = s.setup := rfl
@[simp] theorem nextRow_setup (s : State) : (nextRow s).setup = s.setup := rfl
@[simp] theorem setOvf_setup (s : State) : (setOvf s).setup = s.setup := rfl
@[simp] theorem stepPixel_setup (s : State) : (stepPixel s).setup = s.setup := rfl
@[simp] theorem movePixel_setup (dx dy : Nat) (s : State) : (movePixel dx dy s).setup = s.setup := rfl
@[simp] theorem newLine_setup (s : State) : (newLine s).setup = s.setup := rfl
@[simp] theorem keepRow_setup (row : List Byte) (s : State) : (keepRow row s).setup = s.setup := rfl
@[simp] theorem enterPass_setup (q : Nat) (s : State) : (enterPass q s).setup = s.setup := rfl
@[simp] theorem lzwReset_setup (min : Nat) (s : State) : (lzwReset min s).setup = s.setup := rfl
@[simp] theorem complete_setup (s : State) : (complete s).setup = s.setup := rfl
@[simp] theorem continueRun_setup (s : State) : (continueRun s).setup = s.setup := rfl
@[simp] theorem openRun_setup (s : State) : (openRun s).setup = s.setup := rfl
@[simp] theorem acknowledge_setup (ackDone ackFault : Bool) (s : State) :
    (acknowledge ackDone ackFault s).setup = s.setup := rfl
@[simp] theorem raiseInStep_setup (code : FaultCode) (info : Word) (s : State) :
    (raiseInStep code info s).setup = s.setup := rfl

@[simp] theorem noteShort_setup (s : State) : (noteShort s).setup = s.setup := by
  unfold noteShort; split <;> rfl

@[simp] theorem finish_setup (c : Bool) (s : State) : (finish c s).setup = s.setup := by
  cases c <;> rfl

@[simp] theorem finishRow_setup (s : State) : (finishRow s).setup = s.setup := finish_setup _ s

@[simp] theorem finishFull_setup (s : State) : (finishFull s).setup = s.setup := finish_setup _ s

@[simp] theorem finishPass_setup (s : State) : (finishPass s).setup = s.setup := by
  unfold finishPass
  split
  · split <;> simp
  · simp

@[simp] theorem learn_setup (kind : LzwKind) (sfx : Byte) (code : BitVec 12) (s : State) :
    (learn kind sfx code s).setup = s.setup := by
  rw [learn_eq]
  split
  · rfl
  · split <;> rfl

/-! ### Operations with accesses keep the setup -/

theorem memWrite_setup {a : Nat} {v : Byte} {s t : State} (h : memWrite a v s = some t) :
    t.setup = s.setup := by
  obtain ⟨-, rfl⟩ := memWrite_eq_some.1 h
  rfl

theorem memWriteAll_setup {a : Nat} {vs : List Byte} {s t : State}
    (h : memWriteAll a vs s = some t) : t.setup = s.setup := by
  obtain ⟨m, -, rfl⟩ := memWriteAll_eq_some.1 h
  rfl

/-- Accesses and then an update that each keep the setup keep it together. -/
theorem map_setup {o : Option State} {f : State → State} {s t : State}
    (ho : ∀ u, o = some u → u.setup = s.setup) (hf : ∀ u, (f u).setup = u.setup)
    (h : o.map f = some t) : t.setup = s.setup := by
  obtain ⟨u, hu, rfl⟩ := Option.map_eq_some_iff.1 h
  exact (hf u).trans (ho u hu)

/-- A loop keeps the setup where each of its turns does. -/
theorem each_setup {α : Type} {f : α → State → Option State}
    (hf : ∀ a s t, f a s = some t → t.setup = s.setup) {l : List α} {s t : State}
    (h : each f l s = some t) : t.setup = s.setup :=
  each_keeps (P := fun u => u.setup = s.setup) (fun a u v hu hv => (hf a u v hv).trans hu) l rfl h

theorem emit_setup {v : Byte} {s t : State} (h : emit v s = some t) : t.setup = s.setup := by
  unfold emit at h
  split at h
  · exact map_setup (fun _ => memWrite_setup) (countOut_setup 1) h
  · obtain rfl := Option.some.inj h
    rfl

theorem emitAll_setup {vs : List Byte} {s t : State} (h : emitAll vs s = some t) :
    t.setup = s.setup :=
  each_setup (fun _ _ _ => emit_setup) h

theorem putPixel_setup {v : Byte} {s t : State} (h : putPixel v s = some t) :
    t.setup = s.setup := by
  refine map_setup (fun u hu => ?_) stepPixel_setup h
  split at hu
  · exact map_setup (fun _ => memWrite_setup) (countOut_setup 1) hu
  · obtain rfl := Option.some.inj hu
    rfl

theorem putPixels_setup {vs : List Byte} {s t : State} (h : putPixels vs s = some t) :
    t.setup = s.setup :=
  each_setup (fun _ _ _ => putPixel_setup) h

theorem scatterRow_setup {row : List Byte} {s t : State} (h : scatterRow row s = some t) :
    t.setup = s.setup :=
  each_setup (fun _ _ _ hpx => each_setup (fun _ _ _ => memWrite_setup) hpx) h

theorem initialise_setup {s t : State} (h : initialise s = some t) : t.setup = s.setup := by
  unfold initialise at h
  split at h
  case h_2 => exact map_setup (fun _ => memWriteAll_setup) (enterPass_setup 1) h
  case h_5 | h_6 => exact (memWriteAll_setup h).trans rfl
  all_goals
    obtain rfl := Option.some.inj h
    rfl

/-! ### Stream elements keep the setup -/

theorem pngRow_setup {f : PngFilter} {raw : List Byte} {s t : State}
    (h : pngRow f raw s = .next t) : t.setup = s.setup := by
  have hrow := orFault_next.1 h
  split at hrow
  · exact map_setup (fun _ hu => (scatterRow_setup hu).trans (by simp)) (by simp) hrow
  · exact map_setup (fun _ hu => (memWriteAll_setup hu).trans (by simp)) (by simp) hrow

theorem runPixels_setup {n : Nat} {pixels : List Byte} {s t : State}
    (h : runPixels n pixels s = .next t) : t.setup = s.setup :=
  map_setup (fun _ hu => (putPixels_setup hu).trans (advance_setup ..)) (finish_setup false)
    (orFault_next.1 h)

theorem runPacket_setup {n : Nat} {bytes : List Byte} {cut : Bool} {s t : State}
    (h : runPacket n bytes cut s = .next t) : t.setup = s.setup :=
  map_setup (fun _ hu => (emitAll_setup hu).trans (advance_setup ..)) (by cases cut <;> simp)
    (orFault_next.1 h)

theorem runCode_setup {kind : LzwKind} {string : List Byte} {code : BitVec 12} {s t : State}
    (h : runCode kind string code s = .next t) : t.setup = s.setup :=
  map_setup (fun _ hu => (emitAll_setup hu).trans (advance_setup ..)) (by simp)
    (orFault_next.1 h)

theorem unpackRow_setup {sample : Nat → Byte} {row : List Byte} {s t : State}
    (h : unpackRow sample row s = .next t) : t.setup = s.setup :=
  map_setup (fun _ hu => (memWriteAll_setup hu).trans (advance_setup ..)) (by simp)
    (orFault_next.1 h)

theorem execHpredRow_setup {s t : State} (h : execHpredRow s = .next t) : t.setup = s.setup := by
  obtain ⟨row, -, hrow⟩ := Option.bind_eq_some_iff.1 (orFault_next.1 h)
  exact map_setup (fun _ => memWriteAll_setup) (by simp) hrow

/-! ### What every transition keeps -/

/-- The parameters stay, and the operands where a run goes on. -/
def operandsKept (s t : State) : Prop :=
  t.params = s.params ∧ (s.phase = .run → t.phase = .run → sameOperands s t)

theorem operandsKept_of_setup {s t : State} (h : t.setup = s.setup) : operandsKept s t := by
  obtain ⟨hparams, hsame⟩ := setup_eq_iff.1 h
  exact ⟨hparams, fun _ _ => hsame⟩

/-- With the engine idle only the parameters are claimed. -/
theorem operandsKept_of_idle {s t : State} (hp : t.params = s.params) (h : ¬ s.busy = true) :
    operandsKept s t :=
  ⟨hp, fun hrun _ => absurd (decide_eq_true hrun) h⟩

/-- A CTRL write without START: OP is written only while idle (10_state.md R24). -/
theorem operandsKept_writeCtrl (irqEn abort : Bool) (op : BitVec 4) (s : State) :
    operandsKept s (writeCtrl irqEn abort op s) := by
  unfold writeCtrl
  split
  · exact operandsKept_of_setup rfl
  · exact operandsKept_of_idle rfl ‹_›

/-- A START while idle clears, checks and initialises, none of which writes a parameter. -/
theorem startCommand_operandsKept {op : BitVec 4} {irqEn abort : Bool} {s t : State}
    (h : startCommand op irqEn abort s = .next t) : operandsKept s t := by
  simp only [startCommand] at h
  split at h
  · obtain rfl := Host.Outcome.next.inj h
    exact operandsKept_writeCtrl ..
  · rename_i hidle
    have hclear : (clearForStart (writeCtrl irqEn abort op s)).params = s.params :=
      (operandsKept_writeCtrl irqEn abort op s).1
    refine operandsKept_of_idle ?_ hidle
    split at h
    · obtain rfl := Host.Outcome.next.inj h
      exact hclear
    · obtain ⟨u, hu, rfl⟩ := Option.map_eq_some_iff.1 (orFault_next.1 h)
      have hinit := initialise_setup hu
      exact (congrArg Setup.params hinit).trans hclear

/-- Every instruction's meaning, command or element, keeps the operands of a run that goes on. -/
theorem exec_operandsKept {i : Instr} {s t : State} (h : exec i s = .next t) :
    operandsKept s t := by
  cases i with
  | startDefilter | startAdam7 | startLzwGif | startLzwTiff | startRle8 | startRle4
  | startPackbits | startUnpack | startHpred | startReserved =>
    exact startCommand_operandsKept h
  | abort =>
    obtain rfl := Host.Outcome.next.inj h
    exact operandsKept_writeCtrl ..
  | pngNone | pngSub | pngUp | pngAvg | pngPaeth => exact operandsKept_of_setup (pngRow_setup h)
  | rle8Enc | rle8Abs | rle4Enc | rle4Abs => exact operandsKept_of_setup (runPixels_setup h)
  | pbLit | pbRep => exact operandsKept_of_setup (runPacket_setup h)
  | lzwGifRoot | lzwGifDict | lzwGifKwkwk | lzwTiffRoot | lzwTiffDict | lzwTiffKwkwk =>
    exact operandsKept_of_setup (runCode_setup h)
  | unpackRowSub8 | unpackRow16 | unpackRow32 => exact operandsKept_of_setup (unpackRow_setup h)
  | hpredRow => exact operandsKept_of_setup (execHpredRow_setup h)
  | ack | pngIllegal | lzwGifInvalid | lzwTiffInvalid | rle8Eol | rle8Eob | rle8Delta | rle4Eol
  | rle4Eob | rle4Delta | pbNop | lzwGifClear | lzwGifEoi | lzwTiffClear | lzwTiffEoi =>
    obtain rfl := Host.Outcome.next.inj h
    exact operandsKept_of_setup (by simp)

/-- The wait of the host's next access is no operand. -/
@[simp] theorem operandsKept_tick {s t : State} : operandsKept (tick s) t ↔ operandsKept s t := by
  simp [operandsKept, sameOperands]

/-- The engine faults, which keeps the setup, or runs an instruction. -/
theorem engineStep_operandsKept {s t : State} (h : engineStep s = .next t) : operandsKept s t := by
  obtain ⟨-, rfl⟩ | ⟨-, -, ⟨-, rfl⟩ | ⟨i, -, hi⟩⟩ := engineStep_next h
  · exact operandsKept_of_setup (raiseInStep_setup ..)
  · exact operandsKept_of_setup (raiseInStep_setup ..)
  · exact exec_operandsKept hi

theorem registerRead_setup (off : Nat) (s : State) : (registerRead off s).setup = s.setup := by
  unfold registerRead
  split <;> rfl

theorem writeOperand_params (off : Nat) (v : Word) (s : State) :
    (writeOperand off v s).params = s.params := by
  unfold writeOperand
  split <;> rfl

/-- An operand register takes a write only while idle (10_state.md R39). -/
theorem registerWrite_operandsKept {off : Nat} {v : Word} {s t : State}
    (h : registerWrite off v s = .next t) : operandsKept s t := by
  unfold registerWrite at h
  split at h
  · split at h
    · exact exec_operandsKept h
    · obtain rfl := Host.Outcome.next.inj h
      exact operandsKept_writeCtrl ..
  · split at h
    · split at h
      · exact exec_operandsKept h
      · obtain rfl := Host.Outcome.next.inj h
        exact operandsKept_of_setup rfl
    · split at h
      · obtain rfl := Host.Outcome.next.inj h
        exact operandsKept_of_setup rfl
      · rename_i hidle
        obtain rfl := Host.Outcome.next.inj h
        exact operandsKept_of_idle (writeOperand_params ..) hidle

theorem memoryRead_operandsKept {a size : Nat} {got : List Byte} {s t : State}
    (h : memoryRead a size got s = .next t) : operandsKept s t := by
  obtain ⟨host, returned, rfl⟩ := memoryRead_next h
  exact operandsKept_of_setup rfl

theorem memoryWrite_operandsKept {a : Nat} {data : List Byte} {s t : State}
    (h : memoryWrite a data s = .next t) : operandsKept s t := by
  obtain rfl | ⟨v, host, -, -, rfl⟩ := memoryWrite_next h
  · exact operandsKept_of_setup rfl
  · exact operandsKept_of_setup rfl

theorem hostRead_operandsKept {addr size : Nat} {s t : State}
    (h : hostRead addr size s = .next t) : operandsKept s t := by
  unfold hostRead at h
  split at h
  case h_1 =>
    obtain rfl := Host.Outcome.next.inj h
    exact operandsKept_of_setup (registerRead_setup ..)
  case h_3 => exact memoryRead_operandsKept h
  all_goals cases h

theorem hostWrite_operandsKept {addr size value : Nat} {s t : State}
    (h : hostWrite addr size value s = .next t) : operandsKept s t := by
  unfold hostWrite at h
  split at h
  case h_1 => exact registerWrite_operandsKept h
  case h_3 => exact memoryWrite_operandsKept h
  all_goals cases h

/-- The reset input changes operands, but no run goes on after it (70_reset_and_hazards.md R360). -/
theorem operandsKept_platformReset (s : State) : operandsKept s (platformReset s) := by
  refine ⟨?_, fun _ hrun => absurd hrun (by simp [platformReset, State.reset])⟩
  unfold platformReset
  split <;> rfl

theorem performAccess_operandsKept {a : Access} {s t : State}
    (h : performAccess a s = .next t) : operandsKept s t := by
  cases a with
  | reset =>
    obtain rfl := Host.Outcome.next.inj h
    exact operandsKept_platformReset s
  | read addr size =>
    simp only [performAccess] at h
    split at h
    · obtain rfl := Host.Outcome.next.inj h
      exact operandsKept_of_setup rfl
    · exact hostRead_operandsKept h
  | write addr size value =>
    simp only [performAccess] at h
    split at h
    · obtain rfl := Host.Outcome.next.inj h
      exact operandsKept_of_setup rfl
    · exact hostWrite_operandsKept h
  | readRest => exact memoryRead_operandsKept h
  | writeRest => exact memoryWrite_operandsKept h

/-- Settles O58, by what each agent's transition keeps; the queue and its wait are no operands. -/
theorem operandsFixedWhileBusy : Obligations.OperandsFixedWhileBusy := by
  intro s t h
  change operandsKept s t
  cases hturn : engineTurn s with
  | true =>
    rw [step_engine hturn] at h
    exact operandsKept_tick.1 (engineStep_operandsKept h)
  | false =>
    cases hhost : s.host with
    | nil =>
      rw [step_idle hturn hhost] at h
      obtain rfl := Host.Outcome.next.inj h
      exact operandsKept_of_setup rfl
    | cons q rest =>
      rw [step_host hturn hhost] at h
      change operandsKept { s with host := rest } t
      exact performAccess_operandsKept h

end Sys2Proof.Machine

/-! PROOFS. Data memory (20_memory.md): the HPRED row (R69), the window an engine step writes (R62, R73),
and the host's accesses (R65, R67, R70). -/

namespace Sys2Proof.Machine

open Sys2Proof.Claims

/-! ### Rows of an output window -/

/-- A row of `n` bytes below row `h` ends where the window of `h` rows does, or before. -/
theorem row_end_le {r h : Nat} (n : Nat) (hr : r < h) : r * n + n ≤ h * n :=
  calc
    r * n + n = (r + 1) * n := (Nat.succ_mul r n).symm
    _ ≤ h * n := Nat.mul_le_mul_right n hr

/-- Counting a row below H does not wrap. -/
theorem nextRow_r_toNat {s : State} (hr : s.r.toNat < s.H) : (nextRow s).r.toNat = s.r.toNat + 1 := by
  have hH : s.H < 2 ^ 32 := s.height.isLt
  rw [nextRow_r, BitVec.toNat_add, show (1 : Word).toNat = 1 from rfl]
  omega

/-- The end of a row step, as the claims state it (40_command.md R140). -/
theorem finishRow_eq_rowDone {s : State} (bytes n : Nat) (m : Memory) (hr : s.r.toNat < s.H) :
    finishRow (nextRow (countOut n { advance (8 * bytes) s with mem := m })) =
      rowDone bytes n m s := by
  have hrow := nextRow_r_toNat (s := countOut n { advance (8 * bytes) s with mem := m }) hr
  rw [finishRow, hrow]
  rfl

/-! ### The HPRED row (42_lzw.md R220) -/

/-- A load reads the bytes in memory. -/
theorem Memory.loadAll_eq_bytesAt {size : Nat} (m : Memory) {a n : Nat} (h : a + n ≤ size) :
    m.loadAll size a n = some (bytesAt m a n) := by
  simp [Memory.loadAll, h, bytesAt]

@[simp] theorem bytesAt_length (m : Memory) (a n : Nat) : (bytesAt m a n).length = n := by
  simp [bytesAt]

theorem bytesAt_getD (m : Memory) {a n k : Nat} (h : k < n) :
    (bytesAt m a n).getD k 0 = m.read (a + k) := by
  simp [bytesAt, List.getD_eq_getElem?_getD, h]

/-- A stored list, its bytes given by a store that succeeded. -/
theorem stored_of_storeAll {size a : Nat} {m m' : Memory} {bs : List Byte} (hwf : m.wf = true)
    (h : m.storeAll size a bs = some m') : stored m m' a bs := by
  obtain ⟨hwf', -, hget, hother⟩ := Memory.storeAll_spec bs hwf h
  exact ⟨hwf', hget, hother⟩

/-- The row step stores the row with its differences undone where it was, and goes on to the next. -/
theorem execHpredRow_run {s : State} (hwf : s.mem.wf = true) (hc : 1 ≤ s.nc) (hr : s.r.toNat < s.H)
    (hfit : hpredAddress s + s.rowSamples ≤ s.params.memSize) :
    ∃ m, execHpredRow s = .next (rowDone 0 s.rowSamples m s) ∧
      stored s.mem m (hpredAddress s)
        (undoPredictor s.nc (bytesAt s.mem (hpredAddress s) s.rowSamples)) := by
  have hlen : (undoPredictor s.nc (bytesAt s.mem (hpredAddress s) s.rowSamples)).length =
      s.rowSamples := by rw [(undoPredictor_spec hc).1, bytesAt_length]
  obtain ⟨m, hm, hw⟩ := memWriteAll_run (s := s) (hlen ▸ hfit)
  refine ⟨m, ?_, stored_of_storeAll hwf hm⟩
  rw [execHpredRow, Memory.loadAll_eq_bytesAt _ hfit, Option.bind_some, hw, Option.map_some,
    ← finishRow_eq_rowDone 0 _ _ hr]
  simp [orFault, advance, State.rowSamples, State.W, State.nc]

/-- A row stored over itself with its differences undone: each byte from the NC-th on is its old value
plus the new one NC before it. -/
theorem sums_of_stored {m m' : Memory} {a n nc : Nat} (hc : 1 ≤ nc)
    (h : stored m m' a (undoPredictor nc (bytesAt m a n))) :
    m'.wf = true ∧
    (∀ i < n, m'.read (a + i) =
      if i < nc then m.read (a + i) else m.read (a + i) + m'.read (a + i - nc)) ∧
    ∀ b, b < a ∨ a + n ≤ b → m'.read b = m.read b := by
  obtain ⟨hlen, hsum⟩ := undoPredictor_spec (row := bytesAt m a n) hc
  obtain ⟨hwf, hget, hother⟩ := h
  rw [bytesAt_length] at hlen hsum
  rw [hlen] at hget hother
  refine ⟨hwf, fun i hi => ?_, hother⟩
  rw [hget i hi, hsum i hi, bytesAt_getD m hi]
  by_cases hic : i < nc
  · rw [if_pos hic, if_pos hic]
  · rw [if_neg hic, if_neg hic, Nat.add_sub_assoc (not_lt.1 hic), hget (i - nc) (by omega)]

/-- Settles O43: the row step stores the undone row, whose bytes are the running sums. -/
theorem hpredRowSums : Obligations.HpredRowSums := by
  intro s _ hc ⟨hwf, hr, hwindow⟩ n base
  have hrow : s.r.toNat * n + n ≤ s.height.toNat * n := row_end_le n hr
  have hfit : base + n ≤ s.params.memSize := by simp only [base, n] at *; omega
  obtain ⟨m, hexec, hstored⟩ := execHpredRow_run hwf hc hr hfit
  exact ⟨m, hexec, sums_of_stored hc hstored⟩

end Sys2Proof.Machine

namespace Sys2Proof.Machine

open Sys2Proof.Claims

/-! ### What START's checks leave to rely on (40_command.md R135) -/

/-- The facts about addresses and formats that START's checks establish. -/
structure ChecksPassed (s : State) : Prop where
  op_le : s.op.toNat ≤ 8
  bd_legal : bdLegal s.op.toNat s.bd = true
  nc_pos : usesComponents s.op.toNat = true → 1 ≤ s.nc
  output_exists : s.dstAddr.toNat + s.outSize ≤ s.params.memSize
  input_exists : s.inputExists = true

theorem checksPassed_of_startFault {s : State} (h : startFault s = none) : ChecksPassed s := by
  unfold startFault at h
  obtain ⟨hop, h⟩ := check_passed h
  iterate 2 replace h := (check_passed h).2
  obtain ⟨hbd, h⟩ := check_passed h
  obtain ⟨hnc, h⟩ := check_passed h
  iterate 4 replace h := (check_passed h).2
  obtain ⟨hdst, h⟩ := check_passed h
  obtain ⟨hsrc, -⟩ := check_passed h
  refine ⟨not_lt.1 hop, by simpa using hbd, fun hu => ?_, not_lt.1 hdst, ?_⟩
  · simp only [hu, Bool.true_and, Bool.not_eq_true', Bool.not_eq_false, Bool.and_eq_true,
      decide_eq_true_eq] at hnc
    exact hnc.1
  · simp only [State.inputExists, Bool.or_eq_true, decide_eq_true_eq]
    by_cases h8 : s.op.toNat = 8
    · exact .inl h8
    · exact .inr (by simpa [h8] using hsrc)

/-! ### A step that writes only the output window (20_memory.md R62, R73) -/

/-- Equal setups give equal output windows. -/
theorem outSize_of_setup {s t : State} (h : t.setup = s.setup) : t.outSize = s.outSize := by
  obtain ⟨-, -, -, -, hlen, hwidth, hheight, hfmt, -, hop⟩ := setup_eq_iff.1 h
  simp only [State.outSize, State.rb, State.W, State.H, State.nc, State.bd, hlen, hwidth, hheight,
    hfmt, hop]

/-- `t` is a state of a step that began in `s`: its setup, and its memory outside the output window. -/
def withinWindow (s t : State) : Prop := t.setup = s.setup ∧ sameOutside s t.mem

/-- Accesses that exist and lead to a state within the window of `s`. -/
def accessesWithin (s : State) (o : Option State) : Prop := ∃ t, o = some t ∧ withinWindow s t

/-- An outcome that is a next state within the window of `s`. -/
def runsWithin (s : State) (o : Result) : Prop := ∃ t, o = .next t ∧ withinWindow s t

/-- An update that writes neither memory nor the setup stays within the window. -/
theorem withinWindow.update {s t u : State} (h : withinWindow s t) (hs : u.setup = t.setup)
    (hm : u.mem = t.mem) : withinWindow s u :=
  ⟨hs.trans h.1, hm ▸ h.2⟩

theorem withinWindow_refl {s : State} (hwf : s.mem.wf = true) : withinWindow s s :=
  ⟨rfl, hwf, fun _ _ => rfl⟩

/-- Accesses followed by an update that writes neither memory nor the setup. -/
theorem accessesWithin.map {s : State} {o : Option State} {f : State → State}
    (h : accessesWithin s o) (hs : ∀ u, (f u).setup = u.setup) (hm : ∀ u, (f u).mem = u.mem) :
    accessesWithin s (o.map f) := by
  obtain ⟨t, rfl, ht⟩ := h
  exact ⟨f t, rfl, ht.update (hs t) (hm t)⟩

theorem accessesWithin.orFault {s : State} {o : Option State} (h : accessesWithin s o) :
    runsWithin s (orFault o) := by
  obtain ⟨t, rfl, ht⟩ := h
  exact ⟨t, rfl, ht⟩

/-- Bytes stored inside the window leave every byte outside it. -/
theorem sameOutside_of_stored {s : State} {m m' : Memory} {a : Nat} {bs : List Byte}
    (hm : sameOutside s m) (h : stored m m' a bs) (hlow : s.dstAddr.toNat ≤ a)
    (hhigh : a + bs.length ≤ s.dstAddr.toNat + s.outSize) : sameOutside s m' := by
  obtain ⟨hwf, -, hother⟩ := h
  exact ⟨hwf, fun b hb => (hother b (by omega)).trans (hm.2 b hb)⟩

/-- A loop whose turns all succeed over the elements of its list succeeds. -/
theorem each_isSome_of_mem {α σ : Type} {f : α → σ → Option σ} {P : σ → Prop} {l : List α}
    (hf : ∀ a ∈ l, ∀ s, P s → ∃ t, f a s = some t ∧ P t) {s : σ} (hs : P s) :
    ∃ t, each f l s = some t ∧ P t := by
  induction l generalizing s with
  | nil => exact ⟨s, rfl, hs⟩
  | cons a l ih =>
    obtain ⟨u, hu, hPu⟩ := hf a List.mem_cons_self s hs
    obtain ⟨t, ht, hPt⟩ := ih (fun b hb => hf b (List.mem_cons_of_mem a hb)) hPu
    exact ⟨t, by simp [each, hu, ht], hPt⟩

@[simp] theorem noteShort_mem (s : State) : (noteShort s).mem = s.mem := by
  unfold noteShort; split <;> rfl

@[simp] theorem finishRow_mem (s : State) : (finishRow s).mem = s.mem := finish_mem _ s

@[simp] theorem finishFull_mem (s : State) : (finishFull s).mem = s.mem := finish_mem _ s

@[simp] theorem finishPass_mem (s : State) : (finishPass s).mem = s.mem := by
  unfold finishPass
  split
  · split <;> simp
  · simp

@[simp] theorem learn_mem (kind : LzwKind) (sfx : Byte) (code : BitVec 12) (s : State) :
    (learn kind sfx code s).mem = s.mem := by
  rw [learn_eq]
  split
  · rfl
  · split <;> rfl

theorem rowDone_setup (bytes n : Nat) (m : Memory) (s : State) :
    (rowDone bytes n m s).setup = s.setup := by
  unfold rowDone ended; split <;> rfl

theorem rowDone_mem (bytes n : Nat) (m : Memory) (s : State) : (rowDone bytes n m s).mem = m := by
  unfold rowDone ended; split <;> rfl

/-! ### Accesses within the window -/

section Accesses

variable {s u : State} (hfit : s.dstAddr.toNat + s.outSize ≤ s.params.memSize)
  (hu : withinWindow s u)

include hfit hu

theorem memWriteAll_within {a : Nat} {vs : List Byte} (hlow : s.dstAddr.toNat ≤ a)
    (hhigh : a + vs.length ≤ s.dstAddr.toNat + s.outSize) :
    accessesWithin s (memWriteAll a vs u) := by
  obtain ⟨hsetup, hmem⟩ := hu
  have hparams : u.params = s.params := congrArg Setup.params hsetup
  obtain ⟨m, hm, hw⟩ := memWriteAll_run (s := u) (a := a) (vs := vs) (by rw [hparams]; omega)
  exact ⟨_, hw, hsetup,
    sameOutside_of_stored hmem (stored_of_storeAll hmem.1 hm) hlow hhigh⟩

theorem memWrite_within {a : Nat} (v : Byte) (hlow : s.dstAddr.toNat ≤ a)
    (hhigh : a < s.dstAddr.toNat + s.outSize) : accessesWithin s (memWrite a v u) := by
  obtain ⟨hsetup, hwf, hsame⟩ := hu
  have hparams : u.params = s.params := congrArg Setup.params hsetup
  refine ⟨_, memWrite_eq_some.2 ⟨by rw [hparams]; omega, rfl⟩, hsetup, Memory.wf_write hwf a v,
    fun b hb => ?_⟩
  exact (Memory.read_write_other hwf (by omega) v).trans (hsame b hb)

/-- `Emit` stores below OUTSZ only (00_scope.md R13). -/
theorem emit_within (v : Byte) : accessesWithin s (emit v u) := by
  have hsize : u.outSize = s.outSize := outSize_of_setup hu.1
  have hdst : u.dstAddr = s.dstAddr := congrArg Setup.dstAddr hu.1
  unfold emit
  split
  · exact (memWrite_within hfit hu v (by rw [hdst]; omega) (by rw [hdst]; omega)).map
      (countOut_setup 1) (countOut_mem 1)
  · exact ⟨_, rfl, hu.update rfl rfl⟩

theorem emitAll_within (vs : List Byte) : accessesWithin s (emitAll vs u) :=
  each_isSome (fun v _ h => emit_within hfit h v) vs u hu

end Accesses

/-- A stored row is a row of the image, flipped or not. -/
theorem outRow_lt {s : State} {y : Nat} (h : y < s.H) : s.outRow y < s.H := by
  unfold State.outRow
  split <;> omega

/-- The address of a pixel of the image lies in the window (43_rle_packbits.md R241). -/
theorem pixelAddress_lt {s : State} (hx : s.x.toNat < s.W) (hy : s.y.toNat < s.H) :
    pixelAddress s < s.dstAddr.toNat + s.W * s.H := by
  have hrow := row_end_le s.W (outRow_lt hy)
  rw [Nat.mul_comm s.H] at hrow
  unfold pixelAddress
  omega

section Pixels

variable {s u : State} (hfit : s.dstAddr.toNat + s.outSize ≤ s.params.memSize)
  (hout : s.outSize = s.W * s.H) (hu : withinWindow s u)

include hfit hout hu

theorem putPixel_within (v : Byte) : accessesWithin s (putPixel v u) := by
  obtain ⟨-, -, -, hdst, -, hwidth, hheight, -⟩ := setup_eq_iff.1 hu.1
  refine accessesWithin.map ?_ stepPixel_setup stepPixel_mem
  split
  · rename_i hin
    have hlow : u.dstAddr.toNat ≤ pixelAddress u := by unfold pixelAddress; omega
    have hhigh : pixelAddress u < u.dstAddr.toNat + u.W * u.H := pixelAddress_lt hin.1 hin.2
    simp only [State.W, State.H, hdst, hwidth, hheight] at hlow hhigh hout
    exact (memWrite_within hfit hu v hlow (by omega)).map (countOut_setup 1) (countOut_mem 1)
  · exact ⟨_, rfl, hu.update rfl rfl⟩

theorem putPixels_within (vs : List Byte) : accessesWithin s (putPixels vs u) :=
  each_isSome (fun v _ h => putPixel_within hfit hout h v) vs u hu

end Pixels

/-! ### The scatter of an Adam7 row within the window (45_adam7.md R303) -/

theorem passGeometry_pos (p : Nat) : 0 < (passGeometry p).dx ∧ 0 < (passGeometry p).dy := by
  unfold passGeometry
  split <;> decide

/-- The `k`-th of the positions `o, o + d, ...` below `n` is below `n`. -/
theorem position_lt {n d o k : Nat} (hd : 0 < d) (hk : k < (n + d - 1 - o) / d) : o + k * d < n := by
  have h : (k + 1) * d ≤ n + d - 1 - o := (Nat.le_div_iff_mul_le hd).1 hk
  rw [Nat.succ_mul] at h
  omega

/-- Bit `t` of pixel `x` lies in the bytes of a row of `w` pixels of `pb` bits. -/
theorem pixelBit_byte_lt {w x pb t : Nat} (hx : x < w) (ht : t < pb) :
    (x * pb + t) / 8 < divCeil (w * pb) 8 := by
  have hrow := row_end_le pb hx
  unfold divCeil
  omega

theorem scatterRow_within {s u : State} (hfit : s.dstAddr.toNat + s.outSize ≤ s.params.memSize)
    (hout : s.outSize = s.H * s.rb) (hu : withinWindow s u) (row : List Byte)
    (hr : u.r.toNat < u.passH u.p.toNat) : accessesWithin s (scatterRow row u) := by
  obtain ⟨-, -, -, hdst, -, hwidth, hheight, hfmt, -⟩ := setup_eq_iff.1 hu.1
  have hrb : u.rb = s.rb := by simp only [State.rb, State.W, State.nc, State.bd, hwidth, hfmt]
  have hH : u.H = s.H := by rw [State.H, hheight, State.H]
  obtain ⟨hdx, hdy⟩ := passGeometry_pos u.p.toNat
  have hy := row_end_le u.rb (position_lt hdy hr)
  rw [hH, hrb, ← hout] at hy
  refine each_isSome_of_mem (fun px hpx v hv => ?_) hu
  have hx := position_lt hdx (List.mem_range.1 hpx)
  refine each_isSome_of_mem (fun t ht w hw => ?_) hv
  have hbyte := pixelBit_byte_lt hx (List.mem_range.1 ht)
  rw [show divCeil (u.W * (u.nc * u.bd)) 8 = s.rb by rw [← hrb, State.rb, Nat.mul_assoc]] at hbyte
  refine memWrite_within hfit hw _ ?_ ?_ <;> rw [hdst, hrb] <;> omega

/-! ### Elements within the window -/

section Elements

variable {s : State} (hfit : s.dstAddr.toNat + s.outSize ≤ s.params.memSize)
  (hwf : s.mem.wf = true)

include hwf in
theorem advance_within (n : Nat) : withinWindow s (advance n s) :=
  (withinWindow_refl hwf).update rfl rfl

include hwf in
/-- A fault in a step scrambles the window only (60_exceptions.md R326). -/
theorem raiseInStep_within (code : FaultCode) (info : Word) :
    runsWithin s (.next (raiseInStep code info s)) :=
  ⟨_, rfl, raiseInStep_setup code info s, sameOutside_scrambleOutput hwf⟩

include hwf in
/-- An element that makes no access. -/
theorem next_within {t : State} (hs : t.setup = s.setup) (hm : t.mem = s.mem) :
    runsWithin s (.next t) :=
  ⟨t, rfl, (withinWindow_refl hwf).update hs hm⟩

include hfit hwf

theorem runCode_within (kind : LzwKind) (string : List Byte) (code : BitVec 12) :
    runsWithin s (runCode kind string code s) :=
  ((emitAll_within hfit (advance_within hwf _) string).map (by simp) (by simp)).orFault

theorem runPacket_within (n : Nat) (bytes : List Byte) (cut : Bool) :
    runsWithin s (runPacket n bytes cut s) :=
  ((emitAll_within hfit (advance_within hwf _) bytes).map
    (by cases cut <;> simp) (by cases cut <;> simp)).orFault

theorem runPixels_within (hout : s.outSize = s.W * s.H) (n : Nat) (pixels : List Byte) :
    runsWithin s (runPixels n pixels s) :=
  ((putPixels_within hfit hout (advance_within hwf _) pixels).map
    (finish_setup false) (finish_mem false)).orFault

theorem unpackRow_within (hout : s.outSize = s.H * s.rowSamples) (hr : s.r.toNat < s.H)
    (sample : Nat → Byte) (row : List Byte) : runsWithin s (unpackRow sample row s) := by
  have hrow := row_end_le s.rowSamples (outRow_lt hr)
  refine ((memWriteAll_within hfit (advance_within hwf _) ?_ ?_).map (by simp) (by simp)).orFault
  · unfold unpackAddress; omega
  · rw [List.length_map, List.length_range, unpackAddress]; omega

theorem execHpredRow_within (hout : s.outSize = s.H * s.rowSamples) (hr : s.r.toNat < s.H)
    (hc : 1 ≤ s.nc) : runsWithin s (execHpredRow s) := by
  have hrow := row_end_le s.rowSamples hr
  have haddr : hpredAddress s = s.dstAddr.toNat + s.r.toNat * s.rowSamples := rfl
  obtain ⟨m, hexec, hstored⟩ := execHpredRow_run hwf hc hr (by omega)
  refine ⟨_, hexec, rowDone_setup .., ?_⟩
  rw [rowDone_mem]
  refine sameOutside_of_stored (withinWindow_refl hwf).2 hstored (by omega) ?_
  rw [(undoPredictor_spec hc).1, bytesAt_length]
  omega

/-- A DEFILTER row is as long as the rows of its window (41_png_defilter.md R170). -/
theorem pngRow_within_defilter (hop : s.op.toNat ≠ 1) (hout : s.outSize = s.H * s.rb)
    (hr : s.r.toNat < s.H) (f : PngFilter) {raw : List Byte} (hlen : raw.length = s.rb) :
    runsWithin s (pngRow f raw s) := by
  have hrow := row_end_le s.rb hr
  have hfiltered := (defilterRow_spec (f := f) (prior := s.prior) (raw := raw)
    (bppb := s.bppb) (Nat.le_max_left 1 _)).1
  rw [pngRow, if_neg hop]
  refine ((memWriteAll_within hfit ((advance_within hwf _).update (keepRow_setup ..) rfl)
    ?_ ?_).map (by simp) (by simp)).orFault
  · simp only [keepRow_dstAddr, advance_dstAddr]
    omega
  · simp only [keepRow_dstAddr, advance_dstAddr, keepRow_r, advance_r, keepRow_rb, advance_rb]
    omega

theorem pngRow_within_adam7 (hop : s.op.toNat = 1) (hout : s.outSize = s.H * s.rb)
    (hr : s.r.toNat < s.passH s.p.toNat) (f : PngFilter) (raw : List Byte) :
    runsWithin s (pngRow f raw s) := by
  rw [pngRow, if_pos hop]
  exact ((scatterRow_within hfit hout ((advance_within hwf _).update (keepRow_setup ..) rfl) _
    hr).map (by simp) (by simp)).orFault

end Elements

end Sys2Proof.Machine

namespace Sys2Proof.Machine

open Sys2Proof.Claims

/-! ### Fetched elements within the window (40_command.md R138) -/

/-- What the fetch answered has a meaning that stays within the window: an element that runs within it,
or a truncated one. -/
def answersWithin (s : State) : Decoded → Prop
  | .instr i => runsWithin s (exec i s)
  | .truncated => True
  | .notACommand | .illegalContext => False

section Decoders

variable {s : State} (hfit : s.dstAddr.toNat + s.outSize ≤ s.params.memSize)
  (hwf : s.mem.wf = true)

include hwf in
/-- A PNG row of any of the five filters, or an illegal filter byte. -/
theorem decodePng_within {len : Nat}
    (hrow : ∀ f raw, raw.length = len → runsWithin s (pngRow f raw s)) (bs : List Byte) :
    answersWithin s (decodePng len bs) := by
  unfold decodePng
  split
  · trivial
  · split
    · exact raiseInStep_within hwf ..
    · split
      · rename_i raw hraw
        obtain ⟨hlen, rfl⟩ := takeExact_eq_some.1 hraw
        have hlen := List.length_take_of_le hlen
        unfold pngInstr
        split
        · exact hrow .none _ hlen
        · exact hrow .sub _ hlen
        · exact hrow .up _ hlen
        · exact hrow .avg _ hlen
        · exact hrow .paeth _ hlen
        · exact raiseInStep_within hwf ..
      · trivial

include hfit hwf

theorem decodeRle8_within (hout : s.outSize = s.W * s.H) (bs : List Byte) :
    answersWithin s (decodeRle8 bs) := by
  unfold decodeRle8
  split
  · split_ifs
    · exact runPixels_within hfit hwf hout ..
    · exact next_within hwf (by simp) (by simp)
    · exact next_within hwf (by simp) (by simp)
    · split
      · exact next_within hwf (by simp) (by simp)
      · trivial
    · split
      · exact runPixels_within hfit hwf hout ..
      · trivial
  · trivial

theorem decodeRle4_within (hout : s.outSize = s.W * s.H) (bs : List Byte) :
    answersWithin s (decodeRle4 bs) := by
  unfold decodeRle4
  split
  · split_ifs
    · exact runPixels_within hfit hwf hout ..
    · exact next_within hwf (by simp) (by simp)
    · exact next_within hwf (by simp) (by simp)
    · split
      · exact next_within hwf (by simp) (by simp)
      · trivial
    · dsimp only
      split
      · exact runPixels_within hfit hwf hout ..
      · trivial
  · trivial

theorem decodePackbits_within (room : Nat) (bs : List Byte) :
    answersWithin s (decodePackbits room bs) := by
  unfold decodePackbits
  split
  · trivial
  · split
    · split
      · exact runPacket_within hfit hwf ..
      · trivial
    · split
      · exact next_within hwf (by simp) (by simp)
      · split
        · exact runPacket_within hfit hwf ..
        · trivial

/-- A code of any class, in either variant (42_lzw.md R202 to R209). -/
theorem lzwInstr_within (kind : LzwKind) (cls : LzwClass) (code : BitVec 12) :
    runsWithin s (exec (lzwInstr kind cls code) s) := by
  cases cls with
  | root | dict | kwkwk => cases kind <;> exact runCode_within hfit hwf ..
  | clear | eoi => cases kind <;> exact next_within hwf (by simp) (by simp)
  | invalid => cases kind <;> exact raiseInStep_within hwf ..

theorem decodeLzw_within (kind : LzwKind) (min w next : Nat) (hasPrev : Bool) (bit : Nat)
    (bs : List Byte) : answersWithin s (decodeLzw kind min w next hasPrev bit bs) := by
  unfold decodeLzw
  split
  · trivial
  · exact lzwInstr_within hfit hwf ..

theorem decodeUnpack_within (hbd : bdLegal 7 s.bd = true)
    (hout : s.outSize = s.H * s.rowSamples) (hr : s.r.toNat < s.H) (stride : Nat)
    (bs : List Byte) : answersWithin s (decodeUnpack s.bd stride bs) := by
  unfold decodeUnpack
  split
  · trivial
  · split
    · exact unpackRow_within hfit hwf hout hr ..
    · split
      · exact unpackRow_within hfit hwf hout hr ..
      · split
        · exact unpackRow_within hfit hwf hout hr ..
        · simp [bdLegal] at hbd
          omega

end Decoders

/-! ### The engine step within the window -/

/-- What an engine step relies on: canonical memory, START's checks, progress within its ranges. -/
structure Runnable (s : State) : Prop where
  canonical : s.mem.wf = true
  checked : startFault s = none
  progress : progressOk s = true

theorem Runnable.of_inv {s : State} (h : Inv s) (hb : s.busy = true) : Runnable s where
  canonical := (Bool.and_eq_true_iff.1 h.memory).1
  checked := h.checked hb
  progress := h.progress hb

@[simp] theorem tick_startFault (s : State) : startFault (tick s) = startFault s := by
  unfold tick; split <;> rfl

@[simp] theorem tick_progressOk (s : State) : progressOk (tick s) = progressOk s := by
  unfold tick; split <;> rfl

/-- The wait of the host's next access is nothing the engine relies on. -/
theorem Runnable.tick {s : State} (h : Runnable s) : Runnable (tick s) where
  canonical := by simpa using h.canonical
  checked := by simpa using h.checked
  progress := by simpa using h.progress

theorem fetch_eq_decode {s : State} {c : Ctx} (h : s.ctx = some c) : fetch s = decode c s.input := by
  rw [fetch, h]

/-- The nine operations (10_state.md R24), each with its element format and the size of its window. -/
theorem fetch_within {s : State} (h : Runnable s) : answersWithin s (fetch s) := by
  obtain ⟨hwf, hchecked, hprogress⟩ := h
  obtain ⟨hop, hbd, hnc, hfit, -⟩ := checksPassed_of_startFault hchecked
  unfold progressOk at hprogress
  interval_cases hcase : s.op.toNat <;>
    simp only [Bool.and_eq_true, decide_eq_true_eq] at hprogress
  · rw [fetch_eq_decode (c := .png s.rb) (by simp [State.ctx, hcase])]
    exact decodePng_within hwf (fun f raw hlen => pngRow_within_defilter hfit hwf (by omega)
      (by simp [State.outSize, hcase]) hprogress.2 f hlen) _
  · rw [fetch_eq_decode (c := .png (s.passRowBytes s.p.toNat)) (by simp [State.ctx, hcase])]
    exact decodePng_within hwf (fun f raw _ => pngRow_within_adam7 hfit hwf hcase
      (by simp [State.outSize, hcase]) hprogress.2 f raw) _
  · rw [fetch_eq_decode (c := .lzw .gif s.lzwMin s.w.toNat s.next.toNat s.prev.isSome (s.bp.toNat % 8))
      (by simp [State.ctx, hcase])]
    exact decodeLzw_within hfit hwf ..
  · rw [fetch_eq_decode (c := .lzw .tiff 8 s.w.toNat s.next.toNat s.prev.isSome (s.bp.toNat % 8))
      (by simp [State.ctx, hcase])]
    exact decodeLzw_within hfit hwf ..
  · rw [fetch_eq_decode (c := .rle8) (by simp [State.ctx, hcase])]
    exact decodeRle8_within hfit hwf (by simp [State.outSize, hcase]) _
  · rw [fetch_eq_decode (c := .rle4) (by simp [State.ctx, hcase])]
    exact decodeRle4_within hfit hwf (by simp [State.outSize, hcase]) _
  · rw [fetch_eq_decode (c := .packbits s.room) (by simp [State.ctx, hcase])]
    exact decodePackbits_within hfit hwf ..
  · rw [fetch_eq_decode (c := .unpack s.bd s.stride) (by simp [State.ctx, hcase])]
    exact decodeUnpack_within hfit hwf hbd
      (by simp [State.outSize, State.rowSamples, hcase, Nat.mul_assoc]) hprogress.2 ..
  · rw [fetch_eq_decode (c := .hpred) (by simp [State.ctx, hcase])]
    exact execHpredRow_within hfit hwf
      (by simp [State.outSize, State.rowSamples, hcase, Nat.mul_assoc]) hprogress (hnc rfl)

/-- An engine step answers next and writes only the output window: its faults, its completion and
every element included. -/
theorem engineStep_within {s : State} (h : Runnable s) : runsWithin s (engineStep s) := by
  have hfetch := fetch_within h
  have hin := (checksPassed_of_startFault h.checked).input_exists
  cases habort : s.abortReq with
  | true =>
    simp only [engineStep, habort, if_true]
    exact raiseInStep_within h.canonical ..
  | false =>
    cases hf : fetch s with
    | instr i =>
      rw [hf] at hfetch
      have hstep : engineStep s = exec i s := by simp [engineStep, habort, hin, hf]
      rw [hstep]
      exact hfetch
    | truncated =>
      rw [engineStep_truncated habort hin hf]
      exact raiseInStep_within h.canonical ..
    | notACommand | illegalContext => rw [hf] at hfetch; exact hfetch.elim

/-- The engine's turn of a machine in the invariant. -/
theorem step_within {s : State} (h : Inv s) (hturn : engineTurn s = true) :
    ∃ t, step s = .next t ∧ sameOutside s t.mem := by
  have hbusy : s.busy = true := (Bool.and_eq_true_iff.1 hturn).1
  obtain ⟨t, ht, -, hsame⟩ := engineStep_within (Runnable.of_inv h hbusy).tick
  exact ⟨t, (step_engine hturn).trans ht, (sameOutside_tick s t.mem).1 hsame⟩

theorem inOutput_eq_false_iff {s : State} {a : Nat} :
    s.inOutput a = false ↔ a < s.dstAddr.toNat ∨ s.dstAddr.toNat + s.outSize ≤ a := by
  simp only [State.inOutput, Bool.and_eq_false_iff, decide_eq_false_iff_not, not_le, not_lt]

/-- START's checks keep the input window out of the output window (40_command.md R135 check 12). -/
theorem inOutput_of_inInput {s : State} {a : Nat} (h : startFault s = none)
    (ha : s.inInput a = true) : s.inOutput a = false := by
  simp only [State.inInput, Bool.and_eq_true, decide_eq_true_eq] at ha
  obtain ⟨⟨h8, hlow⟩, hhigh⟩ := ha
  have hd := windowsDisjoint_of_startFault h h8
  simp only [windowsDisjoint, Bool.or_eq_true, decide_eq_true_eq] at hd
  rw [inOutput_eq_false_iff]
  omega

/-- Settles O56: the step stays within its window, which the input window lies outside of. -/
theorem engineWritesOnlyItsWindow : Obligations.EngineWritesOnlyItsWindow := by
  intro s t hinv hturn hstep
  obtain ⟨u, hu, -, hsame⟩ := step_within hinv hturn
  obtain rfl := Host.Outcome.next.inj (hu.symm.trans hstep)
  have hout : ∀ a, s.inOutput a = false → u.mem.read a = s.mem.read a := fun a ha =>
    hsame a (inOutput_eq_false_iff.1 ha)
  have hbusy : s.busy = true := (Bool.and_eq_true_iff.1 hturn).1
  exact ⟨hout, fun a ha => hout a (inOutput_of_inInput (hinv.checked hbusy) ha)⟩

/-! ### The host raises no fault of the model -/

/-- The zero fill of a window that exists succeeds (40_command.md R137). -/
theorem zeroFill_isSome {s : State} (h : s.dstAddr.toNat + s.outSize ≤ s.params.memSize) :
    ∃ t, zeroFill s = some t := by
  obtain ⟨m, -, hw⟩ := memWriteAll_run (s := s) (vs := List.replicate s.outSize 0)
    (by rwa [List.length_replicate])
  exact ⟨_, hw⟩

theorem initialise_isSome {s : State} (h : s.dstAddr.toNat + s.outSize ≤ s.params.memSize) :
    ∃ t, initialise s = some t := by
  unfold initialise
  split
  case h_2 =>
    obtain ⟨t, ht⟩ := zeroFill_isSome h
    exact ⟨enterPass 1 t, by rw [ht, Option.map_some]⟩
  case h_5 | h_6 => exact zeroFill_isSome h
  all_goals exact ⟨_, rfl⟩

/-- A START faults as PXR-1 does, or begins a run in the window it checked. -/
theorem startCommand_next (op : BitVec 4) (irqEn abort : Bool) (s : State) :
    ∃ t, startCommand op irqEn abort s = .next t := by
  simp only [startCommand]
  split
  · exact ⟨_, rfl⟩
  · split
    · exact ⟨_, rfl⟩
    · rename_i hchecked
      obtain ⟨t, ht⟩ := initialise_isSome
        (s := { clearForStart (writeCtrl irqEn abort op s) with phase := .run })
        (checksPassed_of_startFault hchecked).output_exists
      exact ⟨openRun t, by rw [ht]; rfl⟩

/-- A word written to CTRL is a START or an ABORT. -/
theorem exec_decodeCtrl_next {v : Word} {i : Instr} (h : decodeCtrl v = .instr i) (s : State) :
    ∃ t, exec i s = .next t := by
  simp only [decodeCtrl] at h
  split at h
  · split at h <;>
    · obtain rfl := Decoded.instr.inj h
      exact startCommand_next ..
  · split at h
    · obtain rfl := Decoded.instr.inj h
      exact ⟨_, rfl⟩
    · cases h

/-- A word written to STATUS is an ACK. -/
theorem exec_decodeStatus_next {v : Word} {i : Instr} (h : decodeStatus v = .instr i) (s : State) :
    ∃ t, exec i s = .next t := by
  unfold decodeStatus at h
  split at h
  · obtain rfl := Decoded.instr.inj h
    exact ⟨_, rfl⟩
  · cases h

theorem registerWrite_next (off : Nat) (v : Word) (s : State) :
    ∃ t, registerWrite off v s = .next t := by
  unfold registerWrite
  split
  · split
    · rename_i hd
      exact exec_decodeCtrl_next hd s
    · exact ⟨_, rfl⟩
  · split
    · split
      · rename_i hd
        exact exec_decodeStatus_next hd s
      · exact ⟨_, rfl⟩
    · split <;> exact ⟨_, rfl⟩

/-- An outcome that is no fault of the model. -/
def doneOrRefused (o : Result) : Prop := (∃ t, o = .next t) ∨ ∃ r, o = .refused r

theorem doneOrRefused_next (s : State) : doneOrRefused (.next s) := .inl ⟨s, rfl⟩

theorem doneOrRefused_refused (r : Refusal) : doneOrRefused (.refused r) := .inr ⟨r, rfl⟩

theorem memoryRead_doneOrRefused (a size : Nat) (got : List Byte) (s : State) :
    doneOrRefused (memoryRead a size got s) := by
  unfold memoryRead
  split
  · exact doneOrRefused_refused _
  · exact doneOrRefused_next _

theorem memoryWrite_doneOrRefused (a : Nat) (data : List Byte) (s : State) :
    doneOrRefused (memoryWrite a data s) := by
  unfold memoryWrite
  split
  · exact doneOrRefused_next _
  · split
    · exact doneOrRefused_refused _
    · split
      · exact doneOrRefused_refused _
      · exact doneOrRefused_next _

theorem hostRead_doneOrRefused (addr size : Nat) (s : State) :
    doneOrRefused (hostRead addr size s) := by
  unfold hostRead
  split
  case h_1 => exact doneOrRefused_next _
  case h_3 => exact memoryRead_doneOrRefused ..
  all_goals exact doneOrRefused_refused _

theorem hostWrite_doneOrRefused (addr size value : Nat) (s : State) :
    doneOrRefused (hostWrite addr size value s) := by
  unfold hostWrite
  split
  case h_1 => exact .inl (registerWrite_next ..)
  case h_3 => exact memoryWrite_doneOrRefused ..
  all_goals exact doneOrRefused_refused _

/-- An access of the host is done or refused, in any state. -/
theorem performAccess_doneOrRefused (a : Access) (s : State) :
    doneOrRefused (performAccess a s) := by
  cases a with
  | reset => exact doneOrRefused_next _
  | read addr size =>
    simp only [performAccess]
    split
    · exact doneOrRefused_next _
    · exact hostRead_doneOrRefused ..
  | write addr size value =>
    simp only [performAccess]
    split
    · exact doneOrRefused_next _
    · exact hostWrite_doneOrRefused ..
  | readRest => exact memoryRead_doneOrRefused ..
  | writeRest => exact memoryWrite_doneOrRefused ..

/-- Settles O55: the engine's turn answers next, and the host's access never faults. -/
theorem invRunsNeverFault : Obligations.InvRunsNeverFault := by
  intro s f hinv hfault
  cases hturn : engineTurn s with
  | true =>
    obtain ⟨t, ht, -⟩ := step_within hinv hturn
    rw [ht] at hfault
    cases hfault
  | false =>
    cases hhost : s.host with
    | nil =>
      rw [step_idle hturn hhost] at hfault
      cases hfault
    | cons q rest =>
      rw [step_host hturn hhost] at hfault
      obtain ⟨t, ht⟩ | ⟨r, hr⟩ := performAccess_doneOrRefused q.access { s with host := rest }
      · rw [ht] at hfault
        cases hfault
      · rw [hr] at hfault
        cases hfault

end Sys2Proof.Machine

namespace Sys2Proof.Machine

open Sys2Proof.Claims

/-! ### The host's turn (60_exceptions.md R340) -/

/-- On the host's turn the step performs the access at the head of the queue. -/
theorem step_hostTurn {s : State} {acc : Access} {rest : List Queued} (h : hostTurn s acc rest) :
    step s = performAccess acc { s with host := rest } := by
  obtain ⟨w, hq, hturn⟩ := h
  have hengine : engineTurn s = false := by
    obtain hidle | rfl := hturn
    · simp [engineTurn, State.busy, hidle]
    · simp [engineTurn, hq]
  rw [step_host hengine hq]

/-- While the engine is idle the head of the queue is next, whatever its wait. -/
theorem hostTurn_of_idle {s : State} {w : Nat} {acc : Access} {rest : List Queued}
    (hidle : s.phase = .idle) (hq : s.host = ⟨w, acc⟩ :: rest) : hostTurn s acc rest :=
  ⟨w, hq, .inl hidle⟩

theorem busy_of_idle {s : State} (h : s.phase = .idle) : s.busy = false := by
  simp [State.busy, h]

theorem busy_of_run {s : State} (h : s.phase = .run) : s.busy = true := by
  simp [State.busy, h]

/-! ### Little-endian values (20_memory.md R65) -/

theorem splitBytes_eq_bytesOf (size v : Nat) : splitBytes size v = bytesOf size v := by
  refine List.ext_getElem (by simp [bytesOf]) fun k hk _ => ?_
  rw [splitBytes_length] at hk
  have hget := splitBytes_getElem? hk v
  rw [List.getElem?_eq_getElem (by simpa using hk)] at hget
  simpa [bytesOf] using Option.some.inj hget

theorem joinBytes_eq_valueOf (bs : List Byte) : joinBytes bs = valueOf bs := by
  induction bs using List.reverseRecOn with
  | nil => rfl
  | append_singleton bs b ih =>
    have hold : ∀ k ∈ Finset.range bs.length,
        (bs.getD k 0).toNat * 256 ^ k = ((bs ++ [b]).getD k 0).toNat * 256 ^ k := fun k hk => by
      rw [getD_append_left (Finset.mem_range.1 hk)]
    rw [joinBytes_append_singleton, ih, valueOf, valueOf, List.length_append, List.length_singleton,
      Finset.sum_range_succ, getD_append_end, Finset.sum_congr rfl hold]

/-- The bytes of a value are worth the value, as wide as they are. -/
theorem valueOf_bytesOf (size v : Nat) : valueOf (bytesOf size v) = v % 256 ^ size := by
  rw [← splitBytes_eq_bytesOf, ← joinBytes_eq_valueOf, joinBytes_splitBytes]

@[simp] theorem bytesOf_length (size v : Nat) : (bytesOf size v).length = size := by
  simp [bytesOf]

/-- The first of the bytes in memory. -/
theorem bytesAt_succ (m : Memory) (a n : Nat) :
    bytesAt m a (n + 1) = m.read a :: bytesAt m (a + 1) n := by
  simp [bytesAt, List.range_succ_eq_map, Function.comp_def, Nat.add_assoc, Nat.add_comm 1]

/-- Stored bytes are the bytes in memory. -/
theorem bytesAt_of_stored {m m' : Memory} {a : Nat} {bs : List Byte} (h : stored m m' a bs) :
    bytesAt m' a bs.length = bs := by
  obtain ⟨-, hget, -⟩ := h
  refine List.ext_getElem (bytesAt_length ..) fun k _ hk => ?_
  simp [bytesAt, hget k hk, List.getD_eq_getElem?_getD, hk]

/-! ### One byte of a data-memory access (20_memory.md R65, R70) -/

/-- A read at its first byte, or what is left of one, reads the next byte. -/
theorem performAccess_reads {s : State} {acc : Access} {a n : Nat} {got : List Byte}
    (rest : List Queued) (hp : s.params.wf = true) (h : reads s acc a n got) :
    performAccess acc { s with host := rest } = memoryRead a n got { s with host := rest } := by
  obtain ⟨hn, ha, ⟨rfl, rfl⟩ | rfl⟩ := h
  · have hregion := regionOf_memory hp ha
    simp only [performAccess, if_neg (Nat.one_le_iff_ne_zero.1 hn), hostRead, hregion]
  · rfl

/-- A write at its first byte, or what is left of one, stores the next byte. -/
theorem performAccess_writes {s : State} {acc : Access} {a : Nat} {v : Byte} {more : List Byte}
    (rest : List Queued) (hp : s.params.wf = true) (h : writes s acc a (v :: more)) :
    performAccess acc { s with host := rest } =
      memoryWrite a (v :: more) { s with host := rest } := by
  obtain ⟨ha, ⟨value, rfl, hbytes⟩ | rfl⟩ := h
  · have hregion := regionOf_memory hp ha
    simp only [performAccess, if_neg (Nat.succ_ne_zero _), List.length_cons, hostWrite] at hregion ⊢
    rw [hregion, splitBytes_eq_bytesOf]
    exact congrArg (memoryWrite a · _) hbytes.symm
  · rfl

/-- The next byte of a write exists. -/
theorem writes_lt {s : State} {acc : Access} {a : Nat} {v : Byte} {more : List Byte}
    (h : writes s acc a (v :: more)) : a < s.params.memSize := by
  obtain ⟨hend, -⟩ := h
  rw [List.length_cons] at hend
  omega

/-- A byte of a read is the one in memory, but for the output window of a run (R70 item 4). -/
theorem hostByte_eq_read {s : State} {a : Nat}
    (h : s.phase = .idle ∨ s.inOutput a = false ∨ (Inv s ∧ s.inInput a = true)) :
    hostByte a s = s.mem.read a := by
  obtain hidle | hout | ⟨hinv, hin⟩ := h
  · simp [hostByte, busy_of_idle hidle]
  · simp [hostByte, hout]
  · cases hbusy : s.busy with
    | true => exact hostByte_of_input (hinv.checked hbusy) hin
    | false => simp [hostByte, hbusy]

/-- A byte of a write lies in no window of a running operation (R70 item 5). -/
theorem windowBusy_eq_false {s : State} {a : Nat}
    (h : s.phase = .idle ∨ (s.inOutput a = false ∧ s.inInput a = false)) :
    windowBusy a s = false := by
  obtain hidle | ⟨hout, hin⟩ := h
  · simp [windowBusy, busy_of_idle hidle]
  · simp [windowBusy, hout, hin]

/-- The state after one byte `b` of a read of `n` bytes more: the value, or what is left of the read. -/
def afterRead (a n : Nat) (got : List Byte) (b : Byte) (w : Nat) (rest : List Queued) (s : State) :
    State :=
  if n = 1 then
    { s with host := rest, returned := valueOf (got ++ [b]) :: s.returned, free := s.free + 1 }
  else
    { s with host := ⟨w, .readRest (a + 1) (n - 1) (got ++ [b])⟩ :: rest, free := s.free + 1 }

/-- The state after one byte of a write, `more` left to store: what is left goes back to the queue. -/
def afterWrite (a : Nat) (more : List Byte) (m : Memory) (w : Nat) (rest : List Queued) (s : State) :
    State :=
  { s with
    mem := m
    host := if more = [] then rest else ⟨w, .writeRest (a + 1) more⟩ :: rest
    free := s.free + 1 }

theorem step_reads {s : State} {acc : Access} {a n : Nat} {got : List Byte} {rest : List Queued}
    (hturn : hostTurn s acc rest) (hp : s.params.wf = true) (h : reads s acc a n got) :
    ∃ b w, (s.phase = .idle ∨ s.inOutput a = false ∨ (Inv s ∧ s.inInput a = true) →
      b = s.mem.read a) ∧ step s = .next (afterRead a n got b w rest s) := by
  have ha : a < s.params.memSize := by
    obtain ⟨hn, ha, -⟩ := h
    omega
  refine ⟨hostByte a s, Config.byteGap (s.free + 1), hostByte_eq_read, ?_⟩
  rw [step_hostTurn hturn, performAccess_reads rest hp h,
    memoryRead_eq got (s := { s with host := rest }) ha, joinBytes_eq_valueOf]
  have hlast : n ≤ 1 ↔ n = 1 := by
    obtain ⟨hn, -⟩ := h
    omega
  simp only [hlast]
  rfl

theorem step_writes {s : State} {acc : Access} {a : Nat} {v : Byte} {more : List Byte}
    {rest : List Queued} (hturn : hostTurn s acc rest) (hp : s.params.wf = true)
    (hwf : s.mem.wf = true) (h : writes s acc a (v :: more))
    (hfree : s.phase = .idle ∨ (s.inOutput a = false ∧ s.inInput a = false)) :
    ∃ m w, stored s.mem m a [v] ∧ step s = .next (afterWrite a more m w rest s) := by
  have ha := writes_lt h
  refine ⟨s.mem.write a v, Config.byteGap (s.free + 1), ?_, ?_⟩
  · exact stored_of_storeAll (size := s.params.memSize) hwf
      (by simp [Memory.storeAll, Memory.store, ha])
  · rw [step_hostTurn hturn, performAccess_writes rest hp h,
      memoryWrite_eq v more (s := { s with host := rest }) ha (windowBusy_eq_false hfree)]
    rfl

/-! ### A whole access while the engine is idle -/

/-- A run of one step more that answers next. -/
theorem run_succ_eq_next (M : Host.Core) {n : Nat} {s u : M.State} :
    M.run (n + 1) s = .next u ↔ ∃ t, M.step s = .next t ∧ M.run n t = .next u := by
  rw [Host.Core.run]
  cases M.step s with
  | next t => simp
  | fault r => simp
  | refused r => simp

theorem steps_succ_iff {n : Nat} {s u : State} :
    steps (n + 1) s u ↔ ∃ t, step s = .next t ∧ steps n t u :=
  run_succ_eq_next Sys2Proof.core

theorem steps_succ {n : Nat} {s t u : State} (h : step s = .next t) (hsteps : steps n t u) :
    steps (n + 1) s u :=
  steps_succ_iff.2 ⟨t, h, hsteps⟩

theorem steps_add {j k : Nat} {s t u : State} (hj : steps j s t) (hk : steps k t u) :
    steps (j + k) s u := by
  induction j generalizing s with
  | zero =>
    obtain rfl := Host.Outcome.next.inj hj
    rwa [Nat.zero_add]
  | succ j ih =>
    obtain ⟨v, hv, hrest⟩ := steps_succ_iff.1 hj
    rw [Nat.succ_add]
    exact steps_succ hv (ih hrest)

/-- The rest of a read, byte by byte: the bytes in memory follow those already read. -/
theorem steps_reads {n : Nat} : ∀ {s : State} {acc : Access} {a : Nat} {got : List Byte}
    {rest : List Queued}, s.phase = .idle → s.params.wf = true → hostTurn s acc rest →
    reads s acc a n got →
      steps n s { s with
        host := rest, returned := valueOf (got ++ bytesAt s.mem a n) :: s.returned
        free := s.free + n } := by
  induction n with
  | zero => exact fun _ _ _ h => absurd h.1 (by omega)
  | succ n ih =>
    intro s acc a got rest hidle hp hturn hreads
    obtain ⟨b, w, hb, hstep⟩ := step_reads hturn hp hreads
    obtain rfl := hb (.inl hidle)
    rw [bytesAt_succ]
    cases n with
    | zero => exact steps_succ hstep rfl
    | succ n =>
      refine steps_succ hstep ?_
      rw [afterRead, if_neg (by omega)]
      have hrest := ih (s := { s with
          host := ⟨w, .readRest (a + 1) (n + 1) (got ++ [s.mem.read a])⟩ :: rest
          free := s.free + 1 }) hidle hp (hostTurn_of_idle hidle rfl)
        ⟨by omega, by have := hreads.2.1; simp only; omega, .inr rfl⟩
      rw [List.append_assoc, List.singleton_append] at hrest
      rw [show s.free + (n + 1 + 1) = s.free + 1 + (n + 1) by omega]
      exact hrest

/-- One byte stored, and then the bytes after it. -/
theorem stored_cons {m m₁ m₂ : Memory} {a : Nat} {v : Byte} {vs : List Byte}
    (h₁ : stored m m₁ a [v]) (h₂ : stored m₁ m₂ (a + 1) vs) : stored m m₂ a (v :: vs) := by
  obtain ⟨-, hget₁, hother₁⟩ := h₁
  obtain ⟨hwf, hget₂, hother₂⟩ := h₂
  simp only [List.length_singleton] at hget₁ hother₁
  simp only [stored, List.length_cons]
  refine ⟨hwf, fun k hk => ?_, fun b hb => ?_⟩
  · cases k with
    | zero => rw [hother₂ _ (by omega), hget₁ 0 (by omega)]; rfl
    | succ k =>
      rw [← Nat.add_assoc, Nat.add_right_comm, hget₂ k (by omega)]
      rfl
  · rw [hother₂ b (by omega), hother₁ b (by omega)]

/-- The rest of a write, byte by byte. -/
theorem steps_writes {bytes : List Byte} : ∀ {s : State} {acc : Access} {a : Nat}
    {rest : List Queued}, s.phase = .idle → s.params.wf = true → s.mem.wf = true → bytes ≠ [] →
    hostTurn s acc rest → writes s acc a bytes →
      ∃ m, stored s.mem m a bytes ∧
        steps bytes.length s { s with mem := m, host := rest, free := s.free + bytes.length } := by
  induction bytes with
  | nil => exact fun _ _ _ h => absurd rfl h
  | cons v more ih =>
    intro s acc a rest hidle hp hwf _ hturn hwrites
    obtain ⟨m₁, w, hstored, hstep⟩ := step_writes hturn hp hwf hwrites (.inl hidle)
    by_cases hmore : more = []
    · subst hmore
      exact ⟨m₁, hstored, steps_succ hstep rfl⟩
    · rw [afterWrite, if_neg hmore] at hstep
      have hend := hwrites.1
      rw [List.length_cons] at hend
      obtain ⟨m₂, hstored₂, hsteps⟩ := ih (s := { s with
          mem := m₁, host := ⟨w, .writeRest (a + 1) more⟩ :: rest, free := s.free + 1 })
        hidle hp hstored.1 hmore (hostTurn_of_idle hidle rfl)
        ⟨by simp only; omega, .inr rfl⟩
      refine ⟨m₂, stored_cons hstored hstored₂, steps_succ hstep ?_⟩
      rw [List.length_cons, Nat.add_comm more.length 1, ← Nat.add_assoc]
      exact hsteps

/-- A value read whole while the engine is idle. -/
theorem steps_read {s : State} {a n w : Nat} {rest : List Queued} (hidle : s.phase = .idle)
    (hp : s.params.wf = true) (hn : 1 ≤ n) (ha : a + n ≤ s.params.memSize)
    (hq : s.host = ⟨w, .read (s.params.memBase + a) n⟩ :: rest) :
    steps n s { s with
      host := rest, returned := valueOf (bytesAt s.mem a n) :: s.returned, free := s.free + n } := by
  have hreads : reads s (.read (s.params.memBase + a) n) a n [] := ⟨hn, ha, .inl ⟨rfl, rfl⟩⟩
  have hsteps := steps_reads hidle hp (hostTurn_of_idle hidle hq) hreads
  rwa [List.nil_append] at hsteps

/-- A value written whole while the engine is idle. -/
theorem steps_write {s : State} {a n v w : Nat} {rest : List Queued} (hidle : s.phase = .idle)
    (hp : s.params.wf = true) (hwf : s.mem.wf = true) (hn : 1 ≤ n)
    (ha : a + n ≤ s.params.memSize)
    (hq : s.host = ⟨w, .write (s.params.memBase + a) n v⟩ :: rest) :
    ∃ m, stored s.mem m a (bytesOf n v) ∧
      steps n s { s with mem := m, host := rest, free := s.free + n } := by
  have hlen := bytesOf_length n v
  have hsteps := steps_writes (bytes := bytesOf n v) hidle hp hwf
    (List.ne_nil_of_length_pos (by omega)) (hostTurn_of_idle hidle hq)
    ⟨by rwa [hlen], .inl ⟨v, by rw [hlen], by rw [hlen]⟩⟩
  rwa [hlen] at hsteps

/-- Settles O49: each byte is one host step, and a whole access is those steps in a row. -/
theorem hostMemoryWriteReadsBack : Obligations.HostMemoryWriteReadsBack := by
  refine ⟨?_, ?_, ?_, ?_⟩
  · intro s a n v w1 w2 rest hidle hp hwf hn ha hq
    obtain ⟨m, hstored, hwrite⟩ := steps_write hidle hp hwf hn ha hq
    have hread := steps_read (s := { s with
        mem := m, host := ⟨w2, .read (s.params.memBase + a) n⟩ :: rest, free := s.free + n })
      hidle hp hn ha rfl
    have hbytes := bytesAt_of_stored hstored
    rw [bytesOf_length] at hbytes
    simp only [hbytes, valueOf_bytesOf] at hread
    exact ⟨m, steps_add hwrite hread, hstored⟩
  · exact fun s a n w rest => steps_read
  · exact fun s acc a v more rest => step_writes
  · exact fun s acc a n got rest => step_reads

/-! ### Refused accesses (20_memory.md R65, R67, R70) -/

/-- An access of at least one byte is refused by what its address decoding says. -/
theorem performAccess_refused {s : State} {acc : Access} {addr size : Nat} {r : Refusal}
    (rest : List Queued) (h : touches acc addr size)
    (hregion : regionOf s.params addr size = .malformed ∧ r = .registerAccessForm ∨
      regionOf s.params addr size = .outside ∧ r = .addressNotPxr) :
    performAccess acc { s with host := rest } = .refused r := by
  obtain ⟨hsize, rfl | ⟨v, rfl⟩⟩ := h <;> obtain ⟨hregion, rfl⟩ | ⟨hregion, rfl⟩ := hregion <;>
    simp [performAccess, Nat.one_le_iff_ne_zero.1 hsize, hostRead, hostWrite, hregion]

theorem regionOf_malformed {p : Params} {addr size : Nat} (hbelow : addr < p.regBase + 256)
    (habove : p.regBase < addr + size)
    (hform : ¬ (p.regBase ≤ addr ∧ (addr - p.regBase) % 4 = 0 ∧ size = 4)) :
    regionOf p addr size = .malformed := by
  rw [regionOf, if_pos ⟨hbelow, habove⟩, if_neg]
  simpa [registerForm] using hform

theorem regionOf_outside {p : Params} {addr size : Nat}
    (hreg : addr + size ≤ p.regBase ∨ p.regBase + 256 ≤ addr)
    (hmem : addr < p.memBase ∨ p.memBase + p.memSize < addr + size) :
    regionOf p addr size = .outside := by
  rw [regionOf, if_neg (by omega), if_neg (by omega)]

/-- A byte in a window of a running operation is not written. -/
theorem memoryWrite_windowBusy {s : State} {a : Nat} (v : Byte) (more : List Byte)
    (ha : a < s.params.memSize) (hw : windowBusy a s = true) :
    memoryWrite a (v :: more) s = .refused .windowWriteWhileBusy := by
  simp [memoryWrite, Nat.not_le.2 ha, hw]

/-- Settles O50: the two by address decoding, the window's at the write's first byte. -/
theorem hostRefusals : Obligations.HostRefusals := by
  refine ⟨?_, ?_, ?_⟩
  · intro s acc addr size rest hturn htouches hbelow habove hform
    rw [step_hostTurn hturn]
    exact performAccess_refused rest htouches
      (.inl ⟨regionOf_malformed hbelow habove hform, rfl⟩)
  · intro s acc a v more rest hturn hp hwrites hrun hwindow
    have ha := writes_lt hwrites
    have hbusy : windowBusy a s = true := by simp [windowBusy, busy_of_run hrun, hwindow]
    rw [step_hostTurn hturn, performAccess_writes rest hp hwrites]
    exact memoryWrite_windowBusy v more ha hbusy
  · intro s acc addr size rest hturn htouches hreg hmem
    rw [step_hostTurn hturn]
    exact performAccess_refused rest htouches (.inr ⟨regionOf_outside hreg hmem, rfl⟩)

end Sys2Proof.Machine

/-! PROOFS. The elements of 30_encoding.md as one relation between a context, the bytes of an element
and its instruction; what the decoder answers and what the encoder writes, both in its terms. -/

namespace Sys2Proof

open Sys2Proof.Claims

/-! ### Command words (30_encoding.md R90, R91; 20_memory.md R64) -/

/-- The bytes of a register word are worth the word. -/
theorem wordOfLe_leBytes (v : Word) : wordOfLe (leBytes v) = v := by
  refine BitVec.eq_of_toNat_eq ?_
  have hv : v.toNat < 2 ^ 32 := v.isLt
  simp only [wordOfLe, leBytes, List.getD_cons_zero, List.getD_cons_succ, BitVec.toNat_ofNat,
    BitVec.extractLsb'_toNat, Nat.shiftRight_eq_div_pow]
  omega

/-- Bytes after the first four are not part of a register word. -/
theorem wordOfLe_append {p : List Byte} (rest : List Byte) (h : 4 ≤ p.length) :
    wordOfLe (p ++ rest) = wordOfLe p := by
  have hget : ∀ k < 4, (p ++ rest).getD k 0 = p.getD k 0 := fun k hk =>
    Machine.getD_append_left (by omega)
  simp only [wordOfLe, hget 0, hget 1, hget 2, hget 3, Nat.reduceLT]

/-- The fields of a CTRL word are where R90 puts them. -/
theorem ctrlWordOf_fields (start ab ie : Bool) (op : BitVec 4) :
    (ctrlWordOf start ab op.toNat ie).getLsbD 0 = start ∧
    (ctrlWordOf start ab op.toNat ie).getLsbD 1 = ab ∧
    (ctrlWordOf start ab op.toNat ie).getLsbD 8 = ie ∧
    (ctrlWordOf start ab op.toNat ie).extractLsb' 4 4 = op := by
  revert start ab ie op
  decide

/-- A CTRL word with START = 1 is the START of its OP field, else an ABORT where the bit is set. -/
theorem decodeCtrl_eq (v : Word) : decodeCtrl v =
    if v.getLsbD 0 then .instr (startInstr (v.extractLsb' 4 4) (v.getLsbD 8) (v.getLsbD 1))
    else if v.getLsbD 1 then .instr (.abort (v.getLsbD 8) (v.extractLsb' 4 4))
    else .notACommand := by
  unfold decodeCtrl startInstr
  dsimp only
  split
  · generalize (v.extractLsb' 4 4).toNat = field
    match field with
    | 0 | 1 | 2 | 3 | 4 | 5 | 6 | 7 | 8 => rfl
    | _ + 9 => rfl
  · rfl

/-- The word of a START decodes to that START. -/
theorem decodeCtrl_start (op : BitVec 4) (ie ab : Bool) :
    decodeCtrl (ctrlWordOf true ab op.toNat ie) = .instr (startInstr op ie ab) := by
  obtain ⟨hstart, hab, hie, hop⟩ := ctrlWordOf_fields true ab ie op
  rw [decodeCtrl_eq, hstart, hab, hie, hop, if_pos rfl]

/-- The word of an ABORT decodes to that ABORT. -/
theorem decodeCtrl_abort (op : BitVec 4) (ie : Bool) :
    decodeCtrl (ctrlWordOf false true op.toNat ie) = .instr (.abort ie op) := by
  obtain ⟨hstart, hab, hie, hop⟩ := ctrlWordOf_fields false true ie op
  rw [decodeCtrl_eq, hstart, hab, hie, hop]
  rfl

/-- The word of an ACK decodes to that ACK where it clears something. -/
theorem decodeStatus_ack {d f : Bool} (h : (d || f) = true) :
    decodeStatus (BitVec.ofNat 32 (2 * d.toNat + 4 * f.toNat)) = .instr (.ack d f) := by
  revert d f
  decide

/-- A START is written as the CTRL word of its fields. -/
theorem encode_startInstr (c : Ctx) (op : BitVec 4) (ie ab : Bool) :
    encode c (startInstr op ie ab) = leBytes (ctrlWordOf true ab op.toNat ie) := by
  unfold startInstr
  split <;> rename_i hop <;> simp only [encode, hop]

/-- A reserved START is the START of a reserved OP. -/
theorem startInstr_reserved {op : BitVec 4} (ie ab : Bool) (h : 9 ≤ op.toNat) :
    startInstr op ie ab = .startReserved ie ab op := by
  unfold startInstr
  split
  case h_10 => rfl
  all_goals omega

theorem startInstr_wf (op : BitVec 4) (ie ab : Bool) : (startInstr op ie ab).wf .ctrl = true := by
  unfold startInstr
  split <;> simp only [Instr.wf, decide_true, Bool.true_and, decide_eq_true_eq]
  grind

/-- A word written to CTRL is a START or an ABORT, or is rejected. -/
theorem decodeCtrl_cases (v : Word) :
    (∃ op ie ab, decodeCtrl v = .instr (startInstr op ie ab)) ∨
    (∃ op ie, decodeCtrl v = .instr (.abort ie op)) ∨ decodeCtrl v = .notACommand := by
  rw [decodeCtrl_eq]
  split_ifs
  · exact .inl ⟨_, _, _, rfl⟩
  · exact .inr (.inl ⟨_, _, rfl⟩)
  · exact .inr (.inr rfl)

/-- A word written to STATUS is an ACK that clears something, or is rejected. -/
theorem decodeStatus_cases (v : Word) :
    (∃ d f, (d || f) = true ∧ decodeStatus v = .instr (.ack d f)) ∨
    decodeStatus v = .notACommand := by
  unfold decodeStatus
  split
  · exact .inl ⟨_, _, ‹_›, rfl⟩
  · exact .inr rfl

/-! ### Bits of written LZW codes (30_encoding.md R99, R100; 00_scope.md R12) -/

/-- A bit of a number's bytes is the number's. -/
theorem bytesLe_getLsbD {n v k j : Nat} (hk : k < n) (hj : j < 8) :
    ((bytesLe n v).getD k 0).getLsbD j = v.testBit (8 * k + j) := by
  have hpow : 256 ^ k = 2 ^ (8 * k) := (pow_mul 2 8 k).symm
  rw [bytesLe_getD n v k hk, BitVec.getLsbD_ofNat, hpow, Nat.testBit_div_two_pow]
  simp [hj, Nat.add_comm]

/-- Bit `n` of little-endian bytes, LSB-first, is bit `n` of the number. -/
theorem streamBit_gif_bytesLe {n v k : Nat} (h : k < 8 * n) :
    streamBit .gif (bytesLe n v) k = v.testBit k := by
  rw [streamBit, bytesLe_getLsbD (by omega) (by omega), Nat.div_add_mod]

/-- Bit `n` of big-endian bytes, MSB-first, counts down from the number's highest bit. -/
theorem streamBit_tiff_bytesLe {n v k : Nat} (h : k < 8 * n) :
    streamBit .tiff (bytesLe n v).reverse k = v.testBit (8 * n - 1 - k) := by
  have hlen := Laws.EncodedLength.bytesLe_length n v
  have hget : (bytesLe n v).reverse.getD (k / 8) 0 = (bytesLe n v).getD (n - 1 - k / 8) 0 := by
    simp only [List.getD_eq_getElem?_getD]
    rw [List.getElem?_reverse (by omega), hlen]
  rw [streamBit, hget, bytesLe_getLsbD (by omega) (by omega)]
  congr 1
  omega

/-- A GIF code read from bits that are a number's from bit 0 on. -/
theorem readCode_gif_eq_mod {bs : List Byte} {bit w code : Nat}
    (h : ∀ j < w, streamBit .gif bs (bit + j) = code.testBit j) :
    readCode .gif bs bit w = code % 2 ^ w := by
  induction w with
  | zero => simp [readCode, Nat.mod_one]
  | succ w ih =>
    rw [readCode, ih fun j hj => h j (by omega), h w (by omega), Nat.mod_pow_succ,
      Nat.toNat_testBit]

/-- A TIFF code read from bits that are a number's from bit `w - 1` down: after `k` bits it is the
number without its last `w - k`. -/
theorem readCode_tiff_eq_div {bs : List Byte} {bit w code : Nat} (hcode : code < 2 ^ w)
    (h : ∀ j < w, streamBit .tiff bs (bit + j) = code.testBit (w - 1 - j)) :
    ∀ k ≤ w, readCode .tiff bs bit k = code / 2 ^ (w - k) := by
  intro k
  induction k with
  | zero => intro _; simp [readCode, Nat.div_eq_of_lt hcode]
  | succ k ih =>
    intro hk
    have hbit : (code.testBit (w - 1 - k)).toNat = code / 2 ^ (w - (k + 1)) % 2 := by
      rw [Nat.toNat_testBit, show w - 1 - k = w - (k + 1) by omega]
    have hhalf : code / 2 ^ (w - k) = code / 2 ^ (w - (k + 1)) / 2 := by
      rw [show w - k = w - (k + 1) + 1 by omega, pow_succ, Nat.div_div_eq_div_mul]
    rw [readCode, ih (by omega), h k hk, hbit, hhalf]
    omega

/-- A written code reads back at the bit it was written at. -/
theorem readCode_packCode {kind : LzwKind} {bit w code : Nat} (h : code < 2 ^ w) :
    readCode kind (packCode kind bit w code) bit w = code := by
  have hroom : bit + w ≤ 8 * divCeil (bit + w) 8 := by unfold divCeil; omega
  cases kind with
  | gif =>
    refine (readCode_gif_eq_mod fun j hj => ?_).trans (Nat.mod_eq_of_lt h)
    rw [packCode, streamBit_gif_bytesLe (by omega), Nat.testBit_mul_two_pow]
    simp
  | tiff =>
    refine (readCode_tiff_eq_div h (fun j hj => ?_) w le_rfl).trans (by simp)
    rw [packCode, streamBit_tiff_bytesLe (by omega), Nat.testBit_mul_two_pow]
    have hin : 8 * divCeil (bit + w) 8 - bit - w ≤ 8 * divCeil (bit + w) 8 - 1 - (bit + j) := by
      omega
    have hidx : 8 * divCeil (bit + w) 8 - 1 - (bit + j) - (8 * divCeil (bit + w) 8 - bit - w) =
        w - 1 - j := by omega
    simp [hin, hidx]

/-- A code is read from the bytes its bits reach into. -/
theorem readCode_append {kind : LzwKind} {p : List Byte} {bit w : Nat} (rest : List Byte)
    (h : p.length = divCeil (bit + w) 8) :
    readCode kind (p ++ rest) bit w = readCode kind p bit w := by
  refine readCode_congr fun n _ hn => ?_
  have hin : n / 8 < p.length := by rw [h]; unfold divCeil; omega
  cases kind <;> simp only [streamBit, Machine.getD_append_left hin]

end Sys2Proof

namespace Sys2Proof

open Sys2Proof.Claims Sys2Proof.Laws

/-! ### Elements (30_encoding.md R90 to R100) -/

/-- What RLE8 and RLE4 differ in: their instructions, and the data bytes of an absolute run before the
pad byte. -/
structure RleFormat where
  enc : Byte → Byte → Instr
  eol : Instr
  eob : Instr
  delta : Byte → Byte → Instr
  abs : Byte → List Byte → Instr
  dataBytes : Byte → Nat

/-- RLE8 (R96). -/
def rle8Format : RleFormat :=
  ⟨.rle8Enc, .rle8Eol, .rle8Eob, .rle8Delta, .rle8Abs, fun n => n.toNat⟩

/-- RLE4 (R97). -/
def rle4Format : RleFormat :=
  ⟨.rle4Enc, .rle4Eol, .rle4Eob, .rle4Delta, .rle4Abs, fun n => divCeil n.toNat 2⟩

/-- The decoder RLE8 and RLE4 share. -/
def RleFormat.decode (f : RleFormat) : List Byte → Decoded
  | n :: s :: rest =>
    if n ≠ 0 then .instr (f.enc n s)
    else if s = 0 then .instr f.eol
    else if s = 1 then .instr f.eob
    else if s = 2 then
      match rest with
      | dx :: dy :: _ => .instr (f.delta dx dy)
      | _ => .truncated
    else match takeExact (f.dataBytes s + f.dataBytes s % 2) rest with
      | some d => .instr (f.abs s (d.take (f.dataBytes s)))
      | none => .truncated
  | _ => .truncated

theorem decodeRle8_eq (bs : List Byte) : decodeRle8 bs = rle8Format.decode bs := by
  unfold decodeRle8 RleFormat.decode
  rfl

theorem decodeRle4_eq (bs : List Byte) : decodeRle4 bs = rle4Format.decode bs := by
  unfold decodeRle4 RleFormat.decode
  rfl

/-- The elements of a run-length format: the rows of the tables of R96 and R97. -/
inductive RleElement (f : RleFormat) : List Byte → Instr → Prop
  | enc {n : Byte} (v : Byte) (hn : n ≠ 0) : RleElement f [n, v] (f.enc n v)
  | eol : RleElement f [0, 0] f.eol
  | eob : RleElement f [0, 1] f.eob
  | delta (dx dy : Byte) : RleElement f [0, 2, dx, dy] (f.delta dx dy)
  | abs {n : Byte} {d : List Byte} (hn : 3 ≤ n.toNat)
      (hd : d.length = f.dataBytes n + f.dataBytes n % 2) :
      RleElement f (0 :: n :: d) (f.abs n (d.take (f.dataBytes n)))

/-- `Element c p i`: in context `c` the bytes `p`, none more and none fewer, are an element whose
instruction is `i`. Pad bytes, and the bits around an LZW code, may have any value. -/
inductive Element : Ctx → List Byte → Instr → Prop
  | ctrl {p : List Byte} {i : Instr} (hp : p.length = 4)
      (hd : decodeCtrl (wordOfLe p) = .instr i) : Element .ctrl p i
  | status {p : List Byte} {i : Instr} (hp : p.length = 4)
      (hd : decodeStatus (wordOfLe p) = .instr i) : Element .status p i
  | png {f : Byte} (raw : List Byte) (hf : f.toNat ≤ 4) :
      Element (.png raw.length) (f :: raw) (pngInstr f raw)
  | pngIllegal (len : Nat) {f : Byte} (hf : 4 < f.toNat) : Element (.png len) [f] (.pngIllegal f)
  | rle8 {p : List Byte} {i : Instr} (h : RleElement rle8Format p i) : Element .rle8 p i
  | rle4 {p : List Byte} {i : Instr} (h : RleElement rle4Format p i) : Element .rle4 p i
  | pbLit {room : Nat} {h : Byte} {data : List Byte} (hh : h.toNat < 128)
      (hd : data.length = min (h.toNat + 1) room) :
      Element (.packbits room) (h :: data) (.pbLit (h.setWidth 7) data)
  | pbRep (room : Nat) {h : Byte} (v : Byte) (hh : 0x80 < h.toNat) :
      Element (.packbits room) [h, v] (.pbRep h v)
  | pbNop (room : Nat) : Element (.packbits room) [0x80] .pbNop
  | lzw {kind : LzwKind} {w bit code : Nat} {p : List Byte} (min next : Nat) (hasPrev : Bool)
      (hp : p.length = divCeil (bit + w) 8) (hcode : readCode kind p bit w = code) :
      Element (.lzw kind min w next hasPrev bit) p
        (lzwInstr kind (lzwClass min next hasPrev code) (BitVec.ofNat 12 code))
  | unpackSub8 {bd : Nat} (row : List Byte) (hbd : bd = 1 ∨ bd = 2 ∨ bd = 4 ∨ bd = 8) :
      Element (.unpack bd row.length) row (.unpackRowSub8 row)
  | unpack16 (row : List Byte) : Element (.unpack 16 row.length) row (.unpackRow16 row)
  | unpack32 (row : List Byte) : Element (.unpack 32 row.length) row (.unpackRow32 row)
  | hpred : Element .hpred [] .hpredRow

/-! ### What the decoder answers -/

/-- The decoder answers an element's instruction, whatever bytes follow. -/
theorem RleFormat.decode_of_element {f : RleFormat} {p : List Byte} {i : Instr}
    (h : RleElement f p i) (rest : List Byte) : f.decode (p ++ rest) = .instr i := by
  cases h with
  | enc v hn => exact if_pos hn
  | eol | eob | delta dx dy => rfl
  | @abs n d hn hd =>
    obtain ⟨h0, h1, h2⟩ : n ≠ 0 ∧ n ≠ 1 ∧ n ≠ 2 := ⟨by bv_omega, by bv_omega, by bv_omega⟩
    simp only [List.cons_append, RleFormat.decode, ne_eq, not_true_eq_false, if_false, if_neg h0,
      if_neg h1, if_neg h2, takeExact_append hd]

/-- The decoder answers an element's instruction, whatever bytes follow (R92). -/
theorem decode_of_element {c : Ctx} {p : List Byte} {i : Instr} (h : Element c p i)
    (rest : List Byte) : decode c (p ++ rest) = .instr i := by
  cases h with
  | ctrl hp hd | status hp hd => simp [decode, hp, wordOfLe_append rest hp.ge, hd]
  | png raw hf => simp [decode, decodePng, Nat.not_lt.2 hf, takeExact_append rfl]
  | pngIllegal len hf => simp [decode, decodePng, hf]
  | rle8 h => exact (decodeRle8_eq _).trans (RleFormat.decode_of_element h rest)
  | rle4 h => exact (decodeRle4_eq _).trans (RleFormat.decode_of_element h rest)
  | pbLit hh hd => simp [decode, decodePackbits, hh, takeExact_append hd]
  | @pbRep room h v hh =>
    have hne : h ≠ 0x80 := by bv_omega
    have hlit : ¬ h.toNat < 128 := Nat.not_lt.2 (Nat.le_of_lt hh)
    simp only [List.cons_append, decode, decodePackbits, if_neg hlit, if_neg hne]
  | pbNop room => rfl
  | lzw min next hasPrev hp hcode =>
    rw [decode, decodeLzw, readCode_append rest hp, hcode, if_neg]
    rw [List.length_append, hp]
    unfold divCeil
    omega
  | unpackSub8 row hbd => simp [decode, decodeUnpack, takeExact_append rfl, hbd]
  | unpack16 row | unpack32 row => simp [decode, decodeUnpack, takeExact_append rfl]
  | hpred => rfl

/-- An element of context `c` stands at the head of the bytes. -/
def elementAtHead (c : Ctx) (bs : List Byte) : Prop := ∃ p rest i, bs = p ++ rest ∧ Element c p i

theorem Element.atHead {c : Ctx} {p : List Byte} {i : Instr} (h : Element c p i)
    (rest : List Byte) : elementAtHead c (p ++ rest) := ⟨p, rest, i, rfl, h⟩

/-- There are too few bytes, or as many as asked for can be split off. -/
theorem short_or_splits (n : Nat) (bs : List Byte) :
    bs.length < n ∨ ∃ p rest, bs = p ++ rest ∧ p.length = n := by
  by_cases h : n ≤ bs.length
  · exact .inr ⟨bs.take n, bs.drop n, (List.take_append_drop n bs).symm, List.length_take_of_le h⟩
  · exact .inl (Nat.not_le.1 h)

theorem decodePng_cases (len : Nat) (bs : List Byte) :
    decodePng len bs = .truncated ∨ elementAtHead (.png len) bs := by
  cases bs with
  | nil => exact .inl rfl
  | cons f bs =>
    by_cases hf : 4 < f.toNat
    · exact .inr ((Element.pngIllegal len hf).atHead bs)
    · obtain hshort | ⟨raw, rest, rfl, rfl⟩ := short_or_splits len bs
      · exact .inl (by simp only [decodePng, if_neg hf, takeExact_eq_none.2 hshort])
      · exact .inr ((Element.png raw (Nat.not_lt.1 hf)).atHead rest)

theorem RleFormat.decode_cases (f : RleFormat) (bs : List Byte) :
    f.decode bs = .truncated ∨ ∃ p rest i, bs = p ++ rest ∧ RleElement f p i := by
  unfold RleFormat.decode
  split
  · rename_i n s rest
    split_ifs with hn h0 h1 h2
    · exact .inr ⟨[n, s], rest, _, rfl, .enc s hn⟩
    all_goals obtain rfl : n = 0 := not_not.1 hn
    · exact .inr ⟨[0, 0], rest, _, by rw [h0]; rfl, .eol⟩
    · exact .inr ⟨[0, 1], rest, _, by rw [h1]; rfl, .eob⟩
    · split
      · rename_i dx dy rest
        exact .inr ⟨[0, 2, dx, dy], rest, _, by rw [h2]; rfl, .delta dx dy⟩
      · exact .inl rfl
    · have h3 : 3 ≤ s.toNat := by bv_omega
      obtain hshort | ⟨d, rest, rfl, hd⟩ :=
        short_or_splits (f.dataBytes s + f.dataBytes s % 2) rest
      · exact .inl (by rw [takeExact_eq_none.2 hshort])
      · exact .inr ⟨0 :: s :: d, rest, _, rfl, .abs h3 hd⟩
  · exact .inl rfl

theorem decodePackbits_cases (room : Nat) (bs : List Byte) :
    decodePackbits room bs = .truncated ∨ elementAtHead (.packbits room) bs := by
  cases bs with
  | nil => exact .inl rfl
  | cons h bs =>
    by_cases hlit : h.toNat < 128
    · obtain hshort | ⟨data, rest, rfl, hlen⟩ := short_or_splits (min (h.toNat + 1) room) bs
      · exact .inl (by simp only [decodePackbits, if_pos hlit, takeExact_eq_none.2 hshort])
      · exact .inr ((Element.pbLit hlit hlen).atHead rest)
    · by_cases hnop : h = 0x80
      · exact .inr (hnop ▸ (Element.pbNop room).atHead bs)
      · cases bs with
        | nil => exact .inl (by simp only [decodePackbits, if_neg hlit, if_neg hnop])
        | cons v bs => exact .inr ((Element.pbRep room v (by bv_omega)).atHead bs)

theorem decodeLzw_cases (kind : LzwKind) (min w next : Nat) (hasPrev : Bool) (bit : Nat)
    (bs : List Byte) : decodeLzw kind min w next hasPrev bit bs = .truncated ∨
      elementAtHead (.lzw kind min w next hasPrev bit) bs := by
  obtain hshort | ⟨p, rest, rfl, hp⟩ := short_or_splits (divCeil (bit + w) 8) bs
  · exact .inl (if_pos (by unfold divCeil at hshort; omega))
  · exact .inr ((Element.lzw min next hasPrev hp rfl).atHead rest)

/-- A word's four bytes may be missing, hold a command, or hold none whatever follows. -/
theorem decode_cases_of_word {c : Ctx} {command : Word → Decoded}
    (hdec : ∀ bs, decode c bs = if bs.length < 4 then .truncated else command (wordOfLe bs))
    (helem : ∀ p i, p.length = 4 → command (wordOfLe p) = .instr i → Element c p i)
    (bs : List Byte) : decode c bs = .truncated ∨ elementAtHead c bs ∨
      ∀ rest i, decode c (bs ++ rest) ≠ .instr i := by
  obtain hshort | ⟨p, rest, rfl, hp⟩ := short_or_splits 4 bs
  · exact .inl ((hdec bs).trans (if_pos hshort))
  · cases hd : command (wordOfLe p) with
    | instr i => exact .inr (.inl ((helem p i hp hd).atHead rest))
    | _ => exact .inr (.inr fun more i => by simp [hdec, hp, wordOfLe_append _ hp.ge, hd])

/-- What the decoder can answer: that the bytes end too early, the instruction of the element at their
head, or a rejection that further bytes do not mend. -/
theorem decode_cases (c : Ctx) (bs : List Byte) :
    decode c bs = .truncated ∨ elementAtHead c bs ∨ ∀ rest i, decode c (bs ++ rest) ≠ .instr i := by
  cases c with
  | ctrl => exact decode_cases_of_word (fun _ => rfl) (fun _ _ => .ctrl) bs
  | status => exact decode_cases_of_word (fun _ => rfl) (fun _ _ => .status) bs
  | png len => exact (decodePng_cases len bs).imp_right .inl
  | rle8 =>
    obtain htrunc | ⟨p, rest, i, rfl, h⟩ := rle8Format.decode_cases bs
    · exact .inl ((decodeRle8_eq bs).trans htrunc)
    · exact .inr (.inl ((Element.rle8 h).atHead rest))
  | rle4 =>
    obtain htrunc | ⟨p, rest, i, rfl, h⟩ := rle4Format.decode_cases bs
    · exact .inl ((decodeRle4_eq bs).trans htrunc)
    · exact .inr (.inl ((Element.rle4 h).atHead rest))
  | packbits room => exact (decodePackbits_cases room bs).imp_right .inl
  | lzw kind min w next hasPrev bit =>
    exact (decodeLzw_cases kind min w next hasPrev bit bs).imp_right .inl
  | unpack bd stride =>
    obtain hshort | ⟨row, rest, rfl, rfl⟩ := short_or_splits stride bs
    · exact .inl (by rw [decode, decodeUnpack, takeExact_eq_none.2 hshort])
    · by_cases hsub : bd = 1 ∨ bd = 2 ∨ bd = 4 ∨ bd = 8
      · exact .inr (.inl ((Element.unpackSub8 row hsub).atHead rest))
      · by_cases h16 : bd = 16
        · exact .inr (.inl (h16 ▸ (Element.unpack16 row).atHead rest))
        · by_cases h32 : bd = 32
          · exact .inr (.inl (h32 ▸ (Element.unpack32 row).atHead rest))
          · refine .inr (.inr fun more i => ?_)
            simp [decode, decodeUnpack, takeExact_append rfl, hsub, h16, h32]
  | hpred => exact .inr (.inl (Element.hpred.atHead bs))

/-- The decoder answers an instruction exactly where its element stands at the head. -/
theorem decode_eq_instr_iff {c : Ctx} {bs : List Byte} {i : Instr} :
    decode c bs = .instr i ↔ ∃ p rest, bs = p ++ rest ∧ Element c p i := by
  constructor
  · intro hd
    obtain htrunc | ⟨p, rest, j, rfl, helem⟩ | hrej := decode_cases c bs
    · simp [hd] at htrunc
    · obtain rfl := Decoded.instr.inj ((decode_of_element helem rest).symm.trans hd)
      exact ⟨p, rest, rfl, helem⟩
    · exact absurd (by rwa [List.append_nil]) (hrej [] i)
  · rintro ⟨p, rest, rfl, helem⟩
    exact decode_of_element helem rest

/-! ### The classes of LZW codes (30_encoding.md R99, R100; 42_lzw.md R210) -/

/-- The condition of a class on a code. -/
def LzwClass.holds (min next : Nat) (hasPrev : Bool) (code : Nat) : LzwClass → Prop
  | .root => lzwRootOk code min next hasPrev = true
  | .clear => code = 2 ^ min
  | .eoi => code = 2 ^ min + 1
  | .dict => lzwDictOk code min next hasPrev = true
  | .kwkwk => lzwKwkwkOk code min next hasPrev = true
  | .invalid => lzwInvalidOk code min next hasPrev = true

/-- The condition of its class holds of a code. -/
theorem lzwClass_holds (min next : Nat) (hasPrev : Bool) (code : Nat) :
    (lzwClass min next hasPrev code).holds min next hasPrev code := by
  unfold lzwClass
  split_ifs with hclear heoi hfirst hnone hknown hroot hnew
  · exact hclear
  · exact heoi
  · grind [LzwClass.holds, lzwRootOk]
  · grind [LzwClass.holds, lzwInvalidOk]
  · grind [LzwClass.holds, lzwRootOk]
  · grind [LzwClass.holds, lzwDictOk]
  · grind [LzwClass.holds, lzwKwkwkOk]
  · grind [LzwClass.holds, lzwInvalidOk]

/-- A class whose condition holds of a code is its class. -/
theorem lzwClass_of_holds {min next code : Nat} {hasPrev : Bool} {cls : LzwClass}
    (h : cls.holds min next hasPrev code) : lzwClass min next hasPrev code = cls := by
  unfold lzwClass
  cases cls with
  | root => grind [LzwClass.holds, lzwRootOk]
  | clear => grind [LzwClass.holds]
  | eoi => grind [LzwClass.holds]
  | dict => grind [LzwClass.holds, lzwDictOk]
  | kwkwk => grind [LzwClass.holds, lzwKwkwkOk]
  | invalid => grind [LzwClass.holds, lzwInvalidOk]

theorem lzwOk_iff {kind : LzwKind} {min w next bit : Nat} {hasPrev : Bool}
    {ok : Nat → Nat → Bool → Bool} {code : Nat → Nat} :
    (Ctx.lzw kind min w next hasPrev bit).lzwOk kind ok code = true ↔
      w ≤ 12 ∧ code min < 2 ^ w ∧ ok min next hasPrev = true := by
  simp [Ctx.lzwOk, and_assoc]

/-- The instruction of a code of a class is well formed where the code fits the width. -/
theorem lzwInstr_wf {kind : LzwKind} {min w next bit code : Nat} {hasPrev : Bool} {cls : LzwClass}
    (hw : w ≤ 12) (hcode : code < 2 ^ w) (hcls : cls.holds min next hasPrev code) :
    (lzwInstr kind cls (BitVec.ofNat 12 code)).wf (.lzw kind min w next hasPrev bit) = true := by
  have hval : (BitVec.ofNat 12 code).toNat = code := by
    rw [BitVec.toNat_ofNat]
    exact Nat.mod_eq_of_lt (hcode.trans_le (Nat.pow_le_pow_right (by decide) hw))
  cases cls with
  | clear | eoi =>
    subst hcls
    cases kind <;> simpa only [lzwInstr, Instr.wf, lzwOk_iff, and_true] using ⟨hw, hcode⟩
  | root | dict | kwkwk | invalid =>
    cases kind <;> simpa only [lzwInstr, Instr.wf, lzwOk_iff, hval] using ⟨hw, hcode, hcls⟩

/-- An LZW instruction's encoding is the bytes its code's bits reach into. -/
theorem encode_lzwInstr_length (c : Ctx) (kind : LzwKind) (cls : LzwClass) (code : BitVec 12) :
    (encode c (lzwInstr kind cls code)).length = EncodedLength.codeBytes c := by
  cases kind <;> cases cls <;> exact EncodedLength.lzw_length c _

/-- The encoding of an LZW instruction, `code` being its code at each MIN and `cls` its class. -/
theorem element_encodeLzw {c : Ctx} {kind : LzwKind} {ok : Nat → Nat → Bool → Bool}
    {code : Nat → Nat} {i : Instr} (cls : LzwClass) (h : c.lzwOk kind ok code = true)
    (hcls : ∀ min next hasPrev, ok min next hasPrev = true → cls.holds min next hasPrev (code min))
    (hi : ∀ min, i = lzwInstr kind cls (BitVec.ofNat 12 (code min))) :
    Element c (encodeLzw c code) i := by
  cases c with
  | lzw k min w next hasPrev bit =>
    simp only [Ctx.lzwOk, Bool.and_eq_true, decide_eq_true_eq] at h
    obtain ⟨⟨⟨rfl, -⟩, hcode⟩, hok⟩ := h
    rw [hi min, ← lzwClass_of_holds (hcls min next hasPrev hok)]
    exact .lzw min next hasPrev (EncodedLength.packCode_length ..) (readCode_packCode hcode)
  | _ => simp [Ctx.lzwOk] at h

/-! ### The length and the well-formedness of an element -/

/-- A filter byte up to 4 has a row instruction, written as the filter byte and the row (R95). -/
theorem encode_pngInstr {f : Byte} (hf : f.toNat ≤ 4) (c : Ctx) (raw : List Byte) :
    encode c (pngInstr f raw) = f :: raw := by
  obtain rfl | rfl | rfl | rfl | rfl : f = 0 ∨ f = 1 ∨ f = 2 ∨ f = 3 ∨ f = 4 := by bv_omega
  all_goals rfl

theorem pngInstr_wf {f : Byte} (hf : f.toNat ≤ 4) (raw : List Byte) :
    (pngInstr f raw).wf (.png raw.length) = true := by
  obtain rfl | rfl | rfl | rfl | rfl : f = 0 ∨ f = 1 ∨ f = 2 ∨ f = 3 ∨ f = 4 := by bv_omega
  all_goals simp [pngInstr, Instr.wf]

/-- An UNPACK row is well formed only at its own length and an admitted sample width. -/
theorem unpack_of_unpackOk {c : Ctx} {row : List Byte} {ok : Nat → Bool}
    (h : c.unpackOk row ok = true) : ∃ bd, c = .unpack bd row.length ∧ ok bd = true := by
  cases c with
  | unpack bd stride =>
    obtain ⟨hbd, hlen⟩ := Bool.and_eq_true_iff.1 h
    exact ⟨bd, by rw [of_decide_eq_true hlen], hbd⟩
  | _ => simp [Ctx.unpackOk] at h

/-- An absolute run is as long with its pad byte as with a pad byte of 0. -/
theorem abs_length_eq {k : Nat} (n : Byte) {d : List Byte} (hd : d.length = k + k % 2) :
    (0 :: n :: d).length =
      ((0x00 : Byte) :: n :: d.take k ++ List.replicate (k % 2) 0x00).length := by
  rw [EncodedLength.abs_length 0 n k (List.length_take_of_le (by omega)), List.length_cons,
    List.length_cons, hd]
  omega

/-- An element is as long as its instruction's encoding (R104). -/
theorem Element.length_eq {c : Ctx} {p : List Byte} {i : Instr} (h : Element c p i) :
    p.length = (encode c i).length := by
  cases h with
  | ctrl hp hd =>
    obtain ⟨op, ie, ab, hi⟩ | ⟨op, ie, hi⟩ | hi := decodeCtrl_cases (wordOfLe p) <;>
      rw [hd] at hi <;> cases hi
    · rw [hp, encode_startInstr]; rfl
    · exact hp
  | status hp hd =>
    obtain ⟨d, f, -, hi⟩ | hi := decodeStatus_cases (wordOfLe p) <;> rw [hd] at hi <;> cases hi
    exact hp
  | png raw hf => rw [encode_pngInstr hf]
  | rle8 h | rle4 h =>
    cases h with
    | abs hn hd => exact abs_length_eq _ hd
    | _ => rfl
  | lzw min next hasPrev hp hcode =>
    rw [encode_lzwInstr_length]
    exact hp
  | _ => rfl

/-- An element's instruction is well formed; LZW widths are at most 12 (10_state.md R42). -/
theorem Element.wf {c : Ctx} {p : List Byte} {i : Instr}
    (hw : ∀ kind min w next hasPrev bit, c = .lzw kind min w next hasPrev bit → w ≤ 12)
    (h : Element c p i) : i.wf c = true := by
  cases h with
  | ctrl hp hd =>
    obtain ⟨op, ie, ab, hi⟩ | ⟨op, ie, hi⟩ | hi := decodeCtrl_cases (wordOfLe p) <;>
      rw [hd] at hi <;> cases hi
    · exact startInstr_wf op ie ab
    · rfl
  | status hp hd =>
    obtain ⟨d, f, hdf, hi⟩ | hi := decodeStatus_cases (wordOfLe p) <;> rw [hd] at hi <;> cases hi
    exact hdf
  | png raw hf => exact pngInstr_wf hf raw
  | pngIllegal len hf => simp [Instr.wf, hf]
  | rle8 h =>
    cases h with
    | enc v hn => exact decide_eq_true hn
    | abs hn hd => simp [rle8Format, Instr.wf, hn, hd]
    | _ => rfl
  | rle4 h =>
    cases h with
    | enc v hn => exact decide_eq_true hn
    | abs hn hd => simp [rle4Format, Instr.wf, hn, hd]
    | _ => rfl
  | pbLit hh hd => simpa [Instr.wf, Nat.mod_eq_of_lt hh] using hd
  | pbRep room v hh => exact decide_eq_true hh
  | pbNop room => rfl
  | lzw min next hasPrev hp hcode =>
    exact lzwInstr_wf (hw _ _ _ _ _ _ rfl) (hcode ▸ readCode_lt ..) (lzwClass_holds ..)
  | unpackSub8 row hbd => simpa [Instr.wf, Ctx.unpackOk, or_assoc] using hbd
  | unpack16 row | unpack32 row => simp [Instr.wf, Ctx.unpackOk]
  | hpred => rfl

/-- The bytes of a word whose command is `i` are its element. -/
theorem element_leBytes_ctrl {v : Word} {i : Instr} (h : decodeCtrl v = .instr i) :
    Element .ctrl (leBytes v) i :=
  .ctrl rfl (by rw [wordOfLe_leBytes, h])

/-- A START is encoded as its element. -/
theorem element_start {c : Ctx} (op : BitVec 4) (ie ab : Bool) (hc : c = .ctrl) :
    Element c (encode c (startInstr op ie ab)) (startInstr op ie ab) := by
  rw [hc, encode_startInstr]
  exact element_leBytes_ctrl (decodeCtrl_start op ie ab)

/-- A PNG row is encoded as its element. -/
theorem element_pngRow {c : Ctx} {f : Byte} {raw : List Byte} (hf : f.toNat ≤ 4)
    (h : c = .png raw.length) : Element c (encode c (pngInstr f raw)) (pngInstr f raw) := by
  rw [h, encode_pngInstr hf]
  exact .png raw hf

/-- An absolute run with a pad byte of 0 is an element. -/
theorem element_abs (f : RleFormat) {n : Byte} {data : List Byte} (hn : 3 ≤ n.toNat)
    (hd : data.length = f.dataBytes n) :
    RleElement f (0x00 :: n :: data ++ List.replicate (f.dataBytes n % 2) 0x00) (f.abs n data) := by
  have h := RleElement.abs (f := f) (d := data ++ List.replicate (f.dataBytes n % 2) 0x00) hn
    (by simp [hd])
  rwa [List.take_left' hd] at h

/-- The encoding of a well-formed instruction is its element. -/
theorem element_encode {c : Ctx} {i : Instr} (h : i.wf c = true) : Element c (encode c i) i := by
  cases i with
  | startDefilter ie ab => exact element_start 0 ie ab (of_decide_eq_true h)
  | startAdam7 ie ab => exact element_start 1 ie ab (of_decide_eq_true h)
  | startLzwGif ie ab => exact element_start 2 ie ab (of_decide_eq_true h)
  | startLzwTiff ie ab => exact element_start 3 ie ab (of_decide_eq_true h)
  | startRle8 ie ab => exact element_start 4 ie ab (of_decide_eq_true h)
  | startRle4 ie ab => exact element_start 5 ie ab (of_decide_eq_true h)
  | startPackbits ie ab => exact element_start 6 ie ab (of_decide_eq_true h)
  | startUnpack ie ab => exact element_start 7 ie ab (of_decide_eq_true h)
  | startHpred ie ab => exact element_start 8 ie ab (of_decide_eq_true h)
  | startReserved ie ab op =>
    obtain ⟨hc, hop⟩ := Bool.and_eq_true_iff.1 h
    rw [← startInstr_reserved ie ab (of_decide_eq_true hop)]
    exact element_start op ie ab (of_decide_eq_true hc)
  | abort ie op =>
    obtain rfl := of_decide_eq_true h
    exact element_leBytes_ctrl (decodeCtrl_abort op ie)
  | ack d f =>
    obtain ⟨hc, hdf⟩ := Bool.and_eq_true_iff.1 h
    obtain rfl := of_decide_eq_true hc
    exact .status rfl ((congrArg decodeStatus (wordOfLe_leBytes _)).trans (decodeStatus_ack hdf))
  | pngNone raw => exact element_pngRow (f := 0) (by decide) (of_decide_eq_true h)
  | pngSub raw => exact element_pngRow (f := 1) (by decide) (of_decide_eq_true h)
  | pngUp raw => exact element_pngRow (f := 2) (by decide) (of_decide_eq_true h)
  | pngAvg raw => exact element_pngRow (f := 3) (by decide) (of_decide_eq_true h)
  | pngPaeth raw => exact element_pngRow (f := 4) (by decide) (of_decide_eq_true h)
  | pngIllegal f =>
    cases c with
    | png len => exact .pngIllegal len (of_decide_eq_true h)
    | _ => simp [Instr.wf] at h
  | rle8Enc n v =>
    obtain ⟨rfl, hn⟩ : c = .rle8 ∧ n ≠ 0 := by simpa [Instr.wf] using h
    exact .rle8 (.enc v hn)
  | rle8Eol => exact of_decide_eq_true h ▸ .rle8 .eol
  | rle8Eob => exact of_decide_eq_true h ▸ .rle8 .eob
  | rle8Delta dx dy => exact of_decide_eq_true h ▸ .rle8 (.delta dx dy)
  | rle8Abs n data =>
    obtain ⟨⟨rfl, hn⟩, hd⟩ : (c = .rle8 ∧ 3 ≤ n.toNat) ∧ data.length = n.toNat := by
      simpa [Instr.wf] using h
    exact .rle8 (element_abs rle8Format hn hd)
  | rle4Enc n v =>
    obtain ⟨rfl, hn⟩ : c = .rle4 ∧ n ≠ 0 := by simpa [Instr.wf] using h
    exact .rle4 (.enc v hn)
  | rle4Eol => exact of_decide_eq_true h ▸ .rle4 .eol
  | rle4Eob => exact of_decide_eq_true h ▸ .rle4 .eob
  | rle4Delta dx dy => exact of_decide_eq_true h ▸ .rle4 (.delta dx dy)
  | rle4Abs n data =>
    obtain ⟨⟨rfl, hn⟩, hd⟩ : (c = .rle4 ∧ 3 ≤ n.toNat) ∧ data.length = divCeil n.toNat 2 := by
      simpa [Instr.wf] using h
    exact .rle4 (element_abs rle4Format hn hd)
  | pbLit k data =>
    cases c with
    | packbits room =>
      have hk : (k.setWidth 8).toNat = k.toNat := BitVec.toNat_setWidth_of_le (by decide)
      have helem := Element.pbLit (h := k.setWidth 8) (hk ▸ k.isLt) (hk ▸ of_decide_eq_true h)
      rwa [BitVec.setWidth_setWidth_of_le k (by decide), BitVec.setWidth_eq] at helem
    | _ => simp [Instr.wf] at h
  | pbRep k v =>
    cases c with
    | packbits room => exact .pbRep room v (of_decide_eq_true h)
    | _ => simp [Instr.wf] at h
  | pbNop =>
    cases c with
    | packbits room => exact .pbNop room
    | _ => simp [Instr.wf] at h
  | lzwGifClear | lzwTiffClear =>
    exact element_encodeLzw .clear h (fun _ _ _ _ => rfl) fun _ => rfl
  | lzwGifEoi | lzwTiffEoi =>
    exact element_encodeLzw .eoi h (fun _ _ _ _ => rfl) fun _ => rfl
  | lzwGifRoot code | lzwTiffRoot code =>
    exact element_encodeLzw .root h (fun _ _ _ => id) fun _ => by simp [lzwInstr]
  | lzwGifDict code | lzwTiffDict code =>
    exact element_encodeLzw .dict h (fun _ _ _ => id) fun _ => by simp [lzwInstr]
  | lzwGifKwkwk code | lzwTiffKwkwk code =>
    exact element_encodeLzw .kwkwk h (fun _ _ _ => id) fun _ => by simp [lzwInstr]
  | lzwGifInvalid code | lzwTiffInvalid code =>
    exact element_encodeLzw .invalid h (fun _ _ _ => id) fun _ => by simp [lzwInstr]
  | unpackRowSub8 row =>
    obtain ⟨bd, rfl, hbd⟩ := unpack_of_unpackOk h
    exact .unpackSub8 row (by simpa [or_assoc] using hbd)
  | unpackRow16 row =>
    obtain ⟨bd, rfl, hbd⟩ := unpack_of_unpackOk h
    exact of_decide_eq_true hbd ▸ .unpack16 row
  | unpackRow32 row =>
    obtain ⟨bd, rfl, hbd⟩ := unpack_of_unpackOk h
    exact of_decide_eq_true hbd ▸ .unpack32 row
  | hpredRow => exact of_decide_eq_true h ▸ .hpred

/-- Settles O1: an encoding is an element, and the decoder answers an element's instruction. -/
theorem decodeEncodeRoundTrip : Obligations.DecodeEncodeRoundTrip :=
  fun _ _ rest h => decode_of_element (element_encode h) rest

/-- Settles O2: the answer's element stands at the head of the bytes and is as long as the encoding. -/
theorem decodedInstructionIsWellFormed : Obligations.DecodedInstructionIsWellFormed := by
  intro c bs i hw hd
  obtain ⟨p, rest, rfl, helem⟩ := decode_eq_instr_iff.1 hd
  refine ⟨helem.wf hw, decode_eq_instr_iff.2 ⟨p, [], ?_, helem⟩⟩
  rw [List.take_left' helem.length_eq, List.append_nil]

/-- Settles O3: a shorter beginning neither holds an element, which would be the whole encoding, nor is
rejected, since the whole encoding is not. -/
theorem properBeginningIsTruncated : Obligations.ProperBeginningIsTruncated := by
  intro c i k hwf hk
  have hwhole : decode c ((encode c i).take k ++ (encode c i).drop k) = .instr i := by
    rw [List.take_append_drop, ← List.append_nil (encode c i)]
    exact decodeEncodeRoundTrip c i [] hwf
  obtain htrunc | ⟨p, rest, j, hp, helem⟩ | hrej := decode_cases c ((encode c i).take k)
  · exact htrunc
  · rw [hp, List.append_assoc, decode_of_element helem] at hwhole
    obtain rfl := Decoded.instr.inj hwhole
    have hlen := congrArg List.length hp
    rw [List.length_append, helem.length_eq, List.length_take_of_le hk.le] at hlen
    omega
  · exact absurd hwhole (hrej _ i)

end Sys2Proof

/-! ### Written words and headers (30_encoding.md R91 to R100) -/

namespace Sys2Proof

/-- Settles O4: the thirteen words are evaluated. -/
theorem decodeOfWrittenWords : Obligations.DecodeOfWrittenWords := by
  unfold Obligations.DecodeOfWrittenWords
  decide

/-- Settles O5: the filter byte alone is the element. -/
theorem illegalFilterByteFoundFirst : Obligations.IllegalFilterByteFoundFirst :=
  fun len _ rest hf => decode_of_element (.pngIllegal len hf) rest

/-- A header byte that is not negative is its own signed value. -/
theorem toNat_of_toInt_nonneg {h : Byte} (hh : 0 ≤ h.toInt) :
    h.toNat < 128 ∧ h.toInt.toNat = h.toNat := by
  rw [BitVec.toInt_eq_toNat_cond] at *
  split at hh <;> omega

/-- A negative header byte is its signed value plus 256. -/
theorem toNat_of_toInt_neg {h : Byte} (hh : h.toInt < 0) : (h.toNat : Int) = h.toInt + 256 := by
  rw [BitVec.toInt_eq_toNat_cond] at *
  split at hh <;> omega

/-- Settles O6: the three ranges of the signed header are the three rows of R98. -/
theorem packbitsHeaderClasses : Obligations.PackbitsHeaderClasses := by
  intro room h v data rest
  refine ⟨fun hlow hd => ?_, fun hlow hhigh => ?_, fun hnop => ?_⟩
  · obtain ⟨hsmall, hval⟩ := toNat_of_toInt_nonneg hlow
    exact decode_of_element (.pbLit hsmall (hval ▸ hd)) rest
  · have hval := toNat_of_toInt_neg (h := h) (by omega)
    exact decode_of_element (.pbRep room v (by omega)) rest
  · have hval := toNat_of_toInt_neg (h := h) (by omega)
    obtain rfl : h = 0x80 := by bv_omega
    exact decode_of_element (.pbNop room) rest

end Sys2Proof

/-! PROOFS. What three meanings do: RLE4 runs (43_rle_packbits.md R247, R248), the PackBits no-op
(R252) and a START of a reserved operation (40_command.md R135 check 1). -/

namespace Sys2Proof.Machine

open Sys2Proof.Claims

/-! ### Runs of pixels (43_rle_packbits.md R241) -/

theorem visible_le (s : State) (n : Nat) : visible s n ≤ n := by
  unfold visible
  split <;> omega

/-- A run element of `n` bytes stores its pixels that fall inside the window side by side. -/
theorem runPixels_placed {s : State} (hs : pixelsOk s) (n : Nat) (pixels : List Byte) :
    ∃ m, runPixels n pixels s = .next (placed n pixels.length m s) ∧
      stored s.mem m (pixelAt s) (pixels.take (visible s pixels.length)) := by
  obtain ⟨hwf, hx, hfit⟩ := hs
  obtain ⟨m, hm, hput⟩ := putPixels_run pixels (s := advance (8 * n) s) hx hfit
  refine ⟨m, ?_, stored_of_storeAll hwf hm⟩
  rw [runPixels, hput]
  rfl

/-- The first pixels of a run whose pixels are numbered. -/
theorem take_map_range (pixel : Nat → Byte) {k n : Nat} (h : k ≤ n) :
    ((List.range n).map pixel).take k = (List.range k).map pixel := by
  rw [← List.map_take, List.take_range, Nat.min_eq_left h]

/-- A run of `n` numbered pixels. -/
theorem runPixels_numbered {s : State} (hs : pixelsOk s) (bytes n : Nat) (pixel : Nat → Byte) :
    ∃ m, runPixels bytes ((List.range n).map pixel) s = .next (placed bytes n m s) ∧
      stored s.mem m (pixelAt s) ((List.range (visible s n)).map pixel) := by
  have h := runPixels_placed hs bytes ((List.range n).map pixel)
  rwa [List.length_map, List.length_range, take_map_range pixel (visible_le s n)] at h

/-! ### RLE4 (43_rle_packbits.md R247, R248) -/

/-- A pixel of an encoded run is the nibble the claims name. -/
theorem enc4Pixel_eq_nibble (v : Byte) : enc4Pixel v = nibble v := by
  have hhigh : highNibble v = v >>> 4 := by
    simp [highNibble, BitVec.toNat_eq, Nat.shiftRight_eq_div_pow]
    omega
  have hlow : lowNibble v = v &&& 0x0F := by
    have hmask : v.toNat &&& 15 = v.toNat % 16 := Nat.and_two_pow_sub_one_eq_mod v.toNat 4
    simp [lowNibble, BitVec.toNat_eq, hmask]
    omega
  funext i
  rw [enc4Pixel, nibble, hhigh, hlow]

/-- Settles O29: both runs are runs of numbered nibbles. -/
theorem rle4RunsPlacePixels : Obligations.Rle4RunsPlacePixels := by
  intro s n v data hs
  refine ⟨?_, fun _ => ?_⟩
  · exact enc4Pixel_eq_nibble v ▸ runPixels_numbered hs 2 n.toNat (enc4Pixel v)
  · have habs : abs4Pixel data = fun i => nibble (data.getD (i / 2) 0) i := by
      funext i
      rw [abs4Pixel, enc4Pixel_eq_nibble]
    exact habs ▸ runPixels_numbered hs _ n.toNat (abs4Pixel data)

/-! ### The PackBits no-op (43_rle_packbits.md R252) -/

/-- The end of a step whose output is not full leaves a boundary (40_command.md R140). -/
theorem finishFull_of_room {s : State} (h : s.out.toNat < s.outSize) :
    finishFull s = ended false s := by
  rw [finishFull, decide_eq_false h.ne]
  rfl

theorem outSize_packbits {s : State} (h : s.op = 6) : s.outSize = s.dstLen.toNat := by
  simp [State.outSize, h]

/-- Settles O33: with room left the step ends at a boundary, BP past the header. -/
theorem packbitsNopConsumesHeader : Obligations.PackbitsNopConsumesHeader := by
  intro s hop hroom
  have hout : (advance 8 s).out.toNat < (advance 8 s).outSize := by
    rwa [outSize_packbits (s := advance 8 s) hop]
  exact congrArg Host.Outcome.next (finishFull_of_room hout)

/-! ### A reserved START (40_command.md R134, R135) -/

/-- On an idle engine START writes CTRL and clears as the claims state it. -/
theorem clearForStart_writeCtrl {s : State} (hidle : s.phase = .idle) (irqEn abort : Bool)
    (op : BitVec 4) : clearForStart (writeCtrl irqEn abort op s) = cleared op irqEn s := by
  rw [writeCtrl, if_neg (by simp [busy_of_idle hidle])]
  rfl

/-- On an idle engine a START whose checks find a fault reports it and stays idle. -/
theorem startCommand_of_startFault {s : State} {op : BitVec 4} {irqEn abort : Bool}
    {code : FaultCode} {info : Word} (hidle : s.phase = .idle)
    (h : startFault (cleared op irqEn s) = some (code, info)) :
    startCommand op irqEn abort s = .next { cleared op irqEn s with
      fcode := faultValue code, finfo := info, fault := true, seen := [] } := by
  rw [startCommand, if_neg (by simp [busy_of_idle hidle]), clearForStart_writeCtrl hidle]
  simp only [h, raiseAtStart_eq]
  simp [cleared, hidle]

/-- An operation above 8 fails check 1, before any other. -/
theorem startFault_badOp {s : State} (h : 8 < s.op.toNat) :
    startFault s = some (.badOp, BitVec.ofNat 32 s.op.toNat) := if_pos h

/-- Settles O13: check 1 finds the reserved operation. -/
theorem startReservedFaultsBadOp : Obligations.StartReservedFaultsBadOp := by
  intro s op ie ab hidle hop
  have hcheck := startFault_badOp (s := cleared op ie s) hop
  exact (startCommand_of_startFault hidle hcheck).trans (by rw [BitVec.ofNat_toNat]; rfl)

end Sys2Proof.Machine

/-! PROOFS. Commands and elements of 40_command.md: what a step runs (R132, R138, R139), ACK (R155),
START's checks and the begin of a run (R134 to R137), the strings and runs an element emits (R140 to
R142), and that every run ends (R144). -/

namespace Sys2Proof.Machine

open Sys2Proof.Claims

/-! ### The step (40_command.md R132, R138, R139) -/

/-- The step of an engine that fetches an instruction runs it (R138). -/
theorem engineStep_instr {s : State} {i : Instr} (ha : s.abortReq = false)
    (hin : s.inputExists = true) (hf : fetch s = .instr i) : engineStep s = exec i s := by
  simp [engineStep, ha, hin, hf]

/-- The step of an engine whose abort latch is set fetches nothing (R139). -/
theorem engineStep_abort {s : State} (ha : s.abortReq = true) :
    engineStep s = .next (raiseInStep .abort 0 s) := if_pos ha

/-- A host write of an aligned word of the register block is a register write. -/
theorem performAccess_writeOf (s : State) {off : Nat} (h : off < 256) (h4 : off % 4 = 0) (v : Word)
    (host : List Queued) :
    performAccess (writeOf s off v) { s with host := host } =
      registerWrite off v { s with host := host } := by
  simp [performAccess, writeOf, hostWrite, regionOf_register _ h h4]

/-- A word written to CTRL that carries a command runs it (R132). -/
theorem registerWrite_ctrl {v : Word} {i : Instr} (h : decode .ctrl (leBytes v) = .instr i)
    (s : State) : registerWrite 0x04 v s = exec i s := by
  simp [registerWrite, h]

/-- A word written to STATUS that carries a command runs it (R132, R155). -/
theorem registerWrite_status {v : Word} {i : Instr} (h : decode .status (leBytes v) = .instr i)
    (s : State) : registerWrite 0x08 v s = exec i s := by
  simp [registerWrite, h]

/-- Settles O8: the engine's turn fetches and runs, the host's turn writes CTRL or STATUS. -/
theorem stepRunsDecodedInstruction : Obligations.StepRunsDecodedInstruction := by
  refine ⟨fun s c i hturn ha hin hc hd _ => ?_, fun s v rest i hturn hd _ => ?_,
    fun s v rest i hturn hd _ => ?_⟩
  · have hf : fetch (tick s) = .instr i := by rw [tick_fetch, fetch_eq_decode hc, hd]
    rw [step_engine hturn, engineStep_instr (by simpa using ha) (by simpa using hin) hf]
  · rw [step_hostTurn hturn, performAccess_writeOf s (by decide) rfl, registerWrite_ctrl hd]
  · rw [step_hostTurn hturn, performAccess_writeOf s (by decide) rfl, registerWrite_status hd]

/-- Settles O9: the latch raises E_ABORT before any fetch, and an idle engine has no turn. -/
theorem abortTestedFirst : Obligations.AbortTestedFirst := by
  refine ⟨fun s hturn ha hwf => ⟨(scrambleOutput (tick s)).mem, ?_, ?_⟩, fun s hidle => ?_⟩
  · rw [step_engine hturn, engineStep_abort (by simpa using ha), raiseInStep_eq_faulted]
    rfl
  · exact (sameOutside_tick s _).1 (sameOutside_scrambleOutput (by simpa using hwf))
  · simp [engineTurn, busy_of_idle hidle]

/-! ### ACK and EOI (R155; 42_lzw.md R208) -/

/-- Settles O20: ACK is the equality of its meaning; with both bits cleared IRQ has no cause. -/
theorem ackClearsBits : Obligations.AckClearsBits := by
  refine fun s d f => ⟨rfl, fun t ht => ?_⟩
  obtain rfl := Host.Outcome.next.inj ht
  simp [irq, acknowledge]

/-- OUTSZ of the sequential operations is DST_LEN (R133). -/
theorem outSize_sequential {s : State} (h : isSequential s.op.toNat = true) :
    s.outSize = s.dstLen.toNat := by
  simp only [isSequential, Bool.or_eq_true, decide_eq_true_eq] at h
  obtain (h | h) | h := h <;> simp [State.outSize, h]

theorem isSequential_lzwOp {s : State} {kind : LzwKind} (h : s.op = lzwOp kind) :
    isSequential s.op.toNat = true := by
  rw [h]; cases kind <;> rfl

theorem isSequential_packbits {s : State} (h : s.op = 6) : isSequential s.op.toNat = true := by
  rw [h]; rfl

/-- SHORT is set where the output is not full. -/
theorem noteShort_eq (s : State) :
    noteShort s = { s with short := s.short || decide (s.out.toNat < s.outSize) } := by
  unfold noteShort
  split <;> simp [*]

/-- Settles O40: both variants' EOI completes after noting SHORT. -/
theorem lzwEoiEndsOperation : Obligations.LzwEoiEndsOperation := by
  intro s kind hop
  have hsize : (advance s.w.toNat s).outSize = s.dstLen.toNat :=
    outSize_sequential (isSequential_lzwOp hop)
  have heoi : lzwEoi s = .next (ended true { s with
      bp := s.bp + BitVec.ofNat 35 s.w.toNat
      short := s.short || decide (s.out.toNat < s.dstLen.toNat) }) := by
    rw [lzwEoi, noteShort_eq, hsize]
    rfl
  cases kind <;> exact heoi

/-! ### RLE8 (43_rle_packbits.md R242, R246) -/

/-- Settles O28: an encoded run is a run of equal pixels, an absolute run one of its data bytes. -/
theorem rle8RunsPlacePixels : Obligations.Rle8RunsPlacePixels := by
  refine fun s n v data hs => ⟨?_, fun hdata => ?_⟩
  · have h := runPixels_placed hs 2 (List.replicate n.toNat v)
    rwa [List.length_replicate, List.take_replicate, Nat.min_eq_left (visible_le s n.toNat)] at h
  · have h := runPixels_placed hs (2 + n.toNat + n.toNat % 2) data
    rwa [hdata] at h

/-! ### The output of a sequential operation (40_command.md R140, R141) -/

/-- Emission of a string: the bytes that fit are stored from DST_ADDR + OUT, the rest set OVF. -/
theorem emitAll_kept {s : State} (hop : isSequential s.op.toNat = true) (hs : sequentialOk s)
    (bytes : List Byte) (n : Nat) :
    ∃ m, emitAll bytes (advance n s) = some { advance n s with
        mem := m
        out := s.out + BitVec.ofNat 32 (kept s bytes.length)
        ovf := s.ovf || decide (kept s bytes.length < bytes.length) } ∧
      stored s.mem m (s.dstAddr.toNat + s.out.toNat) (bytes.take (kept s bytes.length)) := by
  obtain ⟨hwf, hout, hfit⟩ := hs
  have hsize : (advance n s).outSize = s.dstLen.toNat := outSize_sequential hop
  have hroom : (advance n s).room = s.dstLen.toNat - s.out.toNat := by rw [State.room, hsize]; rfl
  have hcut : kept s bytes.length < bytes.length ↔ s.dstLen.toNat - s.out.toNat < bytes.length := by
    unfold kept; omega
  obtain ⟨m, hm, hemit⟩ := emitAll_run bytes (s := advance n s) (hsize ▸ s.dstLen.isLt)
    (hsize ▸ hout.le) (hsize ▸ hfit)
  refine ⟨m, ?_, stored_of_storeAll hwf (hroom ▸ hm)⟩
  rw [hemit, hroom]
  simp only [hcut]
  rfl

/-- The completion test after `k` bytes of output that fit (R140). -/
theorem finishFull_eq_ended {s t : State} {k : Nat} (hop : isSequential t.op.toNat = true)
    (hlen : t.dstLen = s.dstLen) (hout : t.out = s.out + BitVec.ofNat 32 k)
    (hk : s.out.toNat + k ≤ s.dstLen.toNat) :
    finishFull t = ended (decide (s.out.toNat + k = s.dstLen.toNat)) t := by
  have hlt : s.dstLen.toNat < 2 ^ 32 := s.dstLen.isLt
  have hsum : t.out.toNat = s.out.toNat + k := by
    rw [hout, BitVec.toNat_add, BitVec.toNat_ofNat]
    omega
  rw [finishFull, hsum, outSize_sequential hop, hlen]
  rfl

/-! ### PackBits (43_rle_packbits.md R250, R251) -/

/-- A packet whose bytes fit stores them, and sets OVF where it was cut. -/
theorem runPacket_emits {s : State} (hop : s.op = 6) (hs : sequentialOk s) (n : Nat)
    {bytes : List Byte} (hfit : bytes.length ≤ s.dstLen.toNat - s.out.toNat) (cut : Bool) :
    ∃ m, runPacket n bytes cut s =
      .next (ended (decide (s.out.toNat + bytes.length = s.dstLen.toNat)) { s with
        bp := s.bp + BitVec.ofNat 35 (8 * n)
        mem := m
        out := s.out + BitVec.ofNat 32 bytes.length
        ovf := s.ovf || cut }) ∧
      stored s.mem m (s.dstAddr.toNat + s.out.toNat) bytes := by
  have hseq := isSequential_packbits hop
  have hkept : kept s bytes.length = bytes.length := Nat.min_eq_left hfit
  have hout : s.out.toNat + bytes.length ≤ s.dstLen.toNat := by
    obtain ⟨-, hlt, -⟩ := hs
    omega
  obtain ⟨m, hemit, hstored⟩ := emitAll_kept hseq hs bytes (8 * n)
  rw [hkept] at hemit hstored
  rw [List.take_length] at hstored
  refine ⟨m, ?_, hstored⟩
  rw [runPacket, hemit, Option.map_some, orFault,
    finishFull_eq_ended (s := s) (by cases cut <;> exact hseq) (by cases cut <;> rfl)
      (by cases cut <;> rfl) hout]
  cases cut <;> simp [setOvf, advance]

/-- Settles O31: the bytes read are those that fit; the header asks for more where it was cut. -/
theorem packbitsLiteralEmits : Obligations.PackbitsLiteralEmits := by
  intro s h data hop hs hdata
  exact runPacket_emits hop hs _ (hdata ▸ Nat.min_le_right _ _) _

/-- Settles O32: the packet emits as many copies as fit. -/
theorem packbitsRepeatEmits : Obligations.PackbitsRepeatEmits := by
  intro s h v hop hs _ k
  have hmin : min (repCount h) s.room = kept s k := by
    rw [State.room, outSize_packbits hop]
    rfl
  have hrun := runPacket_emits hop hs 2 (bytes := List.replicate (kept s k) v)
    (by rw [List.length_replicate]; exact Nat.min_le_right _ _) (decide (kept s k < k))
  rw [List.length_replicate] at hrun
  change ∃ m, execPbRep h v s = _ ∧ _
  rw [execPbRep, hmin]
  exact hrun

end Sys2Proof.Machine

namespace Sys2Proof.Machine

open Sys2Proof.Claims

/-! ### LZW codes (42_lzw.md R203 to R207) -/

/-- The width grows where the claims say that an entry widens it (R205, R213). -/
theorem widthAfter_eq (kind : LzwKind) (s : State) :
    s.widthAfter kind = if widens kind s then s.w + 1 else s.w := by
  have hpow : 0 < 2 ^ s.w.toNat := Nat.two_pow_pos _
  have hiff : (s.next.toNat + 1 + earlyBy kind = 2 ^ s.w.toNat ∧ s.w.toNat < 12) ↔
      widens kind s = true := by
    cases kind <;> simp only [widens, earlyBy, Bool.and_eq_true, decide_eq_true_eq] <;> omega
  exact if_congr hiff rfl rfl

/-- The dictionary after a code: the entry (prev, sfx) added where prev ≠ NONE and there is room. -/
def learntDict (s : State) (sfx : Byte) : Dict :=
  match s.prev with
  | none => s.dict
  | some p => if s.next.toNat < 4096 then s.dict.write s.next.toNat ⟨p, sfx⟩ else s.dict

/-- What a code learns, with the claims' conditions for an entry and for a wider code. -/
theorem learn_eq_learntDict (kind : LzwKind) (sfx : Byte) (code : BitVec 12) (s : State) :
    learn kind sfx code s = { s with
      dict := learntDict s sfx
      next := if adds s then s.next + 1 else s.next
      w := if adds s && widens kind s then s.w + 1 else s.w
      prev := some code } := by
  rw [learn_eq]
  unfold learntDict adds
  cases s.prev with
  | none => simp
  | some p => by_cases hroom : s.next.toNat < 4096 <;> simp [hroom, widthAfter_eq]

/-- The learnt dictionary is the one the claims describe by its reads. -/
theorem learnt_learntDict {s : State} (hwf : sparseWf emptyEntry s.dict = true) (sfx : Byte) :
    learnt s sfx (learntDict s sfx) := by
  unfold learnt learntDict
  cases s.prev with
  | none => rfl
  | some p =>
    by_cases hroom : s.next.toNat < 4096
    · simp only [if_pos hroom, Dict.read_write hwf, if_true, true_and]
      exact fun e he => if_neg he
    · simp [hroom]

/-- A code with string `str`: the bytes that fit are emitted, its first byte is learnt, and the
operation completes where the output is full. -/
theorem runCode_decoded {s : State} {kind : LzwKind} (hop : isSequential s.op.toNat = true)
    (hs : sequentialOk s) (code : BitVec 12) (str : List Byte) :
    ∃ m, runCode kind str code s =
        .next (decoded kind code str.length m (learntDict s (str.headD 0)) s) ∧
      stored s.mem m (s.dstAddr.toNat + s.out.toNat) (str.take (kept s str.length)) := by
  have hout : s.out.toNat + kept s str.length ≤ s.dstLen.toNat := by
    obtain ⟨-, hlt, -⟩ := hs
    unfold kept
    omega
  obtain ⟨m, hemit, hstored⟩ := emitAll_kept hop hs str s.w.toNat
  refine ⟨m, ?_, hstored⟩
  rw [runCode, hemit, Option.map_some, orFault, learn_eq_learntDict]
  exact congrArg Host.Outcome.next (finishFull_eq_ended (s := s) hop rfl rfl hout)

/-- What `runCode` does is what the claims ask of a code with its string. -/
theorem decodes_of_runCode {s : State} {kind : LzwKind} (hop : s.op = lzwOp kind)
    (hs : sequentialOk s) (hwf : sparseWf emptyEntry s.dict = true) {i : Instr} (code : BitVec 12)
    {str : List Byte} (hexec : exec i s = runCode kind str code s) :
    decodes kind i code str (str.headD 0) s := by
  obtain ⟨m, hrun, hstored⟩ := runCode_decoded (kind := kind) (isSequential_lzwOp hop) hs code str
  exact ⟨m, _, hexec.trans hrun, hstored, learnt_learntDict hwf _⟩

/-- Settles O35: both variants' DICT runs the string of the code. -/
theorem lzwDictEmitsAndLearns : Obligations.LzwDictEmitsAndLearns := by
  intro s kind code hop hs hwf
  exact decodes_of_runCode hop hs hwf code (by cases kind <;> rfl)

/-- The string of a KWKWK code begins with the byte it ends with. -/
theorem headD_append_headD (l : List Byte) : (l ++ [l.headD 0]).headD 0 = l.headD 0 := by
  cases l <;> rfl

/-- Settles O36: both variants' KWKWK runs the previous string and its first byte. -/
theorem lzwKwkwkEmitsAndLearns : Obligations.LzwKwkwkEmitsAndLearns := by
  intro s kind code prev hop hs hwf hprev
  have hstr : s.kwkwkString kind = s.str kind prev ++ [(s.str kind prev).headD 0] := by
    rw [State.kwkwkString, hprev]
  have hexec : exec (kwkwkInstr kind code) s = runCode kind (s.kwkwkString kind) code s := by
    cases kind <;> rfl
  rw [hstr] at hexec
  have hdecodes := decodes_of_runCode hop hs hwf code hexec
  rwa [headD_append_headD] at hdecodes

/-! ### START's checks (40_command.md R135) -/

/-- What `startFault` reports is what a list of rows of R135's table reports first. -/
def reportsFirst (s : State) (fault : Option (FaultCode × Word)) (rows : List Check) : Prop :=
  fault.map (fun f => (faultValue f.1, f.2)) =
    (rows.find? fun c => decide (s.op.toNat ∈ c.applies) && !c.passes).map
      fun c => (c.code, BitVec.ofNat 32 c.info)

/-- A test of `startFault` is a row that applies and does not pass, and the tests after it are the
rows after it. -/
theorem reportsFirst_row {s : State} {test : Prop} [Decidable test] {code : FaultCode} {info : Word}
    {rest : Option (FaultCode × Word)} {row : Check} {rows : List Check}
    (hrow : test ↔ s.op.toNat ∈ row.applies ∧ row.passes = false)
    (hcode : faultValue code = row.code) (hinfo : info = BitVec.ofNat 32 row.info)
    (hrest : ¬ test → reportsFirst s rest rows) :
    reportsFirst s (if test then some (code, info) else rest) (row :: rows) := by
  unfold reportsFirst at *
  by_cases h : test
  · obtain ⟨happlies, hfails⟩ := hrow.1 h
    simp [h, happlies, hfails, hcode, hinfo]
  · have hskip : (decide (s.op.toNat ∈ row.applies) && !row.passes) = false := by
      simpa using fun ha => by simpa using fun hp => h (hrow.2 ⟨ha, hp⟩)
    rw [if_neg h, hrest h, List.find?_cons_of_neg (by simp [hskip])]

end Sys2Proof.Machine

namespace Sys2Proof.Machine

open Sys2Proof.Claims

theorem usesDimensions_iff {op : Nat} :
    usesDimensions op = true ↔ op ∈ [0, 1, 4, 5, 7, 8] := by
  simp [usesDimensions, or_assoc]

theorem usesComponents_iff {op : Nat} : usesComponents op = true ↔ op ∈ [0, 1, 7, 8] := by
  simp [usesComponents, or_assoc]

/-- The operations that are not sequential are those with WIDTH and HEIGHT. -/
theorem isSequential_eq_false_iff {op : Nat} (h : op ≤ 8) :
    isSequential op = false ↔ op ∈ [0, 1, 4, 5, 7, 8] := by
  interval_cases op <;> decide

/-- Check 4 is three rows of the table, one for each set of legal sample widths. -/
theorem bdLegal_eq_false_iff {op bd : Nat} : (!bdLegal op bd) = true ↔
    (op ∈ [0, 1] ∧ bd ∉ [1, 2, 4, 8, 16]) ∨ (op ∈ [7] ∧ bd ∉ [1, 2, 4, 8, 16, 32]) ∨
      (op ∈ [8] ∧ bd ≠ 8) := by
  unfold bdLegal
  split <;> simp [*] <;> grind

theorem dimOk_eq (s : State) (v : Nat) : s.dimOk v = decide (1 ≤ v ∧ v ≤ s.params.maxDim) :=
  (Bool.decide_and _ _).symm

/-- START's tests report the first row of R135's table that applies and does not pass. -/
theorem startFault_reportsFirst (s : State) : reportsFirst s (startFault s) (checks s) := by
  have h16 : s.op.toNat < 16 := s.op.isLt
  simp only [startFault, checks, bdLegal_eq_false_iff, ite_or]
  refine reportsFirst_row (by simp [h16]) rfl rfl fun hop => ?_
  have hle : s.op.toNat ≤ 8 := Nat.not_lt.1 hop
  refine reportsFirst_row (by simp [usesDimensions_iff, dimOk_eq, State.W, imp_iff_not_or])
    rfl rfl fun _ => ?_
  refine reportsFirst_row (by simp [usesDimensions_iff, dimOk_eq, State.H, imp_iff_not_or])
    rfl rfl fun _ => ?_
  refine reportsFirst_row (by simp) rfl rfl fun _ => ?_
  refine reportsFirst_row (by simp) rfl rfl fun _ => ?_
  refine reportsFirst_row (by simp) rfl rfl fun _ => ?_
  refine reportsFirst_row (by simp [usesComponents_iff, imp_iff_not_or]) rfl rfl fun _ => ?_
  refine reportsFirst_row (by simp [imp_iff_not_or]) rfl rfl fun _ => ?_
  refine reportsFirst_row (by simp) rfl rfl fun _ => ?_
  refine reportsFirst_row (by simp [isSequential, or_assoc]) rfl rfl fun _ => ?_
  refine reportsFirst_row (by simp [isSequential_eq_false_iff hle]) rfl rfl fun _ => ?_
  refine reportsFirst_row (by simp; omega) rfl rfl fun _ => ?_
  refine reportsFirst_row (by simp; omega) rfl rfl fun _ => ?_
  refine reportsFirst_row (by simp [windowsDisjoint]; omega) rfl rfl fun _ => ?_
  rfl

/-- Where no row fails, no test finds a fault. -/
theorem startFault_of_failing_none {s : State} (h : failing s = none) : startFault s = none := by
  have hfirst := startFault_reportsFirst s
  rw [reportsFirst, ← failing, h] at hfirst
  simpa using hfirst

/-- The first row that fails is the fault the tests find. -/
theorem startFault_of_failing {s : State} {c : Check} (h : failing s = some c) :
    ∃ code, startFault s = some (code, BitVec.ofNat 32 c.info) ∧ faultValue code = c.code := by
  have hfirst := startFault_reportsFirst s
  rw [reportsFirst, ← failing, h] at hfirst
  obtain ⟨⟨code, info⟩, hfault, heq⟩ := Option.map_eq_some_iff.1 hfirst
  obtain ⟨hcode, rfl⟩ := Prod.mk.inj heq
  exact ⟨code, hfault, hcode⟩

/-- A START word runs START with the operation of its OP field (R90, R134). -/
theorem exec_startInstr (op : BitVec 4) (irqEn abort : Bool) (s : State) :
    exec (startInstr op irqEn abort) s = startCommand op irqEn abort s := by
  unfold startInstr
  split
  case h_10 => rfl
  all_goals
    rename_i hop
    have hval : op = BitVec.ofNat 4 op.toNat := by simp
    rw [hop] at hval
    subst hval
    rfl

/-- Settles O14: the first failing row is the fault START reports. -/
theorem startReportsFirstFailingCheck : Obligations.StartReportsFirstFailingCheck := by
  intro s op ie ab c hidle hfailing
  obtain ⟨code, hfault, hcode⟩ := startFault_of_failing hfailing
  rw [exec_startInstr, startCommand_of_startFault hidle hfault, hcode]

/-! ### A run begun (40_command.md R134, R136, R137) -/

/-- A START on an idle engine that passes its checks initialises the operation and leaves the run's
first boundary. -/
theorem startCommand_of_passed {s t : State} {op : BitVec 4} {irqEn : Bool} (abort : Bool)
    (hidle : s.phase = .idle) (hpassed : failing (cleared op irqEn s) = none)
    (hinit : initialise { cleared op irqEn s with phase := .run } = some t) :
    startCommand op irqEn abort s = .next (openRun t) := by
  rw [startCommand, if_neg (by simp [busy_of_idle hidle]), clearForStart_writeCtrl hidle]
  simp only [startFault_of_failing_none hpassed, hinit]
  rfl

/-- A line buffer whose first bytes become 0 (10_state.md R40). -/
theorem overlay_zeros (n : Nat) (buffer : List Byte) :
    overlay (List.replicate n 0) buffer = List.replicate n 0 ++ buffer.drop n := by
  rw [overlay, List.length_replicate]

/-- Settles O15: the initialisation of the three operations makes no access. -/
theorem startRowOperationsBegin : Obligations.StartRowOperationsBegin := by
  refine fun s ie ab hidle => ⟨fun hpassed => ?_, fun hpassed => ?_, fun hpassed => ?_⟩
  · exact (startCommand_of_passed ab hidle hpassed rfl).trans (by rw [overlay_zeros]; rfl)
  · exact startCommand_of_passed ab hidle hpassed rfl
  · exact startCommand_of_passed ab hidle hpassed rfl

/-- The zero fill of an output window that exists stores OUTSZ zeros. -/
theorem zeroFill_run {s : State} (hwf : s.mem.wf = true)
    (hfit : s.dstAddr.toNat + s.outSize ≤ s.params.memSize) :
    ∃ m, zeroFill s = some { s with mem := m } ∧
      stored s.mem m s.dstAddr.toNat (List.replicate s.outSize 0) := by
  obtain ⟨m, hm, hw⟩ := memWriteAll_run (s := s) (vs := List.replicate s.outSize 0)
    (by rwa [List.length_replicate])
  exact ⟨m, hw, stored_of_storeAll hwf hm⟩

/-- Settles O16: the window START checked is filled, and the run begins as `initialise` says. -/
theorem startZeroFillingOperationsBegin : Obligations.StartZeroFillingOperationsBegin := by
  intro s ie ab hidle hwf
  have hfill : ∀ op, failing (cleared op ie s) = none → ∃ m,
      zeroFill { cleared op ie s with phase := .run } =
        some { cleared op ie s with phase := .run, mem := m } ∧
      stored s.mem m s.dstAddr.toNat (List.replicate (cleared op ie s).outSize 0) := fun op h =>
    zeroFill_run hwf (checksPassed_of_startFault (startFault_of_failing_none h)).output_exists
  refine ⟨fun hpassed => ?_, fun hpassed => ?_, fun hpassed => ?_⟩
  · obtain ⟨m, hzero, hstored⟩ := hfill 1 hpassed
    have hinit := congrArg (Option.map (enterPass 1)) hzero
    refine ⟨m, (startCommand_of_passed ab hidle hpassed hinit).trans ?_, hstored⟩
    rw [enterPass, overlay_zeros]
    rfl
  · obtain ⟨m, hzero, hstored⟩ := hfill 4 hpassed
    exact ⟨m, startCommand_of_passed ab hidle hpassed hzero, hstored⟩
  · obtain ⟨m, hzero, hstored⟩ := hfill 5 hpassed
    exact ⟨m, startCommand_of_passed ab hidle hpassed hzero, hstored⟩

end Sys2Proof.Machine

namespace Sys2Proof.Machine

open Sys2Proof.Claims

/-! ### Every run ends (40_command.md R144): the measure and what a step leaves -/

/-- A row of R135's table that applies to an operation START accepted passes. -/
theorem passes_of_startFault {s : State} (h : startFault s = none) {c : Check}
    (hrow : c ∈ checks s) (happlies : s.op.toNat ∈ c.applies) : c.passes = true := by
  have hfirst := startFault_reportsFirst s
  rw [reportsFirst, h, ← failing] at hfirst
  have hnone : failing s = none := by simpa using hfirst.symm
  have hpass := List.find?_eq_none.1 hnone c hrow
  simpa [happlies] using hpass

/-- The width of a running LZW operation is in its range (10_state.md R42). -/
def widthOk (s : State) : Prop :=
  s.op.toNat = 2 ∨ s.op.toNat = 3 → 1 ≤ s.w.toNat ∧ s.w.toNat ≤ 12

/-- The most steps a run can still take: one more than its input bits, for HPRED its rows (R144). -/
def stepsLeft (s : State) : Nat :=
  if s.op = 8 then s.height.toNat - s.r.toNat else 8 * s.srcLen.toNat - s.bp.toNat + 1

/-- The operation has ended. -/
def runOver (t : State) : Prop := t.phase = .idle ∧ (t.done = true ∨ t.fault = true)

/-- The run goes on: progress and width in their ranges, and fewer steps left than in `s`. -/
structure GoesOn (s t : State) : Prop where
  running : t.phase = .run
  progress : progressOk t = true
  width : widthOk t
  fewer : stepsLeft t < stepsLeft s

/-- What a step from `s` leaves: the host's queue as it was, and a run that is over or goes on. -/
def endsIn (s t : State) : Prop := t.host = s.host ∧ (runOver t ∨ GoesOn s t)

/-- Whatever next state an outcome is, it is one a step from `s` may leave. -/
def ends (s : State) (o : Result) : Prop := ∀ t, o = .next t → endsIn s t

theorem ends_next {s t : State} (h : endsIn s t) : ends s (.next t) := by
  intro u hu
  obtain rfl := Host.Outcome.next.inj hu
  exact h

/-- A meaning that makes accesses and then updates the state. -/
theorem ends_map {s : State} {o : Option State} {f : State → State}
    (h : ∀ u, o = some u → endsIn s (f u)) : ends s (orFault (o.map f)) := by
  intro t ht
  obtain ⟨u, hu, rfl⟩ := Option.map_eq_some_iff.1 (orFault_next.1 ht)
  exact h u hu

/-- A fault in a step ends the operation. -/
theorem raiseInStep_ends (code : FaultCode) (info : Word) (s : State) :
    endsIn s (raiseInStep code info s) := ⟨rfl, .inl ⟨rfl, .inr rfl⟩⟩

/-- The completion test ends the operation, or leaves the run as it was before the test. -/
theorem finish_ends {s u : State} {isComplete : Bool} (hhost : u.host = s.host)
    (hon : isComplete = false → GoesOn s u) : endsIn s (finish isComplete u) := by
  cases isComplete with
  | true => exact ⟨hhost, .inl ⟨rfl, .inl rfl⟩⟩
  | false =>
    obtain ⟨hrun, hprogress, hwidth, hfewer⟩ := hon rfl
    exact ⟨hhost, .inr ⟨hrun, hprogress, hwidth, hfewer⟩⟩

/-! ### Input bits consumed (30_encoding.md R92) -/

/-- `u` comes from `s` by consuming `n` bits of the input window, more than none. -/
structure Consumed (n : Nat) (s u : State) : Prop where
  pos : 0 < n
  fits : s.bp.toNat + n ≤ 8 * s.srcLen.toNat
  cursor : u.bp = s.bp + BitVec.ofNat 35 n
  length : u.srcLen = s.srcLen

/-- BP does not wrap inside the window. -/
theorem Consumed.bp_eq {n : Nat} {s u : State} (h : Consumed n s u) :
    u.bp.toNat = s.bp.toNat + n := by
  have hlen : s.srcLen.toNat < 2 ^ 32 := s.srcLen.isLt
  have hfits := h.fits
  rw [h.cursor, BitVec.toNat_add, BitVec.toNat_ofNat]
  omega

theorem Consumed.bp_le {n : Nat} {s u : State} (h : Consumed n s u) :
    u.bp.toNat ≤ 8 * u.srcLen.toNat := by
  rw [h.bp_eq, h.length]
  exact h.fits

theorem Consumed.cursorOk {n : Nat} {s u : State} (h : Consumed (8 * n) s u)
    (hs : cursorOk s = true) : cursorOk u = true := by
  have hle := h.bp_le
  simp only [Machine.cursorOk, Bool.and_eq_true, decide_eq_true_eq, h.bp_eq] at hs hle ⊢
  omega

/-- Bits consumed are steps less, for every operation that reads input. -/
theorem Consumed.fewer {n : Nat} {s u : State} (h : Consumed n s u) (hop : u.op = s.op)
    (h8 : s.op.toNat ≠ 8) : stepsLeft u < stepsLeft s := by
  have hne : s.op ≠ 8 := fun he => h8 (by rw [he]; rfl)
  have hbp := h.bp_eq
  have hpos := h.pos
  have hfits := h.fits
  simp only [stepsLeft, hop, if_neg hne, h.length]
  omega

/-- Whole bytes at the head of the input lie in the window. -/
theorem bytes_fit {s : State} {p rest : List Byte} (hc : cursorOk s = true)
    (hinput : s.input = p ++ rest) : s.bp.toNat + 8 * p.length ≤ 8 * s.srcLen.toNat := by
  have hlen := congrArg List.length hinput
  simp only [State.input, List.length_map, List.length_range, List.length_append] at hlen
  simp only [cursorOk, Bool.and_eq_true, decide_eq_true_eq] at hc
  omega

/-! ### Rows: DEFILTER, UNPACK and HPRED (R140) -/

/-- A row done below H: the last one completes, another leaves rows. -/
theorem finishRow_ends {s u : State} (hhost : u.host = s.host) (hr : u.r.toNat < u.H)
    (hon : u.r.toNat + 1 < u.H → GoesOn s (nextRow u)) : endsIn s (finishRow (nextRow u)) := by
  refine finish_ends hhost fun hlast => hon ?_
  rw [nextRow_r_toNat hr, decide_eq_false_iff_not] at hlast
  change ¬ u.r.toNat + 1 = u.H at hlast
  omega

/-! ### The families of elements (R138, R144) -/

/-- A run an engine step starts from. -/
structure Running (s : State) : Prop where
  runnable : Runnable s
  running : s.phase = .run
  width : widthOk s

theorem widthOk_of_ne {s : State} (h : ¬ (s.op.toNat = 2 ∨ s.op.toNat = 3)) : widthOk s :=
  fun hop => absurd hop h

/-- A value clipped to a register's is at most that. -/
theorem ofNat_min_le (k : Nat) (v : Word) : (BitVec.ofNat 32 (min k v.toNat)).toNat ≤ v.toNat :=
  (Nat.mod_le _ _).trans (Nat.min_le_right _ _)

theorem ended_eq_finish (isComplete : Bool) (s : State) :
    ended isComplete s = finish isComplete s := by
  cases isComplete <;> rfl

/-! #### Rows -/

theorem progressOk_row {s : State} (hop : s.op.toNat = 0 ∨ s.op.toNat = 7) :
    progressOk s = true ↔ cursorOk s = true ∧ s.r.toNat < s.H := by
  obtain hop | hop := hop <;> simp [progressOk, hop]

theorem progressOk_hpred {s : State} (hop : s.op.toNat = 8) :
    progressOk s = true ↔ s.r.toNat < s.H := by
  simp [progressOk, hop]

/-- A row of DEFILTER or UNPACK that consumed its bytes. -/
theorem rowStep_ends {s u : State} {n : Nat} (h : Running s)
    (hop : s.op.toNat = 0 ∨ s.op.toNat = 7) (hsetup : u.setup = s.setup) (hr : u.r = s.r)
    (hhost : u.host = s.host) (hphase : u.phase = s.phase) (hcons : Consumed (8 * n) s u) :
    endsIn s (finishRow (nextRow u)) := by
  obtain ⟨-, -, -, -, -, -, hheight, -, -, hopu⟩ := setup_eq_iff.1 hsetup
  have hH : u.H = s.H := congrArg BitVec.toNat hheight
  obtain ⟨hcursor, hrow⟩ := (progressOk_row hop).1 h.runnable.progress
  have hrow' : u.r.toNat < u.H := by rwa [hr, hH]
  have hopn : (nextRow u).op.toNat = s.op.toNat := congrArg BitVec.toNat hopu
  have hcons' : Consumed (8 * n) s (nextRow u) :=
    ⟨hcons.pos, hcons.fits, hcons.cursor, hcons.length⟩
  refine finishRow_ends hhost hrow' fun hlast => ⟨hphase.trans h.running, ?_, ?_, ?_⟩
  · rw [progressOk_row (hopn ▸ hop), nextRow_r_toNat hrow']
    exact ⟨hcons'.cursorOk hcursor, hlast⟩
  · exact widthOk_of_ne (by omega)
  · exact hcons'.fewer hopu (by omega)

/-- An UNPACK row. -/
theorem unpackRow_ends {s : State} (h : Running s) (hop : s.op.toNat = 7) {row : List Byte}
    (hpos : 0 < row.length) (hfits : s.bp.toNat + 8 * row.length ≤ 8 * s.srcLen.toNat)
    (sample : Nat → Byte) : ends s (unpackRow sample row s) := by
  refine ends_map fun u hu => ?_
  obtain ⟨m, -, rfl⟩ := memWriteAll_eq_some.1 hu
  exact rowStep_ends h (.inr hop) rfl rfl rfl rfl ⟨by omega, hfits, rfl, rfl⟩

/-- A row of HPRED, which reads no input: r moves forward. -/
theorem hpredStep_ends {s u : State} (h : Running s) (hop : s.op.toNat = 8)
    (hsetup : u.setup = s.setup) (hr : u.r = s.r) (hhost : u.host = s.host)
    (hphase : u.phase = s.phase) : endsIn s (finishRow (nextRow u)) := by
  obtain ⟨-, -, -, -, -, -, hheight, -, -, hopu⟩ := setup_eq_iff.1 hsetup
  have h8 : s.op = 8 := BitVec.eq_of_toNat_eq hop
  have hrow : u.r.toNat < u.height.toNat := by
    rw [hr, hheight]
    exact (progressOk_hpred hop).1 h.runnable.progress
  have hnext : (nextRow u).r.toNat = u.r.toNat + 1 := nextRow_r_toNat hrow
  refine finishRow_ends hhost hrow fun hlast => ⟨hphase.trans h.running, ?_, ?_, ?_⟩
  · rw [progressOk_hpred (by rw [nextRow_op, hopu, hop]), hnext]
    exact hlast
  · exact widthOk_of_ne (by simp [hopu, hop])
  · simp only [stepsLeft, hnext, nextRow_op, nextRow_height, hopu, h8, if_true, hheight, hr]
    simp only [hheight, hr] at hrow
    omega

theorem execHpredRow_ends {s : State} (h : Running s) (hop : s.op.toNat = 8) :
    ends s (execHpredRow s) := by
  intro t ht
  obtain ⟨row, -, hrow⟩ := Option.bind_eq_some_iff.1 (orFault_next.1 ht)
  obtain ⟨u, hu, rfl⟩ := Option.map_eq_some_iff.1 hrow
  obtain ⟨m, -, rfl⟩ := memWriteAll_eq_some.1 hu
  exact hpredStep_ends h hop rfl rfl rfl rfl

/-! #### PNG rows -/

/-- A scatter writes memory only (45_adam7.md R303). -/
theorem scatterRow_mem {row : List Byte} {s t : State} (h : scatterRow row s = some t) :
    ∃ m, t = { s with mem := m } :=
  each_keeps (P := fun u => ∃ m, u = { s with mem := m })
    (fun _ _ _ hu hpx => each_keeps (P := fun u => ∃ m, u = { s with mem := m })
      (fun _ _ _ ⟨_, hv⟩ hbit => by
        obtain ⟨-, rfl⟩ := putBit_eq_some.1 hbit
        exact ⟨_, by rw [hv]⟩) _ hu hpx) _ ⟨s.mem, rfl⟩ h

/-- A DEFILTER row. -/
theorem pngRow_ends_defilter {s : State} (h : Running s) (hop : s.op.toNat = 0) (f : PngFilter)
    {raw : List Byte} (hfits : s.bp.toNat + 8 * (1 + raw.length) ≤ 8 * s.srcLen.toNat) :
    ends s (pngRow f raw s) := by
  rw [pngRow, if_neg (by omega)]
  refine ends_map fun u hu => ?_
  obtain ⟨m, -, rfl⟩ := memWriteAll_eq_some.1 hu
  exact rowStep_ends h (.inl hop) rfl rfl rfl rfl ⟨by omega, hfits, rfl, rfl⟩

theorem progressOk_adam7 {s : State} (hop : s.op.toNat = 1) :
    progressOk s = true ↔ cursorOk s = true ∧ 1 ≤ s.p.toNat ∧ 0 < s.passW s.p.toNat ∧
      s.r.toNat < s.passH s.p.toNat := by
  simp [progressOk, hop, and_assoc]

/-- The next pass is one of the table's and not empty (45_adam7.md R302). -/
theorem nextPass_nonempty {s : State} {p q : Nat} (h : s.nextPass p = some q) :
    1 ≤ q ∧ q ≤ 7 ∧ 0 < s.passW q ∧ 0 < s.passH q := by
  have hprop := List.find?_some h
  have hmem := List.mem_of_find?_eq_some h
  simp only [Bool.and_eq_true, decide_eq_true_eq] at hprop
  simp only [List.mem_cons, List.not_mem_nil, or_false] at hmem
  exact ⟨by omega, by omega, hprop.1.2, hprop.2⟩

/-- The pass a run goes on with is not empty, and a row of it is left. -/
theorem pass_goesOn {s v : State} {n : Nat} (h : Running s) (hop : s.op.toNat = 1)
    (hopv : v.op = s.op) (hrun : v.phase = .run) (hcons : Consumed (8 * n) s v)
    (hpass : 1 ≤ v.p.toNat) (hpw : 0 < v.passW v.p.toNat) (hrow : v.r.toNat < v.passH v.p.toNat) :
    GoesOn s v := by
  have hcursor := ((progressOk_adam7 hop).1 h.runnable.progress).1
  refine ⟨hrun, ?_, widthOk_of_ne (by simp [hopv, hop]), hcons.fewer hopv (by omega)⟩
  exact (progressOk_adam7 (by rw [hopv, hop])).2 ⟨hcons.cursorOk hcursor, hpass, hpw, hrow⟩

/-- An ADAM7 row that consumed its bytes: another row, another pass, or the end. -/
theorem passStep_ends {s u : State} {n : Nat} (h : Running s) (hop : s.op.toNat = 1)
    (hsetup : u.setup = s.setup) (hp : u.p = s.p) (hr : u.r = s.r) (hhost : u.host = s.host)
    (hphase : u.phase = s.phase) (hcons : Consumed (8 * n) s u) :
    endsIn s (finishPass (nextRow u)) := by
  obtain ⟨-, -, -, -, -, hwidth, hheight, -, -, hopu⟩ := setup_eq_iff.1 hsetup
  have hrun : u.phase = .run := hphase.trans h.running
  obtain ⟨pos, fits, cursor, length⟩ := hcons
  have hW : ∀ q, u.passW q = s.passW q := fun q => by simp only [State.passW, State.W, hwidth]
  have hH : ∀ q, u.passH q = s.passH q := fun q => by simp only [State.passH, State.H, hheight]
  obtain ⟨-, hpass, hpw, hrow⟩ := (progressOk_adam7 hop).1 h.runnable.progress
  rw [← hp] at hpass
  rw [← hp, ← hW] at hpw
  rw [← hr, ← hp, ← hH] at hrow
  have hrH : u.r.toNat < u.H := by
    obtain ⟨-, hdy⟩ := passGeometry_pos u.p.toNat
    exact (Nat.le_mul_of_pos_right _ hdy).trans_lt
      ((Nat.le_add_left _ _).trans_lt (position_lt hdy hrow))
  have hnext := nextRow_r_toNat hrH
  unfold finishPass
  split
  · split
    · rename_i q hq
      obtain ⟨hlow, hhigh, hqw, hqh⟩ := nextPass_nonempty hq
      have hpq : (enterPass q (nextRow u)).p.toNat = q := by
        rw [enterPass_p, BitVec.toNat_ofNat]
        omega
      exact finish_ends hhost fun _ => pass_goesOn h hop hopu hrun
        ⟨pos, fits, cursor, length⟩ (by rwa [hpq]) (by rwa [hpq]) (by rwa [hpq])
    · exact finish_ends hhost nofun
  · rename_i hmore
    refine finish_ends hhost fun _ => pass_goesOn h hop hopu hrun
      ⟨pos, fits, cursor, length⟩ hpass hpw ?_
    rw [hnext] at hmore ⊢
    change ¬ u.r.toNat + 1 = u.passH u.p.toNat at hmore
    change u.r.toNat + 1 < u.passH u.p.toNat
    omega

theorem pngRow_ends_adam7 {s : State} (h : Running s) (hop : s.op.toNat = 1) (f : PngFilter)
    {raw : List Byte} (hfits : s.bp.toNat + 8 * (1 + raw.length) ≤ 8 * s.srcLen.toNat) :
    ends s (pngRow f raw s) := by
  rw [pngRow, if_pos hop]
  refine ends_map fun u hu => ?_
  obtain ⟨m, rfl⟩ := scatterRow_mem hu
  exact passStep_ends h hop rfl rfl rfl rfl rfl ⟨by omega, hfits, rfl, rfl⟩

/-- A row instruction runs the row step of its filter. -/
theorem exec_pngInstr {f : Byte} (hf : f.toNat ≤ 4) (raw : List Byte) (s : State) :
    ∃ filter, exec (pngInstr f raw) s = pngRow filter raw s := by
  obtain rfl | rfl | rfl | rfl | rfl : f = 0 ∨ f = 1 ∨ f = 2 ∨ f = 3 ∨ f = 4 := by bv_omega
  exacts [⟨.none, rfl⟩, ⟨.sub, rfl⟩, ⟨.up, rfl⟩, ⟨.avg, rfl⟩, ⟨.paeth, rfl⟩]

/-! #### Runs of pixels -/

theorem progressOk_rle {s : State} (hop : s.op.toNat = 4 ∨ s.op.toNat = 5) :
    progressOk s = true ↔ cursorOk s = true ∧ s.x.toNat ≤ s.W ∧ s.y.toNat ≤ s.H := by
  obtain hop | hop := hop <;> simp [progressOk, hop, and_assoc]

theorem outSize_rle {s : State} (hop : s.op.toNat = 4 ∨ s.op.toNat = 5) :
    s.outSize = s.W * s.H := by
  obtain hop | hop := hop <;> simp [State.outSize, hop]

/-- An RLE element other than EOB that consumed its bytes. -/
theorem rleStep_ends {s u : State} {n : Nat} (h : Running s)
    (hop : s.op.toNat = 4 ∨ s.op.toNat = 5) (hopu : u.op = s.op) (hhost : u.host = s.host)
    (hphase : u.phase = s.phase) (hcons : Consumed (8 * n) s u) (hx : u.x.toNat ≤ u.W)
    (hy : u.y.toNat ≤ u.H) : endsIn s (finish false u) := by
  refine finish_ends hhost fun _ => ⟨hphase.trans h.running, ?_, ?_, ?_⟩
  · rw [progressOk_rle (hopu ▸ hop)]
    exact ⟨hcons.cursorOk ((progressOk_rle hop).1 h.runnable.progress).1, hx, hy⟩
  · exact widthOk_of_ne (by rw [hopu]; omega)
  · exact hcons.fewer hopu (by omega)

/-- A run of pixels. -/
theorem runPixels_ends {s : State} (h : Running s) (hop : s.op.toNat = 4 ∨ s.op.toNat = 5) {n : Nat}
    (hpos : 0 < n) (hfits : s.bp.toNat + 8 * n ≤ 8 * s.srcLen.toNat) (pixels : List Byte) :
    ends s (runPixels n pixels s) := by
  obtain ⟨-, hx, hy⟩ := (progressOk_rle hop).1 h.runnable.progress
  have hfit := (checksPassed_of_startFault h.runnable.checked).output_exists
  rw [outSize_rle hop] at hfit
  obtain ⟨m, hrun, -⟩ := runPixels_placed ⟨h.runnable.canonical, hx, hfit⟩ n pixels
  rw [hrun, placed, ended_eq_finish]
  exact ends_next (rleStep_ends h hop rfl rfl rfl ⟨by omega, hfits, rfl, rfl⟩ (ofNat_min_le ..) hy)

/-- An RLE8 or RLE4 element. -/
theorem rleElement_ends {s : State} (h : Running s) (hop : s.op.toNat = 4 ∨ s.op.toNat = 5)
    {f : RleFormat} (hf : f = rle8Format ∨ f = rle4Format) {p rest : List Byte} {i : Instr}
    (hinput : s.input = p ++ rest) (helem : RleElement f p i) : ends s (exec i s) := by
  obtain ⟨hcursor, hx, hy⟩ := (progressOk_rle hop).1 h.runnable.progress
  have hfits := bytes_fit hcursor hinput
  cases helem with
  | enc v hn => obtain rfl | rfl := hf <;> exact runPixels_ends h hop (Nat.succ_pos _) hfits _
  | eol =>
    obtain rfl | rfl := hf <;>
      exact ends_next (rleStep_ends h hop rfl rfl rfl ⟨by simp, hfits, rfl, rfl⟩ (Nat.zero_le _)
        (ofNat_min_le ..))
  | eob => obtain rfl | rfl := hf <;> exact ends_next (finish_ends rfl nofun)
  | delta dx dy =>
    obtain rfl | rfl := hf <;>
      exact ends_next (rleStep_ends h hop rfl rfl rfl ⟨by simp, hfits, rfl, rfl⟩ (ofNat_min_le ..)
        (ofNat_min_le ..))
  | @abs n d hn hd =>
    have hlen : (0 :: n :: d).length = 2 + f.dataBytes n + f.dataBytes n % 2 := by
      simp only [List.length_cons, hd]
      omega
    rw [hlen] at hfits
    obtain rfl | rfl := hf <;> exact runPixels_ends h hop (by omega) hfits _

/-! #### Sequential output -/

/-- A running sequential operation has room, in a window that exists (R212; 40_command.md R135). -/
theorem sequentialOk_of_running {s : State} (h : Running s) (hop : isSequential s.op.toNat = true) :
    sequentialOk s := by
  have hsize := outSize_sequential hop
  have hfit := (checksPassed_of_startFault h.runnable.checked).output_exists
  have hprogress := h.runnable.progress
  rw [hsize] at hfit
  refine ⟨h.runnable.canonical, ?_, hfit⟩
  simp only [isSequential, Bool.or_eq_true, decide_eq_true_eq] at hop
  rw [← hsize]
  obtain (hop | hop) | hop := hop <;>
    simp only [progressOk, hop, Bool.and_eq_true, decide_eq_true_eq] at hprogress <;>
    exact hprogress.2

/-- Output that does not fill the window leaves room. -/
theorem out_lt_of_room {s u : State} {k : Nat} (hop : isSequential u.op.toNat = true)
    (hlen : u.dstLen = s.dstLen) (hout : u.out = s.out + BitVec.ofNat 32 k)
    (hk : s.out.toNat + k ≤ s.dstLen.toNat)
    (hroom : decide (s.out.toNat + k = s.dstLen.toNat) = false) : u.out.toNat < u.outSize := by
  have hlt : s.dstLen.toNat < 2 ^ 32 := s.dstLen.isLt
  have hne := of_decide_eq_false hroom
  rw [outSize_sequential hop, hlen, hout, BitVec.toNat_add, BitVec.toNat_ofNat]
  omega

theorem progressOk_packbits {s : State} (hop : s.op.toNat = 6) :
    progressOk s = true ↔ cursorOk s = true ∧ s.out.toNat < s.outSize := by
  simp [progressOk, hop]

/-- A PackBits packet that consumed its bytes and left room. -/
theorem packet_goesOn {s u : State} {n : Nat} (h : Running s) (hop : s.op.toNat = 6)
    (hopu : u.op = s.op) (hrun : u.phase = .run) (hcons : Consumed (8 * n) s u)
    (hroom : u.out.toNat < u.outSize) : GoesOn s u := by
  have hcursor := ((progressOk_packbits hop).1 h.runnable.progress).1
  refine ⟨hrun, ?_, widthOk_of_ne (by simp [hopu, hop]), hcons.fewer hopu (by omega)⟩
  exact (progressOk_packbits (by rw [hopu, hop])).2 ⟨hcons.cursorOk hcursor, hroom⟩

/-- A packet whose bytes fit. -/
theorem runPacket_ends {s : State} (h : Running s) (hop : s.op.toNat = 6) {n : Nat} (hpos : 0 < n)
    (hfits : s.bp.toNat + 8 * n ≤ 8 * s.srcLen.toNat) {bytes : List Byte}
    (hroom : bytes.length ≤ s.room) (cut : Bool) : ends s (runPacket n bytes cut s) := by
  have h6 : s.op = 6 := BitVec.eq_of_toNat_eq hop
  have hseq := isSequential_packbits h6
  have hs := sequentialOk_of_running h hseq
  rw [State.room, outSize_packbits h6] at hroom
  obtain ⟨m, hrun, -⟩ := runPacket_emits h6 hs n hroom cut
  obtain ⟨-, hlt, -⟩ := hs
  rw [hrun, ended_eq_finish]
  exact ends_next (finish_ends rfl fun hmore => packet_goesOn h hop rfl h.running
    ⟨by omega, hfits, rfl, rfl⟩ (out_lt_of_room (s := s) hseq rfl rfl (by omega) hmore))

theorem lzw_op_cases {s : State} {kind : LzwKind} (h : s.op.toNat = (lzwOp kind).toNat) :
    s.op.toNat = 2 ∨ s.op.toNat = 3 := by
  cases kind
  · exact .inl h
  · exact .inr h

theorem progressOk_lzw {s : State} (hop : s.op.toNat = 2 ∨ s.op.toNat = 3) :
    progressOk s = true ↔ s.bp.toNat ≤ 8 * s.srcLen.toNat ∧ s.out.toNat < s.outSize := by
  obtain hop | hop := hop <;> simp [progressOk, hop]

theorem isSequential_lzw {s : State} (hop : s.op.toNat = 2 ∨ s.op.toNat = 3) :
    isSequential s.op.toNat = true := by
  obtain hop | hop := hop <;> simp [isSequential, hop]

/-- An LZW code that consumed its bits and left room. -/
theorem code_goesOn {s u : State} {n : Nat} (hop : s.op.toNat = 2 ∨ s.op.toNat = 3)
    (hopu : u.op = s.op) (hrun : u.phase = .run) (hcons : Consumed n s u)
    (hroom : u.out.toNat < u.outSize) (hwidth : 1 ≤ u.w.toNat ∧ u.w.toNat ≤ 12) : GoesOn s u :=
  ⟨hrun, (progressOk_lzw (hopu ▸ hop)).2 ⟨hcons.bp_le, hroom⟩, fun _ => hwidth,
    hcons.fewer hopu (by omega)⟩

/-- A wider code is still at most 12 bits wide (42_lzw.md R205, R213). -/
theorem widened_width {s : State} (kind : LzwKind) (h : 1 ≤ s.w.toNat ∧ s.w.toNat ≤ 12) :
    1 ≤ (if adds s && widens kind s then s.w + 1 else s.w).toNat ∧
      (if adds s && widens kind s then s.w + 1 else s.w).toNat ≤ 12 := by
  split
  · rename_i hwide
    simp only [widens, Bool.and_eq_true, decide_eq_true_eq] at hwide
    have hsum : (s.w + 1).toNat = s.w.toNat + 1 := by
      rw [BitVec.toNat_add, show (1 : BitVec 4).toNat = 1 from rfl]
      omega
    omega
  · exact h

/-- A code that emits a string. -/
theorem runCode_ends {s : State} (h : Running s) (hop : s.op.toNat = 2 ∨ s.op.toNat = 3)
    (hfits : s.bp.toNat + s.w.toNat ≤ 8 * s.srcLen.toNat) (kind : LzwKind) (str : List Byte)
    (code : BitVec 12) : ends s (runCode kind str code s) := by
  have hseq := isSequential_lzw hop
  have hs := sequentialOk_of_running h hseq
  obtain ⟨m, hrun, -⟩ := runCode_decoded (kind := kind) hseq hs code str
  obtain ⟨-, hlt, -⟩ := hs
  have hk : s.out.toNat + kept s str.length ≤ s.dstLen.toNat := by unfold kept; omega
  rw [hrun, decoded, ended_eq_finish]
  exact ends_next (finish_ends rfl fun hmore => code_goesOn hop rfl h.running
    ⟨(h.width hop).1, hfits, rfl, rfl⟩ (out_lt_of_room (s := s) hseq rfl rfl hk hmore)
    (widened_width kind (h.width hop)))

/-- MIN of a variant that runs is at most 8 (42_lzw.md R200; 40_command.md R135 check 6). -/
theorem lzwMinOf_le {s : State} (h : startFault s = none) {kind : LzwKind}
    (hop : s.op.toNat = (lzwOp kind).toNat) : s.lzwMinOf kind ≤ 8 := by
  cases kind with
  | gif =>
    have hpass := passes_of_startFault h
      (c := ⟨[2], decide (2 ≤ s.lzwMin ∧ s.lzwMin ≤ 8), 0x02, 6⟩) (by simp [checks])
      (by simp [hop, lzwOp])
    exact (of_decide_eq_true hpass).2
  | tiff => exact le_rfl

/-- CLEAR sets the width to MIN + 1. -/
theorem lzwClear_ends {s : State} (h : Running s) {kind : LzwKind}
    (hkind : s.op.toNat = (lzwOp kind).toNat)
    (hfits : s.bp.toNat + s.w.toNat ≤ 8 * s.srcLen.toNat) : ends s (lzwClear kind s) := by
  have hop := lzw_op_cases hkind
  have hmin := lzwMinOf_le h.runnable.checked hkind
  refine ends_next (finish_ends rfl fun _ => code_goesOn hop rfl h.running
    ⟨(h.width hop).1, hfits, rfl, rfl⟩ ((progressOk_lzw hop).1 h.runnable.progress).2 ?_)
  rw [lzwReset_w, BitVec.toNat_ofNat]
  omega

/-- An LZW code of any class. -/
theorem lzwInstr_ends {s : State} (h : Running s) {kind : LzwKind}
    (hkind : s.op.toNat = (lzwOp kind).toNat)
    (hfits : s.bp.toNat + s.w.toNat ≤ 8 * s.srcLen.toNat) (cls : LzwClass) (code : BitVec 12) :
    ends s (exec (lzwInstr kind cls code) s) := by
  have hop := lzw_op_cases hkind
  cases cls with
  | root | dict | kwkwk => cases kind <;> exact runCode_ends h hop hfits _ _ _
  | clear => cases kind <;> exact lzwClear_ends h hkind hfits
  | eoi => cases kind <;> exact ends_next ⟨by simp [noteShort_eq], .inl ⟨rfl, .inl rfl⟩⟩
  | invalid => cases kind <;> exact ends_next (raiseInStep_ends ..)

/-! ### The element a run fetches (R138) -/

/-- A PNG element, given what a row does. -/
theorem pngElement_ends {s : State} (hcursor : cursorOk s = true)
    (hrow : ∀ f raw, s.bp.toNat + 8 * (1 + List.length raw) ≤ 8 * s.srcLen.toNat →
      ends s (pngRow f raw s))
    {len : Nat} {p rest : List Byte} {i : Instr} (hinput : s.input = p ++ rest)
    (helem : Element (.png len) p i) : ends s (exec i s) := by
  have hfits := bytes_fit hcursor hinput
  cases helem with
  | @png f raw hf =>
    obtain ⟨filter, hexec⟩ := exec_pngInstr hf raw s
    rw [List.length_cons] at hfits
    rw [hexec]
    exact hrow filter raw (by omega)
  | pngIllegal => exact ends_next (raiseInStep_ends ..)

/-- A PackBits packet: its bytes are those that fit. -/
theorem packbitsElement_ends {s : State} (h : Running s) (hop : s.op.toNat = 6) {room : Nat}
    (hroom : room = s.room) {p rest : List Byte} {i : Instr} (hinput : s.input = p ++ rest)
    (helem : Element (.packbits room) p i) : ends s (exec i s) := by
  obtain ⟨hcursor, hout⟩ := (progressOk_packbits hop).1 h.runnable.progress
  have hfits := bytes_fit hcursor hinput
  cases helem with
  | pbLit hh hd =>
    rw [List.length_cons] at hfits
    exact runPacket_ends h hop (by omega) (by omega) (hroom ▸ hd ▸ Nat.min_le_right _ _) _
  | pbRep =>
    exact runPacket_ends h hop (Nat.succ_pos _) hfits
      (by rw [List.length_replicate]; exact Nat.min_le_right _ _) _
  | pbNop =>
    exact ends_next (finish_ends rfl fun _ => packet_goesOn h hop rfl h.running
      (n := 1) ⟨by decide, hfits, rfl, rfl⟩ hout)

/-- An LZW code: the bits it was read from lie in the window. -/
theorem lzwElement_ends {s : State} (h : Running s) {kind : LzwKind}
    (hkind : s.op.toNat = (lzwOp kind).toNat) {min w next bit : Nat} {hasPrev : Bool}
    (hw : w = s.w.toNat) (hbit : bit = s.bp.toNat % 8) {p rest : List Byte} {i : Instr}
    (hinput : s.input = p ++ rest) (helem : Element (.lzw kind min w next hasPrev bit) p i) :
    ends s (exec i s) := by
  have hop := lzw_op_cases hkind
  have hpos := (h.width hop).1
  have hlen := congrArg List.length hinput
  simp only [State.input, List.length_map, List.length_range, List.length_append] at hlen
  cases helem with
  | lzw _ _ _ hp hcode =>
    unfold divCeil at hp
    exact lzwInstr_ends h hkind (by omega) _ _

/-- A row of at least one sample has at least one byte (40_command.md R133). -/
theorem stride_pos {s : State} (h : 0 < s.W * s.nc * s.bd) : 0 < s.stride := by
  have hbytes : 0 < divCeil (s.W * s.nc * s.bd) 8 := by unfold divCeil; omega
  unfold State.stride roundUp
  generalize divCeil (s.W * s.nc * s.bd) 8 = n at *
  split <;> unfold divCeil <;> omega

/-- START's checks leave UNPACK no empty row. -/
theorem unpack_stride_pos {s : State} (h : startFault s = none) (hop : s.op.toNat = 7) :
    0 < s.stride := by
  have hwidth := passes_of_startFault h (c := ⟨[0, 1, 4, 5, 7, 8],
    decide (1 ≤ s.width.toNat ∧ s.width.toNat ≤ s.params.maxDim), 0x02, 2⟩)
    (by simp [checks]) (by simp [hop])
  have hbd := passes_of_startFault h (c := ⟨[7], decide (s.bd ∈ [1, 2, 4, 8, 16, 32]), 0x02, 4⟩)
    (by simp [checks]) (by simp [hop])
  have hnc := passes_of_startFault h (c := ⟨[0, 1, 7, 8], decide (1 ≤ s.nc ∧ s.nc ≤ 4), 0x02, 5⟩)
    (by simp [checks]) (by simp [hop])
  have hbd' : 0 < s.bd := by
    have hmem := of_decide_eq_true hbd
    simp only [List.mem_cons, List.not_mem_nil, or_false] at hmem
    omega
  exact stride_pos (Nat.mul_pos
    (Nat.mul_pos (of_decide_eq_true hwidth).1 (of_decide_eq_true hnc).1) hbd')

/-- An UNPACK row of any sample width. -/
theorem unpackElement_ends {s : State} (h : Running s) (hop : s.op.toNat = 7) {bd stride : Nat}
    (hpos : 0 < stride) {p rest : List Byte} {i : Instr} (hinput : s.input = p ++ rest)
    (helem : Element (.unpack bd stride) p i) : ends s (exec i s) := by
  have hcursor := ((progressOk_row (.inr hop)).1 h.runnable.progress).1
  have hfits := bytes_fit hcursor hinput
  cases helem with
  | unpackSub8 | unpack16 | unpack32 => exact unpackRow_ends h hop hpos hfits _

/-- The element a run fetches, in each of the nine operations, ends it or lets it go on. -/
theorem fetch_ends {s : State} (h : Running s) {i : Instr} (hf : fetch s = .instr i) :
    ends s (exec i s) := by
  have hle := (checksPassed_of_startFault h.runnable.checked).op_le
  have hprogress := h.runnable.progress
  obtain ⟨c, hc⟩ : ∃ c, s.ctx = some c := by
    cases hctx : s.ctx with
    | none => simp [fetch, hctx] at hf
    | some c => exact ⟨c, rfl⟩
  rw [fetch_eq_decode hc] at hf
  obtain ⟨p, rest, hinput, helem⟩ := decode_eq_instr_iff.1 hf
  interval_cases hop : s.op.toNat <;> simp only [State.ctx, hop, Option.some.injEq] at hc <;>
    subst hc
  · exact pngElement_ends ((progressOk_row (.inl hop)).1 hprogress).1
      (fun f _ => pngRow_ends_defilter h hop f) hinput helem
  · exact pngElement_ends ((progressOk_adam7 hop).1 hprogress).1
      (fun f _ => pngRow_ends_adam7 h hop f) hinput helem
  · exact lzwElement_ends (kind := .gif) h hop rfl rfl hinput helem
  · exact lzwElement_ends (kind := .tiff) h hop rfl rfl hinput helem
  · cases helem with
    | rle8 helem => exact rleElement_ends h (.inl hop) (.inl rfl) hinput helem
  · cases helem with
    | rle4 helem => exact rleElement_ends h (.inr hop) (.inr rfl) hinput helem
  · exact packbitsElement_ends h hop rfl hinput helem
  · exact unpackElement_ends h hop (unpack_stride_pos h.runnable.checked hop) hinput helem
  · cases helem with
    | hpred => exact execHpredRow_ends h hop

/-! ### The run (R144) -/

/-- The reset state with a setup's registers. -/
def Setup.toState (u : Setup) : State :=
  { State.reset with
    params := u.params, srcAddr := u.srcAddr, srcLen := u.srcLen, dstAddr := u.dstAddr
    dstLen := u.dstLen, width := u.width, height := u.height, fmt := u.fmt, ctrlOp := u.ctrlOp
    op := u.op }

/-- START's checks read the setup only. -/
theorem startFault_toState (s : State) : startFault s.setup.toState = startFault s := rfl

theorem startFault_of_setup {s t : State} (h : t.setup = s.setup) :
    startFault t = startFault s := by
  rw [← startFault_toState t, h, startFault_toState]

/-- An engine step of a run answers next, and ends the run or leaves one with fewer steps left. -/
theorem engineStep_ends {s : State} (h : Running s) : ∃ t, engineStep s = .next t ∧
    t.host = s.host ∧ (runOver t ∨ (Running t ∧ stepsLeft t < stepsLeft s)) := by
  obtain ⟨t, ht, hsetup, hsame⟩ := engineStep_within h.runnable
  have hends : endsIn s t := by
    obtain ⟨-, rfl⟩ | ⟨-, -, ⟨-, rfl⟩ | ⟨i, hf, hi⟩⟩ := engineStep_next ht
    · exact raiseInStep_ends ..
    · exact raiseInStep_ends ..
    · exact fetch_ends h hf t hi
  obtain ⟨hhost, hover | ⟨hrun, hprogress, hwidth, hfewer⟩⟩ := hends
  · exact ⟨t, ht, hhost, .inl hover⟩
  · have hchecked := (startFault_of_setup hsetup).trans h.runnable.checked
    exact ⟨t, ht, hhost, .inr ⟨⟨⟨hsame.1, hchecked, hprogress⟩, hrun, hwidth⟩, hfewer⟩⟩

/-- An idle machine with a silent host stays over. -/
theorem steps_of_idle {t : State} (hidle : t.phase = .idle) (hhost : t.host = []) (n : Nat) :
    steps n t t := by
  induction n with
  | zero => rfl
  | succ n ih =>
    exact steps_succ (step_idle (by simp [engineTurn, busy_of_idle hidle]) hhost) ih

theorem stepsLeft_pos {s : State} (h : Running s) : 0 < stepsLeft s := by
  unfold stepsLeft
  split
  · rename_i h8
    exact Nat.sub_pos_of_lt ((progressOk_hpred (congrArg BitVec.toNat h8)).1 h.runnable.progress)
  · exact Nat.succ_pos _

/-- A run with a silent host is over after as many steps as it has left, or more. -/
theorem run_ends {n : Nat} : ∀ {s : State}, Running s → s.host = [] → stepsLeft s ≤ n →
    ∃ t, steps n s t ∧ runOver t := by
  induction n with
  | zero => intro s h _ hn; exact absurd (stepsLeft_pos h) (by omega)
  | succ n ih =>
    intro s h hhost hn
    have hturn : engineTurn s = true := by simp [engineTurn, busy_of_run h.running, hhost]
    have htick : tick s = s := by rw [tick, hhost]
    obtain ⟨t, ht, hhost', hends⟩ := engineStep_ends h
    have hstep : step s = .next t := by rw [step_engine hturn, htick, ht]
    rw [hhost] at hhost'
    obtain hover | ⟨hrun, hfewer⟩ := hends
    · exact ⟨t, steps_succ hstep (steps_of_idle hover.1 hhost' n), hover⟩
    · obtain ⟨u, hu, hover⟩ := ih hrun hhost' (by omega)
      exact ⟨u, steps_succ hstep hu, hover⟩

/-- Settles O57: each step leaves fewer steps or ends the run, by induction on the steps. -/
theorem operationTerminates : Obligations.OperationTerminates := by
  intro s n hinv hrun hhost hn
  have hbusy := busy_of_run hrun
  have hwidth : widthOk s := fun hop => by
    obtain ⟨hlow, hhigh, -⟩ := hinv.lzw hbusy hop
    omega
  exact run_ends ⟨Runnable.of_inv hinv hbusy, hrun, hwidth⟩ hhost hn

end Sys2Proof.Machine

/-! PROOFS. PNG rows (41_png_defilter.md): the illegal elements' fault (R177, R209), Paeth's predictor
(R176), the DEFILTER row (R170) and its inverse (R181). -/

namespace Sys2Proof.Machine

open Sys2Proof.Claims

/-! ### Illegal elements (41_png_defilter.md R177, 42_lzw.md R209) -/

/-- Every fault in a step but E_ABORT reports the element's address, and leaves memory outside the
output window. -/
theorem raiseInStep_faults {code : FaultCode} (hcode : code ≠ .abort) (info : Word) {s : State}
    (hwf : s.mem.wf = true) : ∃ m, raiseInStep code info s =
      faulted (faultValue code) info (BitVec.ofNat 32 (s.bp.toNat / 8)) m s ∧ sameOutside s m := by
  refine ⟨(scrambleOutput s).mem, ?_, sameOutside_scrambleOutput hwf⟩
  rw [raiseInStep_eq_faulted, faultAddress, if_neg hcode]

/-- An INVALID code of either variant raises E_LZW_CODE with the code. -/
theorem exec_invalidInstr (kind : LzwKind) (code : BitVec 12) (s : State) :
    exec (invalidInstr kind code) s = .next (raiseInStep .lzwCode (code.setWidth 32) s) := by
  cases kind <;> rfl

/-- Settles O12: each of them raises its fault in the step. -/
theorem illegalElementsFault : Obligations.IllegalElementsFault := by
  intro s hwf
  refine ⟨fun f => ?_, fun kind code => ?_⟩
  · obtain ⟨m, hfault, hsame⟩ :=
      raiseInStep_faults (code := .filter) (by decide) (f.setWidth 32) hwf
    exact ⟨m, congrArg _ hfault, hsame⟩
  · obtain ⟨m, hfault, hsame⟩ :=
      raiseInStep_faults (code := .lzwCode) (by decide) (code.setWidth 32) hwf
    exact ⟨m, (exec_invalidInstr kind code s).trans (congrArg _ hfault), hsame⟩

/-! ### Paeth's predictor (41_png_defilter.md R176) -/

/-- Settles O27: the branches of the definition, each by the comparisons that lead to it. -/
theorem paethPicksNearest : Obligations.PaethPicksNearest := by
  intro a b c dist v
  have hv : v = if dist a ≤ dist b ∧ dist a ≤ dist c then a
      else if dist b ≤ dist c then b else c := rfl
  clear_value dist v
  split at hv
  case isTrue ha =>
    subst hv
    exact ⟨le_rfl, ha.1, ha.2, .inl rfl, fun _ _ => rfl, fun hba => absurd ha.1 hba.not_ge⟩
  case isFalse ha =>
    split at hv
    case isTrue hb =>
      subst hv
      exact ⟨by omega, le_rfl, hb, .inr (.inl rfl), fun hab hac => absurd ⟨hab, hac⟩ ha,
        fun _ _ => rfl⟩
    case isFalse hb =>
      subst hv
      exact ⟨by omega, by omega, le_rfl, .inr (.inr rfl), fun hab hac => absurd ⟨hab, hac⟩ ha,
        fun _ hbc => absurd hbc hb⟩

/-! ### The DEFILTER row (41_png_defilter.md R170) -/

/-- The claims' predictor is the model's: Paeth's distances from `a + b − c` are those between the
neighbours. -/
theorem pred_eq_predict (f : PngFilter) (a b c : Byte) : pred f a b c = predict f a b c := by
  cases f with
  | none | sub | up | avg => rfl
  | paeth =>
    have ha : (a.toNat : Int) + b.toNat - c.toNat - a.toNat = b.toNat - c.toNat := by ring
    have hb : (a.toNat : Int) + b.toNat - c.toNat - b.toNat = a.toNat - c.toNat := by ring
    have hc : (a.toNat : Int) + b.toNat - c.toNat - c.toNat = a.toNat + b.toNat - 2 * c.toNat := by
      ring
    simp only [pred, predict, paethPredictor, ha, hb, hc]

/-- The model's loop reconstructs. -/
theorem reconstructs_defilterRow {bppb : Nat} (hb : 1 ≤ bppb) (f : PngFilter)
    (prior raw : List Byte) : reconstructs f bppb prior raw (defilterRow f bppb prior raw) := by
  obtain ⟨hlen, hrow⟩ := defilterRow_spec (f := f) (prior := prior) (raw := raw) hb
  exact ⟨hlen, fun k hk => (hrow k hk).trans (by rw [pred_eq_predict]; rfl)⟩

theorem bppb_pos (s : State) : 1 ≤ s.bppb := Nat.le_max_left 1 _

/-- The row instruction of a filter runs the row step with it. -/
theorem exec_rowInstr (f : PngFilter) (raw : List Byte) (s : State) :
    exec (rowInstr f raw) s = pngRow f raw s := by
  cases f <;> rfl

/-- The second half of a DEFILTER step stores the row at DST_ADDR + r·RB and goes on to the next. -/
theorem defilterFinish_run {s : State} {row : List Byte} (hlen : row.length = s.rb)
    (hs : rowsOk s.rb s) (bytes : Nat) :
    ∃ m, defilterFinish row (advance (8 * bytes) s) = some (rowDone bytes s.rb m s) ∧
      stored s.mem m (s.dstAddr.toNat + s.r.toNat * s.rb) row := by
  obtain ⟨hwf, hr, hwindow⟩ := hs
  have hend := row_end_le s.rb hr
  obtain ⟨m, hm, hw⟩ := memWriteAll_run (s := advance (8 * bytes) s)
    (a := s.dstAddr.toNat + s.r.toNat * s.rb) (vs := row) (by rw [advance_params]; omega)
  refine ⟨m, ?_, stored_of_storeAll hwf hm⟩
  rw [defilterFinish, advance_dstAddr, advance_r, advance_rb, hw, Option.map_some,
    ← finishRow_eq_rowDone bytes s.rb m hr]
  rfl

/-- The row step of DEFILTER keeps the reconstruction, stores it and goes on to the next row. -/
theorem pngRow_defilter {s : State} (f : PngFilter) {raw : List Byte} (hop : s.op = 0)
    (hlen : raw.length = s.rb) (hs : rowsOk s.rb s) :
    ∃ m, pngRow f raw s = .next (rowDone (1 + s.rb) s.rb m
        (keepRow (defilterRow f s.bppb s.prior raw) s)) ∧
      stored s.mem m (s.dstAddr.toNat + s.r.toNat * s.rb) (defilterRow f s.bppb s.prior raw) := by
  obtain ⟨hrow, -⟩ := reconstructs_defilterRow (bppb_pos s) f s.prior raw
  obtain ⟨m, hfinish, hstored⟩ := defilterFinish_run
    (s := keepRow (defilterRow f s.bppb s.prior raw) s) (hrow.trans hlen) hs (1 + s.rb)
  refine ⟨m, ?_, hstored⟩
  rw [pngRow, if_neg (by simp [hop]), hlen]
  exact congrArg orFault hfinish

/-- Keeping a row of `n` bytes, as the claims state it. -/
theorem keepRow_eq {row : List Byte} {n : Nat} (h : row.length = n) (s : State) :
    keepRow row s = { s with cur := row ++ s.cur.drop n, prior := row ++ s.prior.drop n } := by
  rw [keepRow, overlay, overlay, h]

/-- Settles O21: the row step's reconstruction is kept, stored and counted. -/
theorem defilterRowWrites : Obligations.DefilterRowWrites := by
  intro s f raw hop hlen hs
  have hrec := reconstructs_defilterRow (bppb_pos s) f s.prior raw
  obtain ⟨m, hexec, hstored⟩ := pngRow_defilter f hop hlen hs
  refine ⟨_, m, hrec, ?_, hstored⟩
  rw [exec_rowInstr, hexec, keepRow_eq (hrec.1.trans hlen)]

/-! ### Filtering inverted (41_png_defilter.md R181) -/

/-- The byte one pixel back is the same in rows that agree before it. -/
theorem back_congr {bppb i : Nat} {l m : List Byte} (hb : 1 ≤ bppb)
    (h : ∀ k < i, l.getD k 0 = m.getD k 0) : back bppb l i = back bppb m i := leftOf_congr hb h

/-- A raw row has one reconstruction: its bytes are determined in ascending order. -/
theorem reconstructs_unique {f : PngFilter} {bppb : Nat} {prior raw row row' : List Byte}
    (hb : 1 ≤ bppb) (h : reconstructs f bppb prior raw row)
    (h' : reconstructs f bppb prior raw row') : row = row' := by
  obtain ⟨hlen, hrow⟩ := h
  obtain ⟨hlen', hrow'⟩ := h'
  have hbytes : ∀ i < raw.length, row.getD i 0 = row'.getD i 0 := by
    intro i
    induction i using Nat.strong_induction_on with
    | _ i ih =>
      intro hi
      rw [hrow i hi, hrow' i hi, back_congr hb fun k hk => ih k hk (hk.trans hi)]
  refine List.ext_getElem (hlen.trans hlen'.symm) fun i hi hi' => ?_
  rw [← List.getD_eq_getElem row 0 hi, ← List.getD_eq_getElem row' 0 hi', hbytes i (hlen ▸ hi)]

theorem filtered_length (f : PngFilter) (bppb : Nat) (prior image : List Byte) :
    (filtered f bppb prior image).length = image.length := by
  simp [filtered]

theorem filtered_getD (f : PngFilter) (bppb : Nat) (prior : List Byte) {image : List Byte} {i : Nat}
    (h : i < image.length) : (filtered f bppb prior image).getD i 0 =
      image.getD i 0 - pred f (back bppb image i) (prior.getD i 0) (back bppb prior i) := by
  simp [filtered, List.getD_eq_getElem?_getD, h]

/-- What the encoder subtracts at a byte is what the reconstruction adds there. -/
theorem reconstructs_filtered (f : PngFilter) (bppb : Nat) (prior image : List Byte) :
    reconstructs f bppb prior (filtered f bppb prior image) image := by
  have hlen := filtered_length f bppb prior image
  refine ⟨hlen.symm, fun i hi => ?_⟩
  rw [filtered_getD f bppb prior (hlen ▸ hi), BitVec.sub_add_cancel]

theorem rowDone_cur (bytes n : Nat) (m : Memory) (s : State) : (rowDone bytes n m s).cur = s.cur := by
  unfold rowDone ended
  split <;> rfl

theorem rowDone_prior (bytes n : Nat) (m : Memory) (s : State) :
    (rowDone bytes n m s).prior = s.prior := by
  unfold rowDone ended
  split <;> rfl

/-- Settles O26: the image row is a reconstruction of its filtered row, hence the one the row step
gives. -/
theorem filterInverted : Obligations.FilterInverted := by
  intro s f image hop hlen hs
  have hraw := (filtered_length f s.bppb s.prior image).trans hlen
  have himage : defilterRow f s.bppb s.prior (filtered f s.bppb s.prior image) = image :=
    reconstructs_unique (bppb_pos s) (reconstructs_defilterRow (bppb_pos s) ..)
      (reconstructs_filtered ..)
  obtain ⟨m, hexec, -, hread, -⟩ := pngRow_defilter f hop hraw hs
  rw [himage] at hexec hread
  refine ⟨_, (exec_rowInstr ..).trans hexec, ?_, ?_, fun k hk => ?_⟩
  · rw [rowDone_cur, keepRow_cur, overlay, List.take_left' hlen]
  · rw [rowDone_prior, keepRow_prior, overlay, List.take_left' hlen]
  · rw [rowDone_mem, hread k (hlen ▸ hk)]

end Sys2Proof.Machine

/-! PROOFS. LZW (42_lzw.md): the begin of a sequential run (R201), ROOT (R204) and CLEAR (R202). -/

namespace Sys2Proof.Machine

open Sys2Proof.Claims

/-! ### The begin of a sequential run (40_command.md R134, R137; 42_lzw.md R201) -/

/-- LZW_GIF starts in the cleared state of MIN = FMT.LZWMIN. -/
theorem initialise_lzwGif {s : State} (hop : s.op = 2) :
    initialise s = some (lzwReset s.lzwMin s) := by
  rw [initialise, hop]
  rfl

/-- LZW_TIFF starts in the cleared state of MIN = 8. -/
theorem initialise_lzwTiff {s : State} (hop : s.op = 3) : initialise s = some (lzwReset 8 s) := by
  rw [initialise, hop]
  rfl

/-- PACKBITS has nothing to initialise. -/
theorem initialise_packbits {s : State} (hop : s.op = 6) : initialise s = some s := by
  rw [initialise, hop]
  rfl

/-- Settles O17: where the checks pass, the run begins as `initialise` says. -/
theorem startSequentialOperationsBegin : Obligations.StartSequentialOperationsBegin := by
  refine fun s ie ab hidle => ⟨fun hpassed => ?_, fun hpassed => ?_, fun hpassed => ?_⟩
  · exact startCommand_of_passed ab hidle hpassed (initialise_lzwGif rfl)
  · exact startCommand_of_passed ab hidle hpassed (initialise_lzwTiff rfl)
  · exact startCommand_of_passed ab hidle hpassed (initialise_packbits rfl)

/-! ### ROOT and CLEAR (42_lzw.md R202, R204) -/

/-- The string of a root code is its one byte, in both variants. -/
theorem exec_rootInstr (kind : LzwKind) (code : BitVec 12) (s : State) :
    exec (rootInstr kind code) s = runCode kind [code.setWidth 8] code s := by
  cases kind <;> rfl

/-- Settles O34: a root code emits its byte, which is also the suffix it learns. -/
theorem lzwRootEmitsAndLearns : Obligations.LzwRootEmitsAndLearns := by
  intro s kind code hop hs hwf
  exact decodes_of_runCode hop hs hwf code (exec_rootInstr kind code s)

/-- Both variants' CLEAR, each with its own MIN (R200). -/
theorem exec_clearInstr (kind : LzwKind) (s : State) : exec (clearInstr kind) s =
    .next (finishFull (lzwReset (Claims.lzwMin kind s) (advance s.w.toNat s))) := by
  cases kind <;> rfl

/-- Settles O39: CLEAR emits nothing, so the output that had room still has it and the step ends at a
boundary, in the cleared state. -/
theorem lzwClearResetsDecoder : Obligations.LzwClearResetsDecoder := by
  intro s kind hop hroom
  have hout : s.out.toNat < s.outSize := by
    rwa [outSize_sequential (isSequential_lzwOp hop)]
  rw [exec_clearInstr, finishFull_of_room (by simpa using hout)]
  rfl

end Sys2Proof.Machine

/-! PROOFS. BMP run-length elements that place no pixel (43_rle_packbits.md R243 to R245). -/

namespace Sys2Proof.Machine

open Sys2Proof.Claims

/-! ### EOL, DELTA and EOB: RLE8 and RLE4 give each the same meaning -/

/-- EOL moves to the start of the next row (R243). -/
theorem exec_eol {i : Instr} (hi : i ∈ [.rle8Eol, .rle4Eol]) (s : State) :
    exec i s = .next (finish false (newLine (advance 16 s))) := by
  obtain rfl | rfl := List.mem_pair.mp hi
  case inl => rfl
  case inr => rfl

/-- DELTA moves by its two operands, clipped to the window (R245). -/
theorem exec_delta {dx dy : Byte} {i : Instr} (hi : i ∈ [.rle8Delta dx dy, .rle4Delta dx dy])
    (s : State) :
    exec i s = .next (finish false (movePixel dx.toNat dy.toNat (advance 32 s))) := by
  obtain rfl | rfl := List.mem_pair.mp hi
  case inl => rfl
  case inr => rfl

/-- EOB completes the operation where it stands (R244). -/
theorem exec_eob {i : Instr} (hi : i ∈ [.rle8Eob, .rle4Eob]) (s : State) :
    exec i s = .next (finish true (advance 16 s)) := by
  obtain rfl | rfl := List.mem_pair.mp hi
  case inl => rfl
  case inr => rfl

/-- Settles O30: each element ends its step as `ended` says, after its moves of BP, x and y alone. -/
theorem rleMovesAndEnds : Obligations.RleMovesAndEnds := by
  refine fun s => ⟨fun i heol => ?_, fun dx dy i hdelta => ?_, fun i heob => ?_⟩
  · rw [exec_eol heol, ← ended_eq_finish]
    rfl
  · rw [exec_delta hdelta, ← ended_eq_finish]
    rfl
  · rw [exec_eob heob, ← ended_eq_finish]
    rfl

end Sys2Proof.Machine

/-! PROOFS. UNPACK rows (44_unpack.md): the row step (R280, R285), then the samples of 1 to 8 bits (R281)
and of 16 and 32 bits (R282, R283) as the claims state them. -/

namespace Sys2Proof.Machine

open Sys2Proof.Claims

/-! ### The UNPACK row step (44_unpack.md R280, R285) -/

/-- The row step stores the row's samples at the row VFLIP selects and goes on to the next. -/
theorem unpackRow_stores {s : State} {row : List Byte} (sampleOf : Nat → Byte)
    (hlen : row.length = s.stride) (hs : rowsOk s.rowSamples s) :
    ∃ m, unpackRow sampleOf row s = .next (rowDone s.stride s.rowSamples m s) ∧
      stored s.mem m (unpackAt s) ((List.range s.rowSamples).map sampleOf) := by
  obtain ⟨hwf, hr, hwindow⟩ := hs
  have hend : s.outRow s.r.toNat * s.rowSamples + s.rowSamples ≤ s.height.toNat * s.rowSamples :=
    row_end_le s.rowSamples (outRow_lt hr)
  have hfit : unpackAddress s + ((List.range s.rowSamples).map sampleOf).length ≤
      (advance (8 * row.length) s).params.memSize := by
    rw [List.length_map, List.length_range, advance_params, unpackAddress]
    omega
  obtain ⟨m, hm, hw⟩ := memWriteAll_run hfit
  refine ⟨m, ?_, stored_of_storeAll hwf hm⟩
  rw [unpackRow, hw, Option.map_some, ← hlen, ← finishRow_eq_rowDone row.length s.rowSamples m hr]
  rfl

/-- Where a row instruction runs the row step with the claims' samples, it stores them. -/
theorem storesSamples_of_unpackRow {s : State} {row : List Byte} {i : Instr} {sampleOf : Nat → Byte}
    (hexec : exec i s = unpackRow sampleOf row s) (hsample : sampleOf = sample s.bd s.le row)
    (hlen : row.length = s.stride) (hs : rowsOk (s.width.toNat * s.nc) s) :
    ∃ m, exec i s = .next (rowDone s.stride (s.width.toNat * s.nc) m s) ∧
      stored s.mem m (unpackAt s) (samples s row) := by
  rw [hexec, samples, ← hsample]
  exact unpackRow_stores sampleOf hlen hs

/-! ### The samples of a row (44_unpack.md R281 to R283) -/

/-- The field of `bd` bits from bit `k` of a byte, zero-extended: shifted down and masked. -/
theorem ofNat_field_eq_shift_and (v : Byte) (k : Nat) {bd : Nat} (hbd : bd ≤ 8) :
    BitVec.ofNat 8 (v.toNat / 2 ^ k % 2 ^ bd) = (v >>> k) &&& BitVec.ofNat 8 (2 ^ bd - 1) := by
  have hpow : 2 ^ bd ≤ 2 ^ 8 := Nat.pow_le_pow_right (by decide) hbd
  have hmask : (2 ^ bd - 1) % 2 ^ 8 = 2 ^ bd - 1 :=
    Nat.mod_eq_of_lt (by have := Nat.two_pow_pos bd; omega)
  have hfield : v.toNat / 2 ^ k % 2 ^ bd < 2 ^ 8 :=
    (Nat.mod_lt _ (Nat.two_pow_pos bd)).trans_le hpow
  apply BitVec.eq_of_toNat_eq
  rw [BitVec.toNat_ofNat, Nat.mod_eq_of_lt hfield, BitVec.toNat_and, BitVec.toNat_ushiftRight,
    BitVec.toNat_ofNat, hmask, Nat.and_two_pow_sub_one_eq_mod, Nat.shiftRight_eq_div_pow]

/-- A sample of at most 8 bits is the one the claims name. -/
theorem sampleSub8_eq_sample {bd : Nat} (hbd : bd ≤ 8) (le : Bool) (row : List Byte) :
    sampleSub8 bd row = sample bd le row := by
  funext k
  rw [sample, if_neg (by omega), if_neg (by omega), ← ofNat_field_eq_shift_and _ _ hbd]
  rfl

/-- A sample of 16 bits gives the byte the claims name. -/
theorem sample16_eq_sample (le : Bool) (row : List Byte) : sample16 le row = sample 16 le row := by
  cases le <;> rfl

/-- A sample of 32 bits gives the byte the claims name. -/
theorem sample32_eq_sample (le : Bool) (row : List Byte) : sample32 le row = sample 32 le row := by
  cases le <;> rfl

/-- Settles O41: each narrow width is at most 8 bits, so the samples stored are masked fields. -/
theorem unpackSub8Row : Obligations.UnpackSub8Row := by
  intro s row _ hbd hlen hs
  have hle : s.bd ≤ 8 := (by decide : ∀ bd ∈ [1, 2, 4, 8], bd ≤ 8) s.bd hbd
  exact storesSamples_of_unpackRow rfl (sampleSub8_eq_sample hle s.le row) hlen hs

/-- Settles O42: both widths run the row step with the byte LE selects. -/
theorem unpackWideRow : Obligations.UnpackWideRow := by
  intro s row _ hlen hs
  refine ⟨fun h16 => ?_, fun h32 => ?_⟩
  · exact storesSamples_of_unpackRow rfl (h16 ▸ sample16_eq_sample s.le row) hlen hs
  · exact storesSamples_of_unpackRow rfl (h32 ▸ sample32_eq_sample s.le row) hlen hs

end Sys2Proof.Machine

/-! PROOFS. The Adam7 geometry (45_adam7.md R300 to R302): what pw and ph count, the partition of the
pixel grid, the sum of the passes and the pass entered next. -/

namespace Sys2Proof.Machine

open Sys2Proof.Claims

/-! ### The pass entered next (45_adam7.md R302) -/

/-- The passes `nextPass` searches, in their order. -/
theorem passes_eq_range' : [1, 2, 3, 4, 5, 6, 7] = List.range' 1 7 := rfl

/-- A pass that is not both above `p` and non-empty is passed over by the search. -/
theorem passedOver_iff {s : State} {p k : Nat} :
    (!(decide (p < k) && decide (0 < s.passW k) && decide (0 < s.passH k))) = true ↔
      (p < k → s.passW k = 0 ∨ s.passH k = 0) := by
  simp only [Bool.not_eq_true', Bool.and_eq_false_iff, decide_eq_false_iff_not]
  omega

/-- Settles O23: a search in rising order finds the smallest, and finds none where there is none. -/
theorem nextPassIsSmallest : Obligations.NextPassIsSmallest := by
  intro s p
  refine ⟨fun q => ?_, ?_⟩
  · rw [State.nextPass, passes_eq_range', List.find?_range'_eq_some]
    simp only [passedOver_iff, Bool.and_eq_true, decide_eq_true_eq, List.mem_range'_1]
    constructor
    · rintro ⟨⟨⟨hpq, hw⟩, hh⟩, ⟨hlow, hhigh⟩, hbetween⟩
      exact ⟨hpq, hlow, by omega, hw, hh, fun k hpk hk hkq => hbetween k hk hkq hpk⟩
    · rintro ⟨hpq, hlow, hhigh, hw, hh, hbetween⟩
      exact ⟨⟨⟨hpq, hw⟩, hh⟩, ⟨hlow, by omega⟩, fun k hk hkq hpk => hbetween k hpk hk hkq⟩
  · rw [State.nextPass, passes_eq_range', List.find?_range'_eq_none]
    simp only [passedOver_iff]
    exact ⟨fun h k hpk hlow hhigh => h k hlow (by omega) hpk,
      fun h k hlow hhigh hpk => h k hpk hlow (by omega)⟩

/-! ### The pixels of a pass (45_adam7.md R300, R301, R304) -/

/-- A pass starts within its first cell. -/
theorem passGeometry_origin_lt (p : Nat) :
    (passGeometry p).x0 < (passGeometry p).dx ∧ (passGeometry p).y0 < (passGeometry p).dy := by
  unfold passGeometry
  split <;> decide

/-- Exactly `⌈(n − o) / d⌉` of the positions `o, o + d, ...` are below `n`. -/
theorem position_lt_iff {n d o k : Nat} (ho : o < d) :
    o + k * d < n ↔ k < (n + d - 1 - o) / d := by
  rw [← Nat.succ_le_iff (m := k), Nat.le_div_iff_mul_le (by omega), Nat.succ_mul]
  omega

/-- The pass of pixel (x, y): the first halving of the grid, from the finest, that leaves it out. -/
def passOf (x y : Nat) : Nat :=
  if y % 2 = 1 then 7
  else if x % 2 = 1 then 6
  else if y % 4 = 2 then 5
  else if x % 4 = 2 then 4
  else if y % 8 = 4 then 3
  else if x % 8 = 4 then 2
  else 1

theorem passOf_range (x y : Nat) : 1 ≤ passOf x y ∧ passOf x y ≤ 7 := by
  fun_cases passOf <;> decide

/-- A pixel is in the congruence class of a pass exactly where the halvings give that pass. -/
theorem inPass_iff_passOf {p : Nat} (hlow : 1 ≤ p) (hhigh : p ≤ 7) (x y : Nat) :
    x % (passGeometry p).dx = (passGeometry p).x0 ∧ y % (passGeometry p).dy = (passGeometry p).y0 ↔
      p = passOf x y := by
  -- In each case of the halvings, the remainders mod 8 of the pixel decide each of the seven classes.
  fun_cases passOf
  all_goals
    interval_cases p <;> simp only [passGeometry, iff_true] <;> omega

/-- Settles O24: `passOf` names the one pass of a pixel, and the positions of a pass are counted in
each dimension. -/
theorem passClassesPartitionGrid : Obligations.PassClassesPartitionGrid := by
  refine ⟨fun x y => ?_, fun s p k _ _ => ?_⟩
  · obtain ⟨hlow, hhigh⟩ := passOf_range x y
    refine ⟨passOf x y, ⟨hlow, hhigh, (inPass_iff_passOf hlow hhigh x y).2 rfl⟩, ?_⟩
    rintro p ⟨hp, hp', hclass⟩
    exact (inPass_iff_passOf hp hp' x y).1 hclass
  · obtain ⟨hx, hy⟩ := passGeometry_origin_lt p
    exact ⟨position_lt_iff hx, position_lt_iff hy⟩

/-! ### The sizes of the passes (45_adam7.md R301) -/

/-- The columns of passes 1 and 2 interleave to those of pass 3, those of 3 and 4 to those of 5, and
those of 5 and 6 to the image's, which are those of pass 7. -/
theorem passW_interleave (s : State) :
    s.passW 1 + s.passW 2 = s.passW 3 ∧ s.passW 3 + s.passW 4 = s.passW 5 ∧
      s.passW 5 + s.passW 6 = s.W ∧ s.passW 7 = s.W := by
  simp only [State.passW, passGeometry]
  omega

/-- The rows of passes 1 and 2 are the same; with those of pass 3 they interleave to those of pass 4,
those of 4 and 5 to those of 6, and those of 6 and 7 to the image's. -/
theorem passH_interleave (s : State) :
    s.passH 2 = s.passH 1 ∧ s.passH 1 + s.passH 3 = s.passH 4 ∧
      s.passH 4 + s.passH 5 = s.passH 6 ∧ s.passH 6 + s.passH 7 = s.H := by
  simp only [State.passH, passGeometry, true_and]
  omega

/-- The passes' pixels add up: each pass doubles the columns or the rows of those before it. -/
theorem sum_passes (s : State) : ∑ p ∈ Finset.Icc 1 7, s.passW p * s.passH p = s.W * s.H := by
  obtain ⟨hw3, hw5, hw, hw7⟩ := passW_interleave s
  obtain ⟨hh2, hh4, hh6, hh⟩ := passH_interleave s
  calc ∑ p ∈ Finset.Icc 1 7, s.passW p * s.passH p
      = s.passW 1 * s.passH 1 + s.passW 2 * s.passH 2 + s.passW 3 * s.passH 3
        + s.passW 4 * s.passH 4 + s.passW 5 * s.passH 5 + s.passW 6 * s.passH 6
        + s.passW 7 * s.passH 7 := by simp [Finset.sum_Icc_succ_top]
    _ = s.W * s.H := by
        rw [hh2, ← Nat.add_mul, hw3, ← Nat.mul_add, hh4, ← Nat.add_mul, hw5, ← Nat.mul_add, hh6,
          ← Nat.add_mul, hw, hw7, ← Nat.mul_add, hh]

/-- A pass row is no longer than an image row. -/
theorem passW_le (s : State) (p : Nat) : s.passW p ≤ s.W := by
  obtain ⟨hdx, -⟩ := passGeometry_pos p
  by_contra hlong
  have hcolumn := position_lt hdx (not_le.1 hlong)
  have hstride := Nat.le_mul_of_pos_right s.W hdx
  omega

theorem passRowBytes_le (s : State) (p : Nat) : s.passRowBytes p ≤ s.rb := by
  have hbits : s.passW p * s.nc * s.bd ≤ s.W * s.nc * s.bd :=
    Nat.mul_le_mul_right _ (Nat.mul_le_mul_right _ (passW_le s p))
  unfold State.passRowBytes State.rb divCeil
  omega

/-- Settles O25: pass 1 holds the pixel (0, 0) of every image. -/
theorem passSizesAddUpAndFit : Obligations.PassSizesAddUpAndFit := by
  intro s
  refine ⟨sum_passes s, passRowBytes_le s, fun hw hh => ?_⟩
  obtain ⟨hx, hy⟩ := passGeometry_origin_lt 1
  exact ⟨(position_lt_iff hx).1 hw, (position_lt_iff hy).1 hh⟩

end Sys2Proof.Machine

/-! PROOFS. The ADAM7 row (45_adam7.md R302, R303): what a loop of PutBits leaves, the scatter of a pass
row as such a loop, and the end of the step. -/

namespace Sys2Proof.Machine

open Sys2Proof.Claims

/-! ### Nested loops as one -/

theorem each_append {α σ : Type} (f : α → σ → Option σ) (l l' : List α) (s : σ) :
    each f (l ++ l') s = (each f l s).bind (each f l') := by
  induction l generalizing s with
  | nil => rfl
  | cons a l ih =>
    simp only [List.cons_append, each, Option.bind_assoc]
    exact congrArg _ (funext ih)

theorem each_map {α β σ : Type} (f : β → σ → Option σ) (g : α → β) (l : List α) (s : σ) :
    each f (l.map g) s = each (fun a => f (g a)) l s := by
  induction l generalizing s with
  | nil => rfl
  | cons a l ih => exact congrArg _ (funext ih)

/-- A loop over `l'` inside a loop over `l` is one loop over the pairs. -/
theorem each_product {α β σ : Type} (f : α → β → σ → Option σ) (l : List α) (l' : List β) (s : σ) :
    each (fun a => each (f a) l') l s = each (fun c => f c.1 c.2) (l ×ˢ l') s := by
  induction l generalizing s with
  | nil => rfl
  | cons a l ih =>
    rw [List.product_cons, each_append, each_map]
    exact congrArg _ (funext ih)

/-! ### Bits in memory (45_adam7.md R303) -/

/-- A bit put in memory reads back, every other bit as before. -/
theorem bitAt_putBit {base q : Nat} {v : Bool} {s t : State} (hwf : s.mem.wf = true)
    (h : putBit base q v s = some t) (n : Nat) :
    bitAt t.mem base n = if n = q then v else bitAt s.mem base n := by
  obtain ⟨-, rfl⟩ := putBit_eq_some.1 h
  rw [bitAt, bitAt, Memory.read_write hwf]
  by_cases hbyte : n / 8 = q / 8
  · rw [hbyte, if_pos rfl, setBit_getLsbD (by omega) (by omega)]
    exact if_congr (by omega) rfl rfl
  · rw [if_neg (by omega), if_neg (by rintro rfl; exact hbyte rfl)]

/-- `m'` is `m` with bit `pos i` from `base` set to `v i` for each `i` of `l`: every other bit, and
every byte that holds none of them, reads as before, and the form is canonical. -/
def bitsStored {ι : Type} (base : Nat) (pos : ι → Nat) (v : ι → Bool) (l : List ι)
    (m m' : Memory) : Prop :=
  m'.wf = true ∧ (∀ i ∈ l, bitAt m' base (pos i) = v i) ∧
    (∀ n, (∀ i ∈ l, n ≠ pos i) → bitAt m' base n = bitAt m base n) ∧
    ∀ b, (∀ i ∈ l, b ≠ base + pos i / 8) → m'.read b = m.read b

/-- A loop of PutBits that puts no position at two values stores its bits. -/
theorem bitsStored_of_each {ι : Type} {base : Nat} {pos : ι → Nat} {v : ι → Bool} {l : List ι}
    (hv : ∀ i ∈ l, ∀ j ∈ l, pos i = pos j → v i = v j) {s t : State} (hwf : s.mem.wf = true)
    (h : each (fun i => putBit base (pos i) (v i)) l s = some t) :
    bitsStored base pos v l s.mem t.mem := by
  induction l generalizing s with
  | nil =>
    obtain rfl : s = t := Option.some.inj h
    exact ⟨hwf, nofun, fun _ _ => rfl, fun _ _ => rfl⟩
  | cons i l ih =>
    obtain ⟨u, hu, ht⟩ := Option.bind_eq_some_iff.1 h
    have hput := bitAt_putBit hwf hu
    obtain ⟨-, hmem⟩ := putBit_eq_some.1 hu
    have hwfu : u.mem.wf = true := by rw [hmem]; exact Memory.wf_write hwf ..
    obtain ⟨hwft, hset, hbits, hbytes⟩ :=
      ih (fun j hj k hk => hv j (.tail i hj) k (.tail i hk)) hwfu ht
    refine ⟨hwft, ?_, fun n hn => ?_, fun b hb => ?_⟩
    · refine List.forall_mem_cons.2 ⟨?_, hset⟩
      by_cases hagain : ∃ j ∈ l, pos i = pos j
      · obtain ⟨j, hj, hpos⟩ := hagain
        rw [hpos, hset j hj, hv i List.mem_cons_self j (.tail i hj) hpos]
      · rw [hbits _ fun j hj hpos => hagain ⟨j, hj, hpos⟩, hput, if_pos rfl]
    · obtain ⟨hi, hl⟩ := List.forall_mem_cons.1 hn
      rw [hbits n hl, hput, if_neg hi]
    · obtain ⟨hi, hl⟩ := List.forall_mem_cons.1 hb
      rw [hbytes b hl, hmem, Memory.read_write_other hwf hi]

/-! ### The scatter of a pass row (45_adam7.md R303) -/

/-- The bits of a pass row: bit `t` of pixel `px`. -/
def passBits (s : State) : List (Nat × Nat) :=
  List.range (s.passW s.p.toNat) ×ˢ List.range (s.nc * s.bd)

theorem mem_passBits {s : State} {c : Nat × Nat} :
    c ∈ passBits s ↔ c.1 < s.passW s.p.toNat ∧ c.2 < s.nc * s.bd := by
  rw [passBits, List.mem_product, List.mem_range, List.mem_range]

/-- Where bit `t` of pixel `px` of the pass row stands in its output row. -/
def scatterBit (s : State) (c : Nat × Nat) : Nat :=
  ((passGeometry s.p.toNat).x0 + c.1 * (passGeometry s.p.toNat).dx) * (s.nc * s.bd) + c.2

/-- The byte address of the output row of the present pass row. -/
def scatterBase (s : State) : Nat :=
  s.dstAddr.toNat
    + ((passGeometry s.p.toNat).y0 + s.r.toNat * (passGeometry s.p.toNat).dy) * s.rb

/-- The scatter is one loop of PutBits over the bits of the pass row. -/
theorem scatterRow_eq_each (row : List Byte) (s : State) :
    scatterRow row s = each (fun c => putBit (scatterBase s) (scatterBit s c)
      (bitOf row (c.1 * (s.nc * s.bd) + c.2))) (passBits s) s :=
  each_product _ _ _ _

/-- Different bits of a pass row go to different places. -/
theorem scatterBit_injective {s : State} {c e : Nat × Nat} (hc : c.2 < s.nc * s.bd)
    (he : e.2 < s.nc * s.bd) (h : scatterBit s c = scatterBit s e) : c = e := by
  obtain ⟨hdx, -⟩ := passGeometry_pos s.p.toNat
  have hpb : 0 < s.nc * s.bd := by omega
  have hcolumn := congrArg (· / (s.nc * s.bd)) h
  have hbit := congrArg (· % (s.nc * s.bd)) h
  simp only [scatterBit, Nat.mul_comm _ (s.nc * s.bd), Nat.mul_add_div hpb, Nat.mul_add_mod,
    Nat.div_eq_of_lt, Nat.mod_eq_of_lt, hc, he, Nat.add_zero] at hcolumn hbit
  exact Prod.ext (Nat.eq_of_mul_eq_mul_right hdx (Nat.add_left_cancel hcolumn)) hbit

/-- Every bit of a pass row goes to a byte of its output row. -/
theorem scatterBit_byte_lt {s : State} {c : Nat × Nat} (hc : c ∈ passBits s) :
    scatterBit s c / 8 < s.rb := by
  obtain ⟨hpx, ht⟩ := mem_passBits.1 hc
  obtain ⟨hdx, -⟩ := passGeometry_pos s.p.toNat
  rw [State.rb, Nat.mul_assoc]
  exact pixelBit_byte_lt (position_lt hdx hpx) ht

/-- The scatter of a row of a pass within the image succeeds, and stores the row's bits at their
places. -/
theorem scatterRow_run {s : State} (row : List Byte) (hop : s.op = 1) (hwf : s.mem.wf = true)
    (hr : s.r.toNat < s.passH s.p.toNat)
    (hwindow : s.dstAddr.toNat + s.height.toNat * s.rb ≤ s.params.memSize) :
    ∃ m, scatterRow row s = some { s with mem := m } ∧
      bitsStored (scatterBase s) (scatterBit s) (fun c => bitOf row (c.1 * (s.nc * s.bd) + c.2))
        (passBits s) s.mem m := by
  have hout : s.outSize = s.H * s.rb := by rw [State.outSize, hop]; rfl
  obtain ⟨t, ht, -⟩ := scatterRow_within (hout ▸ hwindow) hout (withinWindow_refl hwf) row hr
  obtain ⟨m, rfl⟩ := scatterRow_mem ht
  refine ⟨m, ht, bitsStored_of_each (fun c hc e he hce => ?_) hwf (scatterRow_eq_each row s ▸ ht)⟩
  rw [scatterBit_injective (mem_passBits.1 hc).2 (mem_passBits.1 he).2 hce]

/-! ### The row step of ADAM7 (45_adam7.md R302, R303) -/

/-- The end of a pass row, as the claims state it. -/
theorem finishPass_eq_passEnded (s : State) : finishPass s = passEnded s := by
  unfold finishPass passEnded
  by_cases hlast : s.r.toNat = s.passH s.p.toNat
  · rw [if_pos hlast, if_pos hlast]
    cases s.nextPass s.p.toNat with
    | some q =>
      dsimp only
      rw [ended_eq_finish, enterPass, overlay_zeros]
    | none => exact (ended_eq_finish true s).symm
  · rw [if_neg hlast, if_neg hlast, ended_eq_finish]

/-- The row step of ADAM7 keeps the reconstruction, scatters it, counts its pixels and ends the row. -/
theorem pngRow_adam7 {s : State} (f : PngFilter) (raw : List Byte) (hop : s.op = 1)
    (hwf : s.mem.wf = true) (hr : s.r.toNat < s.passH s.p.toNat)
    (hwindow : s.dstAddr.toNat + s.height.toNat * s.rb ≤ s.params.memSize) :
    let row := defilterRow f s.bppb s.prior raw
    ∃ m, pngRow f raw s = .next (passEnded (nextRow (countOut (s.passW s.p.toNat)
        { keepRow row (advance (8 * (1 + raw.length)) s) with mem := m }))) ∧
      bitsStored (scatterBase s) (scatterBit s) (fun c => bitOf row (c.1 * (s.nc * s.bd) + c.2))
        (passBits s) s.mem m := by
  intro row
  obtain ⟨m, hscatter, hstored⟩ := scatterRow_run row
    (s := keepRow row (advance (8 * (1 + raw.length)) s)) hop hwf hr hwindow
  refine ⟨m, ?_, hstored⟩
  rw [pngRow, if_pos (by simp [hop]), adam7Finish, hscatter, Option.map_some,
    finishPass_eq_passEnded]
  rfl

/-- Settles O22: the row's bits are stored at their places, which lie in one output row. -/
theorem adam7RowScatters : Obligations.Adam7RowScatters := by
  intro s f raw hop _ _ hr hwf hwindow g base pixel
  have hrec := reconstructs_defilterRow (bppb_pos s) f s.prior raw
  obtain ⟨m, hexec, hwfm, hset, hbits, hbytes⟩ := pngRow_adam7 f raw hop hwf hr hwindow
  refine ⟨_, m, hrec, (exec_rowInstr f raw s).trans hexec, hwfm, fun px hpx t ht => ?_,
    fun n hn => ?_, fun b hb => ?_⟩
  · exact hset (px, t) (mem_passBits.2 ⟨hpx, ht⟩)
  · exact hbits n fun c hc => hn c.1 (mem_passBits.1 hc).1 c.2 (mem_passBits.1 hc).2
  · have houtside : b < scatterBase s ∨ scatterBase s + s.rb ≤ b := hb
    refine hbytes b fun c hc => ?_
    have hbyte := scatterBit_byte_lt hc
    omega

end Sys2Proof.Machine

/-! PROOFS. The idle machine (60_exceptions.md R347). -/

namespace Sys2Proof.Machine

/-- Settles O11: an idle engine never has the turn (O9's second clause), and with an empty queue the
host has none either. -/
theorem idleMachineStays : Obligations.IdleMachineStays := by
  intro s hidle hhost
  obtain ⟨-, engineTurn_of_idle⟩ := abortTestedFirst
  exact step_idle (engineTurn_of_idle s hidle) hhost

end Sys2Proof.Machine

/-! PROOFS. What an element of the running operation leaves (40_command.md R138), said once: the
fault it raised, or the registers it moved and then the completion test. -/

namespace Sys2Proof.Machine

open Sys2Proof.Claims

/-! ### The registers an element writes -/

/-- `s` with what the engine counts, places and stores put to 0: what emission, pixels, rows and
memory writes leave as it was. -/
def State.still (s : State) : State :=
  { s with out := 0, x := 0, y := 0, r := 0, p := 0, ovf := false, mem := [] }

theorem memWriteAll_still {a : Nat} {vs : List Byte} {s t : State}
    (h : memWriteAll a vs s = some t) : t.still = s.still := by
  obtain ⟨m, -, rfl⟩ := memWriteAll_eq_some.1 h
  rfl

theorem scatterRow_still {row : List Byte} {s t : State} (h : scatterRow row s = some t) :
    t.still = s.still := by
  obtain ⟨m, rfl⟩ := scatterRow_mem h
  rfl

theorem emit_still {v : Byte} {s t : State} (h : emit v s = some t) : t.still = s.still := by
  unfold emit at h
  split at h
  · obtain ⟨u, hu, rfl⟩ := Option.map_eq_some_iff.1 h
    obtain ⟨-, rfl⟩ := memWrite_eq_some.1 hu
    rfl
  · obtain rfl := Option.some.inj h
    rfl

theorem emitAll_still {vs : List Byte} {s t : State} (h : emitAll vs s = some t) :
    t.still = s.still :=
  each_keeps (P := fun u => u.still = s.still) (fun _ _ _ hu hv => (emit_still hv).trans hu) vs
    rfl h

theorem putPixel_still {v : Byte} {s t : State} (h : putPixel v s = some t) :
    t.still = s.still := by
  obtain ⟨u, hu, rfl⟩ := Option.map_eq_some_iff.1 h
  split at hu
  · obtain ⟨w, hw, rfl⟩ := Option.map_eq_some_iff.1 hu
    obtain ⟨-, rfl⟩ := memWrite_eq_some.1 hw
    rfl
  · obtain rfl := Option.some.inj hu
    rfl

theorem putPixels_still {vs : List Byte} {s t : State} (h : putPixels vs s = some t) :
    t.still = s.still :=
  each_keeps (P := fun u => u.still = s.still) (fun _ _ _ hu hv => (putPixel_still hv).trans hu) vs
    rfl h

theorem learn_still (kind : LzwKind) (sfx : Byte) (code : BitVec 12) (s : State) :
    (learn kind sfx code s).still = learn kind sfx code s.still := by
  simp only [learn_eq_learntDict]
  rfl

/-! ### The line buffers and the LZW registers -/

/-- The first `n` bytes of PRIOR become 0 (40_command.md R137, 45_adam7.md R302). -/
def zeroPrior (n : Nat) (s : State) : State :=
  { s with prior := overlay (List.replicate n 0) s.prior }

/-- What START and the elements do to the line buffers and the LZW registers: `v` is `s` with them
written. Rows are DEFILTER's and ADAM7's and no longer than RB; a code learnt has the class its
context gives it. -/
inductive BuffersAfter (s : State) : State → Prop
  | same : BuffersAfter s s
  | row {v : State} (row : List Byte) (h : BuffersAfter s v) (hop : s.op.toNat = 0 ∨ s.op.toNat = 1)
      (hlen : row.length ≤ s.rb) : BuffersAfter s (keepRow row v)
  | zeros {v : State} (n : Nat) (h : BuffersAfter s v) (hop : s.op.toNat = 0 ∨ s.op.toNat = 1)
      (hn : n ≤ s.rb) : BuffersAfter s (zeroPrior n v)
  | cleared (kind : LzwKind) (hop : s.op.toNat = (lzwOp kind).toNat) :
      BuffersAfter s (lzwReset (s.lzwMinOf kind) s)
  | learnt (kind : LzwKind) {cls : LzwClass} {code : Nat} (sfx : Byte)
      (hop : s.op.toNat = (lzwOp kind).toNat) (hfits : code < 2 ^ s.w.toNat)
      (hcls : cls = .root ∨ cls = .dict ∨ cls = .kwkwk)
      (hcode : cls.holds (s.lzwMinOf kind) s.next.toNat s.prev.isSome code) :
      BuffersAfter s (learn kind sfx (BitVec.ofNat 12 code) s)

/-- A pass row is no longer than a row (45_adam7.md R301). -/
theorem passRowBytes_le_rb (s : State) (p : Nat) : s.passRowBytes p ≤ s.rb := by
  obtain ⟨hdx, -⟩ := passGeometry_pos p
  have hw : s.passW p ≤ s.W := by
    have hmul : s.W ≤ (passGeometry p).dx * s.W := Nat.le_mul_of_pos_left _ hdx
    refine Nat.le_of_lt_succ (Nat.div_lt_of_lt_mul ?_)
    rw [Nat.mul_succ]
    omega
  have hbits : s.passW p * s.nc * s.bd ≤ s.W * s.nc * s.bd :=
    Nat.mul_le_mul_right _ (Nat.mul_le_mul_right _ hw)
  unfold State.passRowBytes State.rb divCeil
  omega

/-- A pass entered zeroes the first bytes of PRIOR and moves the pass and the row (45_adam7.md R302). -/
theorem enterPass_still (q : Nat) {u v : State} (h : u.still = v.still) :
    (enterPass q u).still = (zeroPrior (v.passRowBytes q) v).still :=
  (congrArg (fun w => (zeroPrior (w.passRowBytes q) w).still) h :)

/-! ### The end of an element's step -/

/-- What the step of an element of `n` bits leaves of `s`. -/
inductive StepEnd (n : Nat) (s : State) : State → Prop
  | fault (code : FaultCode) (info : Word) : StepEnd n s (raiseInStep code info s)
  | eoi : StepEnd n s (complete (noteShort (advance n s)))
  | ended (e : Bool) {u v : State} (hv : BuffersAfter (advance n s) v) (hu : u.still = v.still) :
      StepEnd n s (finish e u)

theorem runPixels_stepEnd {n : Nat} {pixels : List Byte} {s t : State}
    (h : runPixels n pixels s = .next t) : StepEnd (8 * n) s t := by
  obtain ⟨u, hu, rfl⟩ := Option.map_eq_some_iff.1 (orFault_next.1 h)
  exact .ended false .same (putPixels_still hu)

theorem runPacket_stepEnd {n : Nat} {bytes : List Byte} {cut : Bool} {s t : State}
    (h : runPacket n bytes cut s = .next t) : StepEnd (8 * n) s t := by
  obtain ⟨u, hu, rfl⟩ := Option.map_eq_some_iff.1 (orFault_next.1 h)
  refine .ended _ .same (Eq.trans ?_ (emitAll_still hu))
  cases cut <;> rfl

theorem unpackRow_stepEnd {sample : Nat → Byte} {row : List Byte} {s t : State}
    (h : unpackRow sample row s = .next t) : StepEnd (8 * row.length) s t := by
  obtain ⟨u, hu, rfl⟩ := Option.map_eq_some_iff.1 (orFault_next.1 h)
  have hstill := memWriteAll_still hu
  exact .ended _ .same hstill

/-- HPRED reads no input. -/
theorem execHpredRow_stepEnd {s t : State} (h : execHpredRow s = .next t) : StepEnd 0 s t := by
  obtain ⟨row, -, hrow⟩ := Option.bind_eq_some_iff.1 (orFault_next.1 h)
  obtain ⟨u, hu, rfl⟩ := Option.map_eq_some_iff.1 hrow
  have hzero : advance 0 s = s := by simp [advance]
  have hstill := memWriteAll_still hu
  exact .ended _ .same (by rw [hzero]; exact hstill)

/-- A row of DEFILTER or ADAM7, its raw bytes no more than RB. -/
theorem pngRow_stepEnd {f : PngFilter} {raw : List Byte} {s t : State}
    (hop : s.op.toNat = 0 ∨ s.op.toNat = 1) (hlen : raw.length ≤ s.rb)
    (h : pngRow f raw s = .next t) : StepEnd (8 * (1 + raw.length)) s t := by
  have hrow := orFault_next.1 h
  have hfiltered := (defilterRow_spec (f := f) (prior := s.prior) (raw := raw)
    (bppb := s.bppb) (Nat.le_max_left 1 _)).1
  have hkept : BuffersAfter (advance (8 * (1 + raw.length)) s)
      (keepRow (defilterRow f s.bppb s.prior raw) (advance (8 * (1 + raw.length)) s)) :=
    .row _ .same hop (by rwa [hfiltered])
  split at hrow
  · obtain ⟨u, hu, rfl⟩ := Option.map_eq_some_iff.1 hrow
    obtain ⟨m, rfl⟩ := scatterRow_mem hu
    unfold finishPass
    split
    · split
      · exact .ended false (.zeros _ hkept hop (passRowBytes_le_rb _ _)) (enterPass_still _ rfl)
      · exact .ended true hkept rfl
    · exact .ended false hkept rfl
  · obtain ⟨u, hu, rfl⟩ := Option.map_eq_some_iff.1 hrow
    have hstill := memWriteAll_still hu
    exact .ended _ hkept hstill

/-- A code that emits a string. -/
theorem runCode_stepEnd {kind : LzwKind} {cls : LzwClass} {code : Nat} {string : List Byte}
    {s t : State} (hop : s.op.toNat = (lzwOp kind).toNat) (hfits : code < 2 ^ s.w.toNat)
    (hcls : cls = .root ∨ cls = .dict ∨ cls = .kwkwk)
    (hcode : cls.holds (s.lzwMinOf kind) s.next.toNat s.prev.isSome code)
    (h : runCode kind string (BitVec.ofNat 12 code) s = .next t) : StepEnd s.w.toNat s t := by
  obtain ⟨u, hu, rfl⟩ := Option.map_eq_some_iff.1 (orFault_next.1 h)
  refine .ended _ (.learnt (s := advance s.w.toNat s) kind (string.headD 0) hop hfits hcls
    (by cases kind <;> exact hcode)) ?_
  rw [learn_still, emitAll_still hu, ← learn_still]

/-- An LZW code of the class its context gives it. -/
theorem lzwInstr_stepEnd {kind : LzwKind} {code : Nat} {s t : State}
    (hop : s.op.toNat = (lzwOp kind).toNat) (hfits : code < 2 ^ s.w.toNat)
    (h : exec (lzwInstr kind (lzwClass (s.lzwMinOf kind) s.next.toNat s.prev.isSome code)
      (BitVec.ofNat 12 code)) s = .next t) : StepEnd s.w.toNat s t := by
  have hcode := lzwClass_holds (s.lzwMinOf kind) s.next.toNat s.prev.isSome code
  generalize lzwClass (s.lzwMinOf kind) s.next.toNat s.prev.isSome code = cls at *
  cases cls with
  | root | dict | kwkwk =>
    cases kind <;> exact runCode_stepEnd hop hfits (by simp) hcode h
  | clear =>
    have hcleared : t = finishFull (lzwReset (s.lzwMinOf kind) (advance s.w.toNat s)) := by
      cases kind <;> exact (Host.Outcome.next.inj h).symm
    rw [hcleared]
    exact .ended _ (by cases kind <;> exact .cleared (s := advance s.w.toNat s) _ hop) rfl
  | eoi =>
    have heoi : t = complete (noteShort (advance s.w.toNat s)) := by
      cases kind <;> exact (Host.Outcome.next.inj h).symm
    exact heoi ▸ .eoi
  | invalid =>
    obtain ⟨info, hraise⟩ : ∃ info, t = raiseInStep .lzwCode info s := by
      cases kind <;> exact ⟨_, (Host.Outcome.next.inj h).symm⟩
    exact hraise ▸ .fault _ _

/-- An RLE8 or RLE4 element. -/
theorem rleElement_stepEnd {f : RleFormat} (hf : f = rle8Format ∨ f = rle4Format) {p : List Byte}
    {i : Instr} {s t : State} (helem : RleElement f p i) (h : exec i s = .next t) :
    StepEnd (8 * p.length) s t := by
  cases helem with
  | enc v hn => obtain rfl | rfl := hf <;> exact runPixels_stepEnd h
  | eol | delta dx dy =>
    obtain rfl | rfl := hf <;>
    · obtain rfl := Host.Outcome.next.inj h
      exact .ended false .same rfl
  | eob =>
    obtain rfl | rfl := hf <;>
    · obtain rfl := Host.Outcome.next.inj h
      exact .ended true .same rfl
  | @abs n d hn hd =>
    have hlen : (0 :: n :: d).length = 2 + f.dataBytes n + f.dataBytes n % 2 := by
      simp only [List.length_cons, hd]
      omega
    rw [hlen]
    obtain rfl | rfl := hf <;> exact runPixels_stepEnd h

/-- A PNG element of at most RB data bytes. -/
theorem pngElement_stepEnd {len : Nat} {p : List Byte} {i : Instr} {s t : State}
    (hop : s.op.toNat = 0 ∨ s.op.toNat = 1) (hlen : len ≤ s.rb) (helem : Element (.png len) p i)
    (h : exec i s = .next t) : StepEnd (8 * p.length) s t := by
  cases helem with
  | @png f raw hf =>
    obtain ⟨filter, hexec⟩ := exec_pngInstr hf raw s
    rw [List.length_cons, Nat.add_comm]
    exact pngRow_stepEnd hop hlen (hexec ▸ h)
  | pngIllegal =>
    obtain rfl := Host.Outcome.next.inj h
    exact .fault _ _

/-- An UNPACK row of any sample width. -/
theorem unpackElement_stepEnd {bd stride : Nat} {p : List Byte} {i : Instr} {s t : State}
    (helem : Element (.unpack bd stride) p i) (h : exec i s = .next t) :
    StepEnd (8 * p.length) s t := by
  cases helem with
  | unpackSub8 | unpack16 | unpack32 => exact unpackRow_stepEnd h

/-- An element of whole bytes is as many bits (R104). -/
theorem encodedBits_bytes {c : Ctx} {p : List Byte} {i : Instr} (helem : Element c p i)
    (hc : ∀ kind min w next hasPrev bit, c ≠ .lzw kind min w next hasPrev bit) :
    encodedBits c i = 8 * p.length := by
  rw [helem.length_eq]
  cases c with
  | lzw kind min w next hasPrev bit => exact (hc kind min w next hasPrev bit rfl).elim
  | _ => rfl

/-- An element of the running operation, in each of the nine operations, leaves what `StepEnd` says
of its encoding's bits. -/
theorem element_stepEnd {s t : State} {c : Ctx} {p : List Byte} {i : Instr} (hc : s.ctx = some c)
    (helem : Element c p i) (h : exec i s = .next t) : StepEnd (encodedBits c i) s t := by
  unfold State.ctx at hc
  split at hc <;> rename_i hop
  case h_3 =>
    obtain rfl := Option.some.inj hc
    cases helem with
    | lzw _ _ _ hp hcode =>
      exact lzwInstr_stepEnd (kind := .gif) hop (hcode ▸ readCode_lt ..) h
  case h_4 =>
    obtain rfl := Option.some.inj hc
    cases helem with
    | lzw _ _ _ hp hcode =>
      exact lzwInstr_stepEnd (kind := .tiff) hop (hcode ▸ readCode_lt ..) h
  case h_10 => cases hc
  all_goals
    obtain rfl := Option.some.inj hc
    rw [encodedBits_bytes helem nofun]
  · exact pngElement_stepEnd (.inl hop) le_rfl helem h
  · exact pngElement_stepEnd (.inr hop) (passRowBytes_le_rb _ _) helem h
  · cases helem with
    | rle8 helem => exact rleElement_stepEnd (.inl rfl) helem h
  · cases helem with
    | rle4 helem => exact rleElement_stepEnd (.inr rfl) helem h
  · cases helem with
    | @pbLit _ _ data hh hd =>
      rw [List.length_cons, Nat.add_comm]
      exact runPacket_stepEnd h
    | pbRep => exact runPacket_stepEnd h
    | pbNop =>
      obtain rfl := Host.Outcome.next.inj h
      exact .ended _ .same rfl
  · exact unpackElement_stepEnd helem h
  · cases helem with
    | hpred => exact execHpredRow_stepEnd h

/-- What an engine step leaves: a fault that reads nothing, or what the element at BP does. -/
theorem engineStep_stepEnd {s t : State} (h : engineStep s = .next t) :
    StepEnd 0 s t ∨ ∃ c p rest i, s.ctx = some c ∧ s.input = p ++ rest ∧ Element c p i ∧
      StepEnd (encodedBits c i) s t := by
  obtain ⟨-, rfl⟩ | ⟨-, -, ⟨-, rfl⟩ | ⟨i, hf, hi⟩⟩ := engineStep_next h
  · exact .inl (.fault _ _)
  · exact .inl (.fault _ _)
  · obtain ⟨c, hc⟩ : ∃ c, s.ctx = some c := by
      cases hctx : s.ctx with
      | none => simp [fetch, hctx] at hf
      | some c => exact ⟨c, rfl⟩
    rw [fetch_eq_decode hc] at hf
    obtain ⟨p, rest, hinput, helem⟩ := decode_eq_instr_iff.1 hf
    exact .inr ⟨c, p, rest, i, hc, hinput, helem, element_stepEnd hc helem hi⟩

end Sys2Proof.Machine

/-! PROOFS. The invariant over an engine step (10_state.md R21 to R48): the memory's range, the
buffers, the status bits, the boundary last shown and the LZW registers, each from what an element
leaves. -/

namespace Sys2Proof.Machine

open Sys2Proof.Claims

/-! ### The memory's range (20_memory.md R60) -/

/-- A listed key reads as its value, which is not the default. -/
theorem sparseRead_of_mem {α : Type} [DecidableEq α] {d : α} {m : List (Nat × α)}
    (h : sparseWf d m = true) {c : Nat × α} (hc : c ∈ m) :
    sparseRead d m c.1 = c.2 ∧ c.2 ≠ d := by
  induction m with
  | nil => cases hc
  | cons e m ih =>
    obtain ⟨b, u⟩ := e
    obtain ⟨hu, hlt, hm⟩ := (sparseWf_cons b u m).1 h
    obtain rfl | hc := List.mem_cons.1 hc
    · exact ⟨if_pos rfl, hu⟩
    · rw [sparseRead, if_neg (hlt c hc).ne']
      exact ih hm hc

/-- A key that is not listed reads as the default. -/
theorem sparseRead_of_not_mem {α : Type} {d : α} {m : List (Nat × α)} {a : Nat}
    (h : ∀ c ∈ m, c.1 ≠ a) : sparseRead d m a = d := by
  induction m with
  | nil => rfl
  | cons e m ih =>
    rw [sparseRead, if_neg fun he => h e List.mem_cons_self he.symm]
    exact ih fun c hc => h c (List.mem_cons_of_mem e hc)

/-- A canonical memory lists only addresses that exist where every other address reads 0. -/
theorem Memory.within_iff {size : Nat} {m : Memory} (h : m.wf = true) :
    m.within size = true ↔ ∀ a, size ≤ a → m.read a = unlistedByte := by
  simp only [Memory.within, List.all_eq_true, decide_eq_true_eq]
  constructor
  · intro hin a ha
    exact sparseRead_of_not_mem fun c hc he => absurd (hin c hc) (by omega)
  · intro hread c hc
    obtain ⟨hget, hne⟩ := sparseRead_of_mem h hc
    by_contra hout
    exact hne (hget.symm.trans (hread c.1 (not_lt.1 hout)))

theorem memoryOk_iff {s : State} :
    memoryOk s = true ↔ s.mem.wf = true ∧ s.mem.within s.params.memSize = true := by
  simp [memoryOk]

/-- A step that writes only the output window keeps the memory in range where the window exists. -/
theorem memoryOk_of_withinWindow {s t : State} (hs : memoryOk s = true)
    (hfit : s.dstAddr.toNat + s.outSize ≤ s.params.memSize) (h : withinWindow s t) :
    memoryOk t = true := by
  obtain ⟨hsetup, hwf, hsame⟩ := h
  obtain ⟨hwfs, hin⟩ := memoryOk_iff.1 hs
  have hparams : t.params = s.params := congrArg Setup.params hsetup
  refine memoryOk_iff.2 ⟨hwf, (Memory.within_iff hwf).2 fun a ha => ?_⟩
  rw [hparams] at ha
  rw [hsame a (.inr (hfit.trans ha))]
  exact (Memory.within_iff hwfs).1 hin a ha

/-! ### What only the end of a step writes -/

/-- `s` with what elements write before the completion test put to 0: the control, status and
operand registers are left, and what belongs to the host. -/
def State.frame (s : State) : State :=
  { s.still with bp := 0, w := 0, next := 0, prev := none, prior := [], cur := [], dict := [] }

theorem BuffersAfter.frame_eq {s v : State} (h : BuffersAfter s v) : v.frame = s.frame := by
  induction h with
  | same => rfl
  | row _ _ _ _ ih | zeros _ _ _ _ ih => exact ih
  | cleared => rfl
  | learnt =>
    rw [learn_eq_learntDict]
    rfl

/-- Until the completion test an element leaves the frame as it was. -/
theorem frame_of_still {n : Nat} {s u v : State} (hv : BuffersAfter (advance n s) v)
    (hu : u.still = v.still) : u.frame = s.frame :=
  (congrArg State.frame hu :).trans hv.frame_eq

/-! ### The status bits (10_state.md R25; 40_command.md R134, R136) -/

theorem statusOk_of_idle {s : State} (hidle : s.phase = .idle) :
    statusOk s = true ↔ (s.done && s.fault) = false ∧ s.fmt &&& fmtMask = s.fmt := by
  simp only [statusOk, busy_of_idle hidle, Bool.and_eq_true, Bool.not_eq_true', decide_eq_true_eq,
    Bool.not_false, Bool.true_or, and_true]

theorem statusOk_of_run {s : State} (hrun : s.phase = .run) :
    statusOk s = true ↔ s.fmt &&& fmtMask = s.fmt ∧ s.done = false ∧ s.fault = false ∧
      s.short = false ∧ s.fcode = 0 := by
  simp only [statusOk, busy_of_run hrun, Bool.and_eq_true, Bool.not_eq_true', decide_eq_true_eq,
    Bool.not_true, Bool.false_or]
  grind

/-- A step of a run sets one of DONE and FAULT, or leaves the status bits as they were. -/
theorem StepEnd.statusOk {n : Nat} {s t : State} (h : StepEnd n s t) (hrun : s.phase = .run)
    (hs : statusOk s = true) : statusOk t = true := by
  obtain ⟨hfmt, hdone, hfault, -⟩ := (statusOk_of_run hrun).1 hs
  cases h with
  | fault => exact (statusOk_of_idle rfl).2 ⟨rfl, hfmt⟩
  | eoi => exact (statusOk_of_idle rfl).2 (by rw [noteShort_eq]; exact ⟨hfault, hfmt⟩)
  | @ended e u v hv hu =>
    have hframe := frame_of_still hv hu
    cases e with
    | true =>
      have hfault' : u.fault = s.fault := (congrArg State.fault hframe :)
      have hfmt' : u.fmt = s.fmt := (congrArg State.fmt hframe :)
      refine (statusOk_of_idle rfl).2 ⟨hfault'.trans hfault, ?_⟩
      exact hfmt'.symm ▸ hfmt
    | false => exact (congrArg Machine.statusOk hframe :).trans hs

/-! ### The boundary last shown (10_state.md R48) -/

/-- A step that lets the run go on shows the boundary it leaves. -/
theorem StepEnd.seenOk {n : Nat} {s t : State} (h : StepEnd n s t) (hrun : t.phase = .run) :
    seenOk t = true := by
  cases h with
  | fault | eoi => cases hrun
  | ended e =>
    cases e with
    | true => cases hrun
    | false => exact decide_eq_true rfl

/-! ### The line buffers and the dictionary's storage (10_state.md R40, R41) -/

theorem buffersOk_iff {s : State} : buffersOk s = true ↔
    s.prior.length ≤ s.params.maxRowBytes ∧ s.cur.length ≤ s.params.maxRowBytes ∧
      sparseWf emptyEntry s.dict = true ∧ ∀ c ∈ s.dict, c.1 < 4096 := by
  simp [buffersOk, and_assoc]

/-- A row and a buffer within a bound overlay to a buffer within it. -/
theorem overlay_length_le {row buffer : List Byte} {n : Nat} (hrow : row.length ≤ n)
    (hbuffer : buffer.length ≤ n) : (overlay row buffer).length ≤ n := by
  rw [overlay, List.length_append, List.length_drop]
  omega

/-- An entry is learnt below 4096 only (42_lzw.md R211). -/
theorem learntDict_ok {s : State} (sfx : Byte) (hwf : sparseWf emptyEntry s.dict = true)
    (hkeys : ∀ c ∈ s.dict, c.1 < 4096) :
    sparseWf emptyEntry (learntDict s sfx) = true ∧ ∀ c ∈ learntDict s sfx, c.1 < 4096 := by
  unfold learntDict
  split
  · exact ⟨hwf, hkeys⟩
  · split
    · refine ⟨sparseWf_write hwf _ _, fun c hc => ?_⟩
      obtain hkey | hmem := mem_sparseWrite hc
      · rwa [hkey]
      · exact hkeys c hmem
    · exact ⟨hwf, hkeys⟩

/-- START checked that a row of DEFILTER or ADAM7 fits its line buffers (40_command.md R135 check
7). -/
theorem rb_le_of_startFault {s : State} (h : startFault s = none)
    (hop : s.op.toNat = 0 ∨ s.op.toNat = 1) : s.rb ≤ s.params.maxRowBytes :=
  of_decide_eq_true (passes_of_startFault h
    (c := ⟨[0, 1], decide (s.rb ≤ s.params.maxRowBytes), 0x02, 7⟩) (by simp [checks]) (by simpa))

theorem BuffersAfter.buffersOk {s v : State} (h : BuffersAfter s v) (hchecked : startFault s = none)
    (hs : buffersOk s = true) : buffersOk v = true := by
  induction h with
  | same => exact hs
  | @row v row hv hop hlen ih =>
    have hparams : v.params = s.params := (congrArg State.params hv.frame_eq :)
    have hle : row.length ≤ v.params.maxRowBytes :=
      hlen.trans (hparams ▸ rb_le_of_startFault hchecked hop)
    obtain ⟨hprior, hcur, hdict⟩ := buffersOk_iff.1 ih
    exact buffersOk_iff.2 ⟨overlay_length_le hle hprior, overlay_length_le hle hcur, hdict⟩
  | @zeros v n hv hop hn ih =>
    have hparams : v.params = s.params := (congrArg State.params hv.frame_eq :)
    have hle : n ≤ v.params.maxRowBytes := hn.trans (hparams ▸ rb_le_of_startFault hchecked hop)
    obtain ⟨hprior, hcur, hdict⟩ := buffersOk_iff.1 ih
    exact buffersOk_iff.2
      ⟨overlay_length_le (by rwa [List.length_replicate]) hprior, hcur, hdict⟩
  | cleared => exact hs
  | learnt =>
    obtain ⟨hprior, hcur, hwf, hkeys⟩ := buffersOk_iff.1 hs
    rw [learn_eq_learntDict]
    exact buffersOk_iff.2 ⟨hprior, hcur, learntDict_ok _ hwf hkeys⟩

theorem buffersOk_finish (e : Bool) (s : State) : buffersOk (finish e s) = buffersOk s := by
  cases e <;> rfl

theorem StepEnd.buffersOk {n : Nat} {s t : State} (h : StepEnd n s t)
    (hchecked : startFault s = none) (hs : buffersOk s = true) : buffersOk t = true := by
  cases h with
  | fault => exact hs
  | eoi => rw [noteShort_eq]; exact hs
  | @ended e u v hv hu =>
    rw [buffersOk_finish]
    exact (congrArg Machine.buffersOk hu :).trans (hv.buffersOk hchecked hs)

/-! ### The LZW registers (10_state.md R41, R42) -/

/-- The registers `LzwOk` speaks of, all else as after reset. -/
def State.lzwPart (s : State) : State :=
  { State.reset with
    op := s.op, fmt := s.fmt, w := s.w, next := s.next, prev := s.prev, dict := s.dict }

theorem lzwOk_lzwPart {s : State} : LzwOk s.lzwPart ↔ LzwOk s :=
  ⟨fun ⟨hlow, hhigh, hnlow, hnhigh, hfits, hprev, hnone, hentry⟩ =>
    ⟨hlow, hhigh, hnlow, hnhigh, hfits, hprev, hnone, hentry⟩,
  fun ⟨hlow, hhigh, hnlow, hnhigh, hfits, hprev, hnone, hentry⟩ =>
    ⟨hlow, hhigh, hnlow, hnhigh, hfits, hprev, hnone, hentry⟩⟩

theorem LzwOk.of_lzwPart {s t : State} (h : LzwOk s) (heq : t.lzwPart = s.lzwPart) : LzwOk t :=
  lzwOk_lzwPart.1 (heq ▸ lzwOk_lzwPart.2 h)

theorem lzwKindOf_eq {s : State} {kind : LzwKind} (h : s.op.toNat = (lzwOp kind).toNat) :
    lzwKindOf s = kind := by
  cases kind <;> simp [lzwKindOf, h, lzwOp]

theorem clearOf_eq {s : State} {kind : LzwKind} (h : s.op.toNat = (lzwOp kind).toNat) :
    clearOf s = 2 ^ s.lzwMinOf kind := by
  rw [clearOf, lzwKindOf_eq h]

/-- MIN of a variant that runs is at least 2 (42_lzw.md R200; 40_command.md R135 check 6). -/
theorem le_lzwMinOf {s : State} (h : startFault s = none) {kind : LzwKind}
    (hop : s.op.toNat = (lzwOp kind).toNat) :
    2 ≤ s.lzwMinOf kind ∧ (kind = .tiff → 3 ≤ s.lzwMinOf kind) := by
  cases kind with
  | gif =>
    have hpass := passes_of_startFault h
      (c := ⟨[2], decide (2 ≤ s.lzwMin ∧ s.lzwMin ≤ 8), 0x02, 6⟩) (by simp [checks])
      (by simp [hop, lzwOp])
    exact ⟨(of_decide_eq_true hpass).1, nofun⟩
  | tiff => exact ⟨show 2 ≤ 8 by decide, fun _ => show 3 ≤ 8 by decide⟩

/-- The cleared state is in form (R201, R202). -/
theorem lzwReset_lzwOk {s : State} (h : startFault s = none) {kind : LzwKind}
    (hop : s.op.toNat = (lzwOp kind).toNat) : LzwOk (lzwReset (s.lzwMinOf kind) s) := by
  obtain ⟨hlow, htiff⟩ := le_lzwMinOf h hop
  have hhigh := lzwMinOf_le h hop
  have hclear : clearOf (lzwReset (s.lzwMinOf kind) s) = 2 ^ s.lzwMinOf kind :=
    clearOf_eq (s := s) hop
  have hkind : lzwKindOf (lzwReset (s.lzwMinOf kind) s) = kind := lzwKindOf_eq (s := s) hop
  have hpow : 2 ^ s.lzwMinOf kind ≤ 2 ^ 8 := Nat.pow_le_pow_right (by decide) hhigh
  have hw : (lzwReset (s.lzwMinOf kind) s).w.toNat = s.lzwMinOf kind + 1 := by
    rw [lzwReset_w, BitVec.toNat_ofNat]
    omega
  have hnext : (lzwReset (s.lzwMinOf kind) s).next.toNat = 2 ^ s.lzwMinOf kind + 2 := by
    rw [lzwReset_next, BitVec.toNat_ofNat]
    omega
  refine ⟨by omega, by omega, by omega, by omega, fun _ => ?_, nofun, fun _ => by omega,
    fun e _ _ => by omega⟩
  rw [hnext, hkind, hw, pow_succ]
  cases kind with
  | gif =>
    have hmin : 2 ^ 2 ≤ 2 ^ s.lzwMinOf .gif := Nat.pow_le_pow_right (by decide) hlow
    simp only [earlyBy]
    omega
  | tiff =>
    have hmin : 2 ^ 3 ≤ 2 ^ s.lzwMinOf .tiff := Nat.pow_le_pow_right (by decide) (htiff rfl)
    simp only [earlyBy]
    omega

/-- The code just run becomes prev where a rule may look it up. -/
theorem LzwOk.setPrev {s : State} (h : LzwOk s) {code : BitVec 12}
    (hcode : knownCode s code.toNat) : LzwOk { s with prev := some code } where
  width_low := h.width_low
  width_high := h.width_high
  next_low := h.next_low
  next_high := h.next_high
  next_fits := h.next_fits
  prev_known := fun _ hp => Option.some.inj hp ▸ hcode
  prev_none := nofun
  entry_known := h.entry_known

/-- The width after an entry is added is in range, and the new next code fits it (R205, R213). -/
theorem widthAfter_ok {s : State} (h : LzwOk s) {kind : LzwKind} (hkind : lzwKindOf s = kind) :
    3 ≤ (s.widthAfter kind).toNat ∧ (s.widthAfter kind).toNat ≤ 12 ∧
      ((s.widthAfter kind).toNat < 12 →
        s.next.toNat + 1 + earlyBy kind < 2 ^ (s.widthAfter kind).toNat) := by
  have hlow := h.width_low
  have hhigh := h.width_high
  have hfits := h.next_fits
  rw [hkind] at hfits
  unfold State.widthAfter
  split
  · rename_i hgrow
    have hw : (s.w + 1).toNat = s.w.toNat + 1 := by
      rw [BitVec.toNat_add, show (1 : BitVec 4).toNat = 1 from rfl]
      omega
    rw [hw, hgrow.1, pow_succ]
    omega
  · rename_i hstay
    refine ⟨hlow, hhigh, fun h12 => ?_⟩
    have hfits' := hfits h12
    omega

theorem next_succ_toNat {s : State} (hroom : s.next.toNat < 4096) :
    (s.next + 1).toNat = s.next.toNat + 1 := by
  rw [BitVec.toNat_add, show (1 : BitVec 13).toNat = 1 from rfl]
  omega

/-- A known code is below next (10_state.md R41). -/
theorem lt_next_of_known {s : State} (h : LzwOk s) {c : Nat} (hc : knownCode s c) :
    c < s.next.toNat := by
  have hnext := h.next_low
  unfold knownCode at hc
  omega

/-- An entry added at next is built from prev, which is known and below it (R203, R205, R213). -/
theorem addEntry_lzwOk {s : State} (h : LzwOk s) {kind : LzwKind}
    (hop : s.op.toNat = (lzwOp kind).toNat) (hwf : sparseWf emptyEntry s.dict = true)
    {prev : BitVec 12} (hprev : s.prev = some prev) (hroom : s.next.toNat < 4096) (sfx : Byte) :
    LzwOk (addEntry kind prev sfx s) := by
  have hknown := h.prev_known prev hprev
  have hnlow := h.next_low
  have hkind := lzwKindOf_eq hop
  obtain ⟨hlow, hhigh, hfits⟩ := widthAfter_ok h hkind
  obtain ⟨t, ht⟩ : ∃ t, t = addEntry kind prev sfx s := ⟨_, rfl⟩
  rw [← ht]
  rw [addEntry_room hroom] at ht
  have hnext : t.next.toNat = s.next.toNat + 1 := by rw [ht]; exact next_succ_toNat hroom
  have hw : t.w = s.widthAfter kind := by rw [ht]
  have htkind : lzwKindOf t = kind := by rw [ht]; exact hkind
  have hclear : clearOf t = clearOf s := by rw [ht]; rfl
  have hread : ∀ e, t.dict.read e = if e = s.next.toNat then ⟨prev, sfx⟩ else s.dict.read e :=
    fun e => by rw [ht]; exact Dict.read_write hwf _ _ _
  have htprev : t.prev = s.prev := by rw [ht]
  have hmono : ∀ c, knownCode s c → knownCode t c := fun c hc => by
    unfold knownCode at hc ⊢
    omega
  refine ⟨hw ▸ hlow, hw ▸ hhigh, by omega, by omega, ?_,
    fun p hp => hmono _ (h.prev_known p (htprev ▸ hp)),
    fun hnone => absurd (hprev.symm.trans (htprev.symm.trans hnone)) nofun, fun e he hlt => ?_⟩
  · rw [hw, htkind, hnext]
    exact hfits
  · rw [hread]
    split
    · rename_i heq
      exact ⟨hmono _ hknown, heq ▸ lt_next_of_known h hknown⟩
    · obtain ⟨hpfx, hltp⟩ := h.entry_known e (by omega) (by omega)
      exact ⟨hmono _ hpfx, hltp⟩

/-- A code of a class that emits is a root, an entry, or the entry about to be added (R99, R100). -/
theorem code_of_holds {min next code : Nat} {hasPrev : Bool} {cls : LzwClass}
    (hcls : cls = .root ∨ cls = .dict ∨ cls = .kwkwk) (h : cls.holds min next hasPrev code) :
    code < 2 ^ min ∨ (2 ^ min + 2 ≤ code ∧ code < next) ∨
      (code = next ∧ next < 4096 ∧ hasPrev = true) := by
  obtain rfl | rfl | rfl := hcls
  · simp only [LzwClass.holds, lzwRootOk, Bool.and_eq_true, decide_eq_true_eq] at h
    exact .inl h.1
  · simp only [LzwClass.holds, lzwDictOk, Bool.and_eq_true, decide_eq_true_eq] at h
    exact .inr (.inl ⟨h.1.2, h.2⟩)
  · simp only [LzwClass.holds, lzwKwkwkOk, Bool.and_eq_true, decide_eq_true_eq] at h
    exact .inr (.inr ⟨h.1.2, h.2, h.1.1.1.1⟩)

/-- After a code that emits, the LZW registers are in form (R204 to R207). -/
theorem learn_lzwOk {s : State} (h : LzwOk s) {kind : LzwKind}
    (hop : s.op.toNat = (lzwOp kind).toNat) (hwf : sparseWf emptyEntry s.dict = true)
    {cls : LzwClass} {code : Nat} (sfx : Byte) (hfits : code < 2 ^ s.w.toNat)
    (hcls : cls = .root ∨ cls = .dict ∨ cls = .kwkwk)
    (hcode : cls.holds (s.lzwMinOf kind) s.next.toNat s.prev.isSome code) :
    LzwOk (learn kind sfx (BitVec.ofNat 12 code) s) := by
  have hval : (BitVec.ofNat 12 code).toNat = code := by
    rw [BitVec.toNat_ofNat]
    exact Nat.mod_eq_of_lt (hfits.trans_le (Nat.pow_le_pow_right (by decide) h.width_high))
  have hclear := clearOf_eq hop
  have hclass := code_of_holds hcls hcode
  rw [← hclear] at hclass
  unfold learn
  cases hprev : s.prev with
  | none =>
    refine h.setPrev ?_
    rw [hval, knownCode]
    simp only [hprev, Option.isSome_none, Bool.false_eq_true, and_false, or_false] at hclass
    exact hclass
  | some p =>
    by_cases hroom : s.next.toNat < 4096
    · refine (addEntry_lzwOk h hop hwf hprev hroom sfx).setPrev ?_
      have hnlow := h.next_low
      have hnext : (addEntry kind p sfx s).next.toNat = s.next.toNat + 1 := by
        rw [addEntry_room hroom]
        exact next_succ_toNat hroom
      have hclear' : clearOf (addEntry kind p sfx s) = clearOf s := by
        rw [addEntry_room hroom]
        rfl
      rw [hval, knownCode, hclear', hnext]
      omega
    · simp only [addEntry_full hroom]
      refine h.setPrev ?_
      rw [hval, knownCode]
      omega

theorem BuffersAfter.lzwOk {s v : State} (h : BuffersAfter s v) (hchecked : startFault s = none)
    (hwf : sparseWf emptyEntry s.dict = true) (hs : LzwOk s) : LzwOk v := by
  induction h with
  | same => exact hs
  | row _ _ _ _ ih | zeros _ _ _ _ ih => exact ih.of_lzwPart rfl
  | cleared kind hop => exact lzwReset_lzwOk hchecked hop
  | learnt kind sfx hop hfits hcls hcode => exact learn_lzwOk hs hop hwf sfx hfits hcls hcode

theorem StepEnd.lzwOk {n : Nat} {s t : State} (h : StepEnd n s t) (hchecked : startFault s = none)
    (hwf : sparseWf emptyEntry s.dict = true) (hs : LzwOk s) (hrun : t.phase = .run) : LzwOk t := by
  cases h with
  | fault | eoi => cases hrun
  | @ended e u v hv hu =>
    have hadvance : LzwOk (advance n s) := hs.of_lzwPart rfl
    have hv' : LzwOk v := hv.lzwOk hchecked hwf hadvance
    cases e with
    | true => cases hrun
    | false => exact hv'.of_lzwPart (congrArg State.lzwPart hu :)

/-! ### The engine step -/

theorem Inv.running {s : State} (h : Inv s) (hrun : s.phase = .run) : Running s where
  runnable := Runnable.of_inv h (busy_of_run hrun)
  running := hrun
  width := fun hop => by
    obtain ⟨hlow, hhigh, -⟩ := h.lzw (busy_of_run hrun) hop
    omega

theorem phase_of_busy {s : State} (h : s.busy = true) : s.phase = .run := of_decide_eq_true h

/-- An engine step of a run in the invariant keeps it. -/
theorem engineStep_keepsInv {s t : State} (h : Inv s) (hrun : s.phase = .run)
    (ht : engineStep s = .next t) : Inv t := by
  have hbusy := busy_of_run hrun
  have hchecked := h.checked hbusy
  have hrunning := h.running hrun
  obtain ⟨u, hu, hwithin⟩ := engineStep_within hrunning.runnable
  obtain rfl := Host.Outcome.next.inj (ht.symm.trans hu)
  obtain ⟨u, hu, -, hends⟩ := engineStep_ends hrunning
  obtain rfl := Host.Outcome.next.inj (ht.symm.trans hu)
  obtain ⟨n, hend⟩ : ∃ n, StepEnd n s t := by
    obtain hend | ⟨c, p, rest, i, -, -, -, hend⟩ := engineStep_stepEnd ht
    · exact ⟨_, hend⟩
    · exact ⟨_, hend⟩
  obtain ⟨-, -, hwf, -⟩ := buffersOk_iff.1 h.buffers
  have hgoesOn : t.busy = true → Running t := fun hb => by
    obtain ⟨hidle, -⟩ | ⟨hon, -⟩ := hends
    · simp [busy_of_idle hidle] at hb
    · exact hon
  obtain ⟨hparams, -⟩ := setup_eq_iff.1 hwithin.1
  have hop : t.op = s.op := congrArg Setup.op hwithin.1
  exact {
    params := hparams ▸ h.params
    memory := memoryOk_of_withinWindow h.memory (checksPassed_of_startFault hchecked).output_exists
      hwithin
    buffers := hend.buffersOk hchecked h.buffers
    status := hend.statusOk hrun h.status
    checked := fun hb => (hgoesOn hb).runnable.checked
    progress := fun hb => (hgoesOn hb).runnable.progress
    seen := fun hb => hend.seenOk (phase_of_busy hb)
    lzw := fun hb hlzw =>
      hend.lzwOk hchecked hwf (h.lzw hbusy (hop ▸ hlzw)) (phase_of_busy hb) }

end Sys2Proof.Machine

/-! PROOFS. What a transition can do, the engine's and the host's (60_exceptions.md R340), and that
each keeps the invariant of the machine (10_state.md R21 to R48). -/

namespace Sys2Proof.Machine

open Sys2Proof.Claims

/-! ### Register writes (40_command.md R132) -/

theorem decode_ctrl_leBytes (v : Word) : decode .ctrl (leBytes v) = decodeCtrl v := by
  rw [decode, if_neg (by simp [leBytes]), wordOfLe_leBytes]

theorem decode_status_leBytes (v : Word) : decode .status (leBytes v) = decodeStatus v := by
  rw [decode, if_neg (by simp [leBytes]), wordOfLe_leBytes]

/-- A word written to CTRL: START where its bit is set, else its IRQ_EN, OP and ABORT (10_state.md
R24). -/
theorem registerWrite_ctrl_eq (v : Word) (s : State) : registerWrite 0x04 v s =
    if v.getLsbD 0 then startCommand (v.extractLsb' 4 4) (v.getLsbD 8) (v.getLsbD 1) s
    else .next (writeCtrl (v.getLsbD 8) (v.getLsbD 1) (v.extractLsb' 4 4) s) := by
  rw [registerWrite, if_pos rfl, decode_ctrl_leBytes, decodeCtrl_eq]
  split_ifs with hstart habort
  · exact exec_startInstr ..
  · rw [habort]
    rfl
  · rw [Bool.not_eq_true] at habort
    rw [habort]

/-- A word written to STATUS clears what its bits 1 and 2 name (10_state.md R25). -/
theorem registerWrite_status_eq (v : Word) (s : State) : registerWrite 0x08 v s =
    .next (acknowledge (v.getLsbD 1) (v.getLsbD 2) s) := by
  rw [registerWrite, if_neg (by decide), if_pos rfl, decode_status_leBytes, decodeStatus]
  by_cases hack : (v.getLsbD 1 || v.getLsbD 2) = true
  · rw [if_pos hack]
    rfl
  · rw [if_neg hack]
    rw [Bool.or_eq_true, not_or, Bool.not_eq_true, Bool.not_eq_true] at hack
    simp only [acknowledge, hack.1, hack.2, Bool.not_false, Bool.and_true]

/-- A word written to any other register (10_state.md R38, R39). -/
theorem registerWrite_operand_eq {off : Nat} (h4 : off ≠ 0x04) (h8 : off ≠ 0x08) (v : Word)
    (s : State) : registerWrite off v s = .next (if s.busy then s else writeOperand off v s) := by
  rw [registerWrite, if_neg h4, if_neg h8]
  split <;> rfl

/-! ### What the host's access can do -/

/-- A host access that answers next, by what it did: `t` is what it leaves of `s`. A START is named
with its bit, other accesses to CTRL and STATUS with their address. -/
inductive HostStep (s : State) : Access → State → Prop
  | reset : HostStep s .reset (platformReset s)
  | unchanged (acc : Access) : HostStep s acc s
  | readRegister (acc : Access) (off : Nat) : HostStep s acc (registerRead off s)
  | readByte (acc : Access) (host : List Queued) (returned : List Nat) :
      HostStep s acc { s with host := host, returned := returned, free := s.free + 1 }
  | writeByte (acc : Access) {a : Nat} (v : Byte) (host : List Queued) (ha : a < s.params.memSize) :
      HostStep s acc { s with mem := s.mem.write a v, host := host, free := s.free + 1 }
  | start {v : Nat} {op : BitVec 4} {irqEn abort : Bool} {t : State} (hv : v % 2 = 1)
      (h : startCommand op irqEn abort s = .next t) :
      HostStep s (.write (s.params.regBase + 4) 4 v) t
  | control (v : Nat) (op : BitVec 4) (irqEn abort : Bool) :
      HostStep s (.write (s.params.regBase + 4) 4 v) (writeCtrl irqEn abort op s)
  | status (v : Nat) (ackDone ackFault : Bool) :
      HostStep s (.write (s.params.regBase + 8) 4 v) (acknowledge ackDone ackFault s)
  | operand (acc : Access) (off : Nat) (v : Word) (hidle : s.phase = .idle) :
      HostStep s acc (writeOperand off v s)

theorem memoryRead_hostStep {acc : Access} {a size : Nat} {got : List Byte} {s t : State}
    (h : memoryRead a size got s = .next t) : HostStep s acc t := by
  obtain ⟨host, returned, rfl⟩ := memoryRead_next h
  exact .readByte acc host returned

theorem memoryWrite_hostStep {acc : Access} {a : Nat} {data : List Byte} {s t : State}
    (h : memoryWrite a data s = .next t) : HostStep s acc t := by
  obtain rfl | ⟨v, host, ha, -, rfl⟩ := memoryWrite_next h
  · exact .unchanged acc
  · exact .writeByte acc v host ha

theorem phase_of_not_busy {s : State} (h : ¬ s.busy = true) : s.phase = .idle := by
  cases hphase : s.phase with
  | idle => rfl
  | run => exact absurd (busy_of_run hphase) h

/-- Bit 0 of a word is the parity of the value written. -/
theorem getLsbD_zero_ofNat (v : Nat) : (BitVec.ofNat 32 v).getLsbD 0 = decide (v % 2 = 1) := by
  rw [BitVec.getLsbD_ofNat, Nat.testBit_zero]
  rfl

theorem registerWrite_hostStep {off v : Nat} {s t : State}
    (h : registerWrite off (BitVec.ofNat 32 v) s = .next t) :
    HostStep s (.write (s.params.regBase + off) 4 v) t := by
  by_cases h4 : off = 4
  · subst h4
    rw [registerWrite_ctrl_eq] at h
    split at h
    · rename_i hstart
      rw [getLsbD_zero_ofNat, decide_eq_true_eq] at hstart
      exact .start hstart h
    · obtain rfl := Host.Outcome.next.inj h
      exact .control ..
  · by_cases h8 : off = 8
    · subst h8
      rw [registerWrite_status_eq] at h
      obtain rfl := Host.Outcome.next.inj h
      exact .status ..
    · rw [registerWrite_operand_eq h4 h8] at h
      obtain rfl := Host.Outcome.next.inj h
      split
      · exact .unchanged _
      · rename_i hidle
        exact .operand _ off _ (phase_of_not_busy hidle)

theorem performAccess_hostStep {acc : Access} {s t : State} (h : performAccess acc s = .next t) :
    HostStep s acc t := by
  cases acc with
  | reset =>
    obtain rfl := Host.Outcome.next.inj h
    exact .reset
  | read addr size =>
    simp only [performAccess] at h
    split at h
    · obtain rfl := Host.Outcome.next.inj h
      exact .unchanged _
    · unfold hostRead at h
      split at h
      case h_1 =>
        obtain rfl := Host.Outcome.next.inj h
        exact .readRegister _ _
      case h_3 => exact memoryRead_hostStep h
      all_goals cases h
  | write addr size value =>
    simp only [performAccess] at h
    split at h
    · obtain rfl := Host.Outcome.next.inj h
      exact .unchanged _
    · unfold hostWrite at h
      split at h
      case h_1 off hregion =>
        obtain ⟨rfl, -, -, rfl⟩ := regionOf_eq_register hregion
        exact registerWrite_hostStep h
      case h_3 => exact memoryWrite_hostStep h
      all_goals cases h
  | readRest => exact memoryRead_hostStep h
  | writeRest => exact memoryWrite_hostStep h

/-- What a START that answers next can do: write CTRL in a run, fault, or begin a run. -/
theorem startCommand_cases {op : BitVec 4} {irqEn abort : Bool} {s t : State}
    (h : startCommand op irqEn abort s = .next t) :
    (s.phase = .run ∧ t = writeCtrl irqEn abort op s) ∨
    (s.phase = .idle ∧ ∃ code info, t = raiseAtStart code info (cleared op irqEn s)) ∨
    (s.phase = .idle ∧ startFault (cleared op irqEn s) = none ∧
      ∃ u, initialise { cleared op irqEn s with phase := .run } = some u ∧ t = openRun u) := by
  rw [startCommand] at h
  split at h
  · rename_i hbusy
    exact .inl ⟨phase_of_busy hbusy, (Host.Outcome.next.inj h).symm⟩
  · rename_i hbusy
    have hidle := phase_of_not_busy hbusy
    rw [clearForStart_writeCtrl hidle] at h
    dsimp only at h
    split at h
    · exact .inr (.inl ⟨hidle, _, _, (Host.Outcome.next.inj h).symm⟩)
    · rename_i hchecked
      obtain ⟨u, hu, rfl⟩ := Option.map_eq_some_iff.1 (orFault_next.1 h)
      exact .inr (.inr ⟨hidle, hchecked, u, hu, rfl⟩)

/-! ### What a step can do -/

/-- With the engine not to move, the access at the head of the queue is the host's. -/
theorem hostTurn_of_not_engineTurn {s : State} {q : Queued} {rest : List Queued}
    (h : engineTurn s = false) (hq : s.host = q :: rest) : hostTurn s q.access rest := by
  refine ⟨q.wait, hq, ?_⟩
  cases hphase : s.phase with
  | idle => exact .inl rfl
  | run => exact .inr (by simpa [engineTurn, hq, busy_of_run hphase] using h)

/-- A step that answers next is the engine's, nothing, or the host's access. -/
theorem step_cases {s t : State} (h : step s = .next t) :
    (engineTurn s = true ∧ engineStep (tick s) = .next t) ∨
    (engineTurn s = false ∧ t = s) ∨
    (engineTurn s = false ∧ ∃ acc rest, hostTurn s acc rest ∧
      HostStep { s with host := rest } acc t) := by
  cases hturn : engineTurn s with
  | true => exact .inl ⟨rfl, step_engine hturn ▸ h⟩
  | false =>
    cases hhost : s.host with
    | nil => exact .inr (.inl ⟨rfl, (Host.Outcome.next.inj (step_idle hturn hhost ▸ h)).symm⟩)
    | cons q rest =>
      rw [step_host hturn hhost] at h
      exact .inr (.inr ⟨rfl, q.access, rest, hostTurn_of_not_engineTurn hturn hhost,
        performAccess_hostStep h⟩)

theorem busy_of_engineTurn {s : State} (h : engineTurn s = true) : s.phase = .run :=
  phase_of_busy (Bool.and_eq_true_iff.1 h).1

/-! ### The invariant over the host's accesses -/

/-- An idle engine has only its storage and its status in the invariant. -/
theorem Inv.of_idle {t : State} (hidle : t.phase = .idle) (hparams : t.params.wf = true)
    (hmemory : memoryOk t = true) (hbuffers : buffersOk t = true) (hstatus : statusOk t = true) :
    Inv t where
  params := hparams
  memory := hmemory
  buffers := hbuffers
  status := hstatus
  checked := fun hb => absurd hb (by simp [busy_of_idle hidle])
  progress := fun hb => absurd hb (by simp [busy_of_idle hidle])
  seen := fun hb => absurd hb (by simp [busy_of_idle hidle])
  lzw := fun hb => absurd hb (by simp [busy_of_idle hidle])

/-- The queue, what reads returned, the counter of free values and CTRL's fields are not in the
invariant. -/
theorem Inv.withHost {s : State} (h : Inv s) (host : List Queued) (returned : List Nat) (free : Nat)
    (irqEn abortReq : Bool) (ctrlOp : BitVec 4) : Inv { s with
      host := host, returned := returned, free := free, irqEn := irqEn, abortReq := abortReq
      ctrlOp := ctrlOp } where
  params := h.params
  memory := h.memory
  buffers := h.buffers
  status := h.status
  checked := h.checked
  progress := h.progress
  seen := h.seen
  lzw := fun hb hop => (h.lzw hb hop).of_lzwPart rfl

theorem Inv.withMem {s : State} (h : Inv s) {m : Memory}
    (hm : memoryOk { s with mem := m } = true) : Inv { s with mem := m } where
  params := h.params
  memory := hm
  buffers := h.buffers
  status := h.status
  checked := h.checked
  progress := h.progress
  seen := h.seen
  lzw := fun hb hop => (h.lzw hb hop).of_lzwPart rfl

theorem Inv.withSeen {s : State} (h : Inv s) {seen : List Boundary}
    (hseen : s.busy = true → seen.head? = s.seen.head?) : Inv { s with seen := seen } where
  params := h.params
  memory := h.memory
  buffers := h.buffers
  status := h.status
  checked := h.checked
  progress := h.progress
  seen := fun hb => decide_eq_true ((hseen hb).trans (of_decide_eq_true (h.seen hb)))
  lzw := fun hb hop => (h.lzw hb hop).of_lzwPart rfl

theorem Inv.tick {s : State} (h : Inv s) : Inv (tick s) := by
  unfold Machine.tick
  split
  · exact h
  · exact h.withHost ..

/-- A reset leaves an idle machine with memory in range (70_reset_and_hazards.md R360, R361). -/
theorem platformReset_keepsInv {s : State} (h : Inv s) : Inv (platformReset s) := by
  obtain ⟨hwf, hin⟩ := memoryOk_iff.1 h.memory
  have hbuffers : ∀ p : Params, buffersOk { State.reset with params := p } = true := fun p =>
    buffersOk_iff.2 ⟨Nat.zero_le _, Nat.zero_le _, rfl, nofun⟩
  have hstatus : statusOk State.reset = true := by decide
  unfold platformReset
  split
  · obtain ⟨hwf', hin', -⟩ := scrambleOutput_spec hwf
    exact .of_idle rfl h.params (memoryOk_iff.2 ⟨hwf', hin' hin⟩) (hbuffers s.params) hstatus
  · exact .of_idle rfl h.params h.memory (hbuffers s.params) hstatus

/-- A read in a run keeps the newest boundaries, the first of them included (10_state.md R48). -/
theorem registerRead_keepsInv {s : State} (h : Inv s) (off : Nat) : Inv (registerRead off s) := by
  unfold registerRead
  split
  · exact (h.withSeen (seen := s.seen.take (seenIndex s + 1))
      fun _ => by rw [List.head?_take, if_neg (Nat.succ_ne_zero _)]).withHost ..
  · exact h.withHost ..

theorem writeCtrl_keepsInv {s : State} (h : Inv s) (irqEn abort : Bool) (op : BitVec 4) :
    Inv (writeCtrl irqEn abort op s) := by
  unfold writeCtrl
  split
  · exact h.withHost ..
  · exact h.withHost ..

/-- In a run ACK finds DONE and FAULT 0 already (40_command.md R136, R155). -/
theorem acknowledge_keepsInv {s : State} (h : Inv s) (ackDone ackFault : Bool) :
    Inv (acknowledge ackDone ackFault s) := by
  cases hphase : s.phase with
  | idle =>
    obtain ⟨hflags, hfmt⟩ := (statusOk_of_idle hphase).1 h.status
    refine .of_idle hphase h.params h.memory h.buffers ?_
    refine (statusOk_of_idle (s := acknowledge ackDone ackFault s) hphase).2 ⟨?_, hfmt⟩
    simp only [acknowledge, Bool.and_eq_false_iff] at hflags ⊢
    grind
  | run =>
    obtain ⟨-, hdone, hfault, -⟩ := (statusOk_of_run hphase).1 h.status
    have hsame : acknowledge ackDone ackFault s = s := by
      rw [acknowledge, show (s.done && !ackDone) = s.done by simp [hdone],
        show (s.fault && !ackFault) = s.fault by simp [hfault]]
    rwa [hsame]

/-- An operand register written while idle; FMT drops its reserved bits (10_state.md R30). -/
theorem writeOperand_keepsInv {s : State} (h : Inv s) (hidle : s.phase = .idle) (off : Nat)
    (v : Word) : Inv (writeOperand off v s) := by
  unfold writeOperand
  split
  case h_7 =>
    obtain ⟨hflags, -⟩ := (statusOk_of_idle hidle).1 h.status
    refine .of_idle hidle h.params h.memory h.buffers ?_
    refine (statusOk_of_idle (s := { s with fmt := v &&& fmtMask }) hidle).2 ⟨hflags, ?_⟩
    exact (BitVec.and_assoc ..).trans (congrArg (v &&& ·) BitVec.and_self)
  all_goals exact .of_idle hidle h.params h.memory h.buffers h.status

/-! ### The invariant over a START (40_command.md R134 to R137) -/

/-- The operations with WIDTH and HEIGHT have a pixel (R135 checks 2, 3). -/
theorem dims_pos {s : State} (h : startFault s = none)
    (hop : s.op.toNat ∈ [0, 1, 4, 5, 7, 8]) : 1 ≤ s.W ∧ 1 ≤ s.H := by
  have hwidth := passes_of_startFault h (c := ⟨[0, 1, 4, 5, 7, 8],
    decide (1 ≤ s.width.toNat ∧ s.width.toNat ≤ s.params.maxDim), 0x02, 2⟩) (by simp [checks]) hop
  have hheight := passes_of_startFault h (c := ⟨[0, 1, 4, 5, 7, 8],
    decide (1 ≤ s.height.toNat ∧ s.height.toNat ≤ s.params.maxDim), 0x02, 3⟩) (by simp [checks]) hop
  exact ⟨(of_decide_eq_true hwidth).1, (of_decide_eq_true hheight).1⟩

/-- The sequential operations have room (R135 check 8). -/
theorem outSize_pos {s : State} (h : startFault s = none) (hop : isSequential s.op.toNat = true) :
    0 < s.outSize := by
  have hlen := passes_of_startFault h (c := ⟨[2, 3, 6], decide (1 ≤ s.dstLen.toNat), 0x02, 8⟩)
    (by simp [checks]) (by simpa [isSequential, or_assoc] using hop)
  rw [outSize_sequential hop]
  exact of_decide_eq_true hlen

/-- What `initialise` does to the line buffers and the LZW registers (R137). -/
theorem initialise_buffersAfter {s t : State} (h : initialise s = some t) :
    ∃ v, BuffersAfter s v ∧ t.still = v.still := by
  unfold initialise at h
  split at h <;> rename_i hop
  case h_1 =>
    obtain rfl := Option.some.inj h
    exact ⟨_, .zeros s.rb .same (.inl hop) le_rfl, rfl⟩
  case h_2 =>
    obtain ⟨u, hu, rfl⟩ := Option.map_eq_some_iff.1 h
    obtain ⟨m, -, rfl⟩ := memWriteAll_eq_some.1 hu
    exact ⟨_, .zeros _ .same (.inr hop) (passRowBytes_le_rb s 1), rfl⟩
  case h_3 =>
    obtain rfl := Option.some.inj h
    exact ⟨_, .cleared .gif hop, rfl⟩
  case h_4 =>
    obtain rfl := Option.some.inj h
    exact ⟨_, .cleared .tiff hop, rfl⟩
  case h_5 | h_6 => exact ⟨_, .same, (memWriteAll_still h :)⟩
  all_goals
    obtain rfl := Option.some.inj h
    exact ⟨_, .same, rfl⟩

theorem zeroFill_memoryOk {s t : State} (hs : memoryOk s = true) (h : zeroFill s = some t) :
    memoryOk t = true := by
  obtain ⟨hwf, hin⟩ := memoryOk_iff.1 hs
  obtain ⟨m, hm, rfl⟩ := memWriteAll_eq_some.1 h
  obtain ⟨hwf', hin', -⟩ := Memory.storeAll_spec _ hwf hm
  exact memoryOk_iff.2 ⟨hwf', hin' hin⟩

theorem initialise_memoryOk {s t : State} (hs : memoryOk s = true) (h : initialise s = some t) :
    memoryOk t = true := by
  unfold initialise at h
  split at h
  case h_2 =>
    obtain ⟨u, hu, rfl⟩ := Option.map_eq_some_iff.1 h
    have hfilled := zeroFill_memoryOk hs hu
    exact hfilled
  case h_5 | h_6 => exact zeroFill_memoryOk (s := { s with x := 0, y := 0 }) hs h
  all_goals
    obtain rfl := Option.some.inj h
    exact hs

/-- The progress registers as START clears them (R134). -/
structure ProgressCleared (s : State) : Prop where
  bp : s.bp = 0
  out : s.out = 0
  x : s.x = 0
  y : s.y = 0
  r : s.r = 0

theorem ProgressCleared.cursorOk {s : State} (h : ProgressCleared s) : cursorOk s = true := by
  simp [Machine.cursorOk, h.bp]

/-- The first pass is not empty (45_adam7.md R301). -/
theorem firstPass_nonempty {s : State} (h : 1 ≤ s.W ∧ 1 ≤ s.H) : 0 < s.passW 1 ∧ 0 < s.passH 1 := by
  obtain ⟨hW, hH⟩ := h
  exact ⟨Nat.div_pos (by simp only [passGeometry]; omega) (by decide),
    Nat.div_pos (by simp only [passGeometry]; omega) (by decide)⟩

/-- A run begins with its progress in range. -/
theorem initialise_progressOk {s t : State} (hchecked : startFault s = none)
    (hs : ProgressCleared s) (h : initialise s = some t) : progressOk t = true := by
  have hcursor := hs.cursorOk
  unfold initialise at h
  split at h <;> rename_i hop
  case h_1 =>
    obtain rfl := Option.some.inj h
    have hdims := dims_pos hchecked (by simp [hop])
    refine (progressOk_row ?_).2 ⟨hcursor, hdims.2⟩
    exact .inl hop
  case h_2 =>
    obtain ⟨u, hu, rfl⟩ := Option.map_eq_some_iff.1 h
    obtain ⟨m, -, rfl⟩ := memWriteAll_eq_some.1 hu
    have hpass := firstPass_nonempty (dims_pos hchecked (by simp [hop]))
    refine (progressOk_adam7 ?_).2 ⟨hcursor, le_rfl, hpass.1, hpass.2⟩
    exact hop
  case h_3 | h_4 =>
    obtain rfl := Option.some.inj h
    have hroom := outSize_pos hchecked (by simp [isSequential, hop])
    refine (progressOk_lzw (by simp [hop])).2 ⟨?_, ?_⟩
    · simp [hs.bp]
    · simpa [hs.out] using hroom
  case h_5 | h_6 =>
    obtain ⟨m, -, rfl⟩ := memWriteAll_eq_some.1 h
    exact (progressOk_rle (by simp [hop])).2 ⟨hcursor, Nat.zero_le _, Nat.zero_le _⟩
  case h_7 =>
    obtain rfl := Option.some.inj h
    have hdims := dims_pos hchecked (by simp [hop])
    refine (progressOk_row ?_).2 ⟨hcursor, hdims.2⟩
    exact .inr hop
  case h_8 =>
    obtain rfl := Option.some.inj h
    have hdims := dims_pos hchecked (by simp [hop])
    refine (progressOk_hpred ?_).2 hdims.2
    exact hop
  case h_9 =>
    obtain rfl := Option.some.inj h
    have hle := (checksPassed_of_startFault hchecked).op_le
    have h6 : s.op.toNat = 6 := by grind
    refine (progressOk_packbits h6).2 ⟨hcursor, ?_⟩
    rw [hs.out]
    exact outSize_pos hchecked (by simp [isSequential, h6])

/-- LZW begins in the cleared state (42_lzw.md R201). -/
theorem initialise_lzwOk {s t : State} (hchecked : startFault s = none)
    (h : initialise s = some t) (hop : s.op.toNat = 2 ∨ s.op.toNat = 3) : LzwOk t := by
  obtain hop | hop := hop
  · rw [initialise_lzwGif (BitVec.eq_of_toNat_eq hop)] at h
    obtain rfl := Option.some.inj h
    exact lzwReset_lzwOk (kind := .gif) hchecked hop
  · rw [initialise_lzwTiff (BitVec.eq_of_toNat_eq hop)] at h
    obtain rfl := Option.some.inj h
    exact lzwReset_lzwOk (kind := .tiff) hchecked hop

/-- A run begun from storage and flags in form, progress cleared and START's checks passed is in the
invariant. -/
theorem openRun_inv {s t : State} (hparams : s.params.wf = true) (hmemory : memoryOk s = true)
    (hbuffers : buffersOk s = true) (hstatus : statusOk s = true) (hchecked : startFault s = none)
    (hcleared : ProgressCleared s) (h : initialise s = some t) : Inv (openRun t) := by
  obtain ⟨v, hv, hstill⟩ := initialise_buffersAfter h
  have hframe : t.frame = s.frame := (congrArg State.frame hstill :).trans hv.frame_eq
  have hsetup := initialise_setup h
  have hop : t.op = s.op := congrArg Setup.op hsetup
  have hmemory' := initialise_memoryOk hmemory h
  have hprogress := initialise_progressOk hchecked hcleared h
  exact {
    params := (congrArg (fun u => u.params.wf) hsetup :).trans hparams
    memory := hmemory'
    buffers := (congrArg buffersOk hstill :).trans (hv.buffersOk hchecked hbuffers)
    status := (congrArg statusOk hframe :).trans hstatus
    checked := fun _ => (startFault_of_setup hsetup).trans hchecked
    progress := fun _ => hprogress
    seen := fun _ => decide_eq_true rfl
    lzw := fun _ hlzw => (initialise_lzwOk hchecked h (hop ▸ hlzw)).of_lzwPart rfl }

/-- The reserved bits of FMT are 0 in every state of the invariant (10_state.md R30). -/
theorem Inv.fmt_masked {s : State} (h : Inv s) : s.fmt &&& fmtMask = s.fmt := by
  have hstatus := h.status
  simp only [statusOk, Bool.and_eq_true, decide_eq_true_eq] at hstatus
  exact hstatus.1.2

/-- START leaves the invariant, whichever way it goes. -/
theorem startCommand_keepsInv {op : BitVec 4} {irqEn abort : Bool} {s t : State} (h : Inv s)
    (ht : startCommand op irqEn abort s = .next t) : Inv t := by
  obtain ⟨-, rfl⟩ | ⟨-, code, info, rfl⟩ | ⟨-, hchecked, u, hu, rfl⟩ := startCommand_cases ht
  · exact writeCtrl_keepsInv h ..
  · exact .of_idle rfl h.params h.memory h.buffers ((statusOk_of_idle rfl).2 ⟨rfl, h.fmt_masked⟩)
  · exact openRun_inv (s := { cleared op irqEn s with phase := .run }) h.params h.memory h.buffers
      ((statusOk_of_run rfl).2 ⟨h.fmt_masked, rfl, rfl, rfl, rfl⟩) hchecked
      ⟨rfl, rfl, rfl, rfl, rfl⟩ hu

/-! ### The invariant over every step -/

theorem HostStep.keepsInv {s t : State} {acc : Access} (h : HostStep s acc t) (hs : Inv s) :
    Inv t := by
  cases h with
  | reset => exact platformReset_keepsInv hs
  | unchanged => exact hs
  | readRegister _ off => exact registerRead_keepsInv hs off
  | readByte => exact hs.withHost ..
  | @writeByte _ a v host ha =>
    obtain ⟨hwf, hin⟩ := memoryOk_iff.1 hs.memory
    have hmemory : memoryOk { s with mem := s.mem.write a v } = true :=
      memoryOk_iff.2 ⟨Memory.wf_write hwf a v, Memory.within_write hin ha v⟩
    exact (hs.withMem hmemory).withHost ..
  | start _ hstart => exact startCommand_keepsInv hs hstart
  | control => exact writeCtrl_keepsInv hs ..
  | status => exact acknowledge_keepsInv hs ..
  | operand _ off v hidle => exact writeOperand_keepsInv hs hidle off v

/-- Settles O54: what an element, START and each access of the host leave is in the invariant. -/
theorem stepKeepsInv : Obligations.StepKeepsInv := by
  intro s t hs hstep
  obtain ⟨hturn, ht⟩ | ⟨-, rfl⟩ | ⟨-, acc, rest, -, hhost⟩ := step_cases hstep
  · exact engineStep_keepsInv hs.tick ((tick_phase s).trans (busy_of_engineTurn hturn)) ht
  · exact hs
  · exact hhost.keepsInv (hs.withHost rest ..)

/-- Settles O53: the reset state is idle, its storage empty and its flags clear. -/
theorem invHoldsAtReset : Obligations.InvHoldsAtReset :=
  .of_idle rfl (by decide) (by decide) (by decide) (by decide)

end Sys2Proof.Machine

/-! PROOFS. The interrupt (60_exceptions.md R330, 70_reset_and_hazards.md R374), what an idle engine
can do (R327, R347) and the input cursor (10_state.md R21, 40_command.md R144), each over what a
transition can do. -/

namespace Sys2Proof.Machine

open Sys2Proof.Claims

/-! ### The interrupt (10_state.md R46) -/

theorem irq_eq_true_iff {s : State} :
    irq s = true ↔ s.irqEn = true ∧ (s.done = true ∨ s.fault = true) := by
  simp [irq]

/-- No element lowers the interrupt. -/
theorem StepEnd.irq {n : Nat} {s t : State} (h : StepEnd n s t) (hs : irq s = true) :
    irq t = true := by
  obtain ⟨hen, hcause⟩ := irq_eq_true_iff.1 hs
  cases h with
  | fault => exact irq_eq_true_iff.2 ⟨hen, .inr rfl⟩
  | eoi => exact irq_eq_true_iff.2 ⟨by simp [noteShort_eq, hen], .inl rfl⟩
  | @ended e u v hv hu =>
    have hframe := frame_of_still hv hu
    have hen' : u.irqEn = true := (congrArg State.irqEn hframe :).trans hen
    cases e with
    | true => exact irq_eq_true_iff.2 ⟨hen', .inl rfl⟩
    | false => exact (congrArg Machine.irq hframe :).trans hs

theorem registerRead_irq (off : Nat) (s : State) : irq (registerRead off s) = irq s := by
  unfold registerRead
  split <;> rfl

theorem writeOperand_irq (off : Nat) (v : Word) (s : State) :
    irq (writeOperand off v s) = irq s := by
  unfold writeOperand
  split <;> rfl

/-- The accesses that may lower the interrupt (R374). -/
theorem HostStep.irq {s t : State} {acc : Access} (h : HostStep s acc t) (hs : irq s = true)
    (ht : irq t = false) : acc = .reset ∨ (∃ v, acc = .write (s.params.regBase + 4) 4 v) ∨
      ∃ v, acc = .write (s.params.regBase + 8) 4 v := by
  cases h with
  | reset => exact .inl rfl
  | start | control => exact .inr (.inl ⟨_, rfl⟩)
  | status => exact .inr (.inr ⟨_, rfl⟩)
  | unchanged | readByte | writeByte => exact absurd (hs.symm.trans ht) nofun
  | readRegister => exact absurd ((hs.symm.trans (registerRead_irq ..).symm).trans ht) nofun
  | operand => exact absurd ((hs.symm.trans (writeOperand_irq ..).symm).trans ht) nofun

/-- Settles O52: no element lowers the interrupt, and of the host's accesses only those three. -/
theorem interruptStaysPending : Obligations.InterruptStaysPending := by
  refine ⟨fun s => irq_eq_true_iff, fun s t hstep hs ht => ?_⟩
  obtain ⟨-, hengine⟩ | ⟨-, rfl⟩ | ⟨hturn, acc, rest, hhost, hacc⟩ := step_cases hstep
  · have htick : irq (tick s) = true := by simpa [irq] using hs
    have hpending : irq t = true := by
      obtain hend | ⟨c, p, rest, i, -, -, -, hend⟩ := engineStep_stepEnd hengine
      · exact hend.irq htick
      · exact hend.irq htick
    exact absurd (hpending.symm.trans ht) nofun
  · exact absurd (hs.symm.trans ht) nofun
  · exact ⟨hturn, acc, rest, hhost, hacc.irq hs ht⟩

/-! ### What an idle engine can do (R327, R347) -/

/-- An operand register's write leaves the phase, DONE and FAULT. -/
theorem writeOperand_status (off : Nat) (v : Word) (s : State) :
    (writeOperand off v s).phase = s.phase ∧ (writeOperand off v s).done = s.done ∧
      (writeOperand off v s).fault = s.fault := by
  unfold writeOperand
  split <;> exact ⟨rfl, rfl, rfl⟩

theorem registerRead_status (off : Nat) (s : State) :
    (registerRead off s).phase = s.phase ∧ (registerRead off s).done = s.done ∧
      (registerRead off s).fault = s.fault := by
  unfold registerRead
  split <;> exact ⟨rfl, rfl, rfl⟩

/-- A CTRL write without START leaves the phase, DONE and FAULT. -/
theorem writeCtrl_status (irqEn abort : Bool) (op : BitVec 4) (s : State) :
    (writeCtrl irqEn abort op s).phase = s.phase ∧ (writeCtrl irqEn abort op s).done = s.done ∧
      (writeCtrl irqEn abort op s).fault = s.fault := by
  unfold writeCtrl
  split <;> exact ⟨rfl, rfl, rfl⟩

/-- What START leaves has DONE = 0: it clears it, and a run that begins does not complete. -/
theorem startCommand_done {op : BitVec 4} {irqEn abort : Bool} {s t : State}
    (hidle : s.phase = .idle) (h : startCommand op irqEn abort s = .next t) : t.done = false := by
  obtain ⟨hrun, -⟩ | ⟨-, code, info, rfl⟩ | ⟨-, -, u, hu, rfl⟩ := startCommand_cases h
  · exact absurd (hidle.symm.trans hrun) nofun
  · rfl
  · obtain ⟨v, hv, hstill⟩ := initialise_buffersAfter hu
    exact (congrArg (fun x => x.frame.done) hstill :).trans (congrArg State.done hv.frame_eq :)

/-- From `s` to `t` DONE did not rise, and where the engine became busy or FAULT rose the access
`acc` was a START. -/
def raisesByStart (s : State) (acc : Access) (t : State) : Prop :=
  (t.done = true → s.done = true) ∧
    ((t.phase = .run ∨ (t.fault = true ∧ s.fault = false)) →
      ∃ v, acc = .write (s.params.regBase + 4) 4 v ∧ v % 2 = 1)

/-- An access after which the engine is idle still and no flag is newly set. -/
theorem raisesByStart_of_quiet {s t : State} (acc : Access) (hphase : t.phase = .idle)
    (hdone : t.done = true → s.done = true) (hfault : t.fault = true → s.fault = true) :
    raisesByStart s acc t := by
  refine ⟨hdone, fun hraised => ?_⟩
  obtain hrun | ⟨hset, hclear⟩ := hraised
  · exact absurd (hphase.symm.trans hrun) nofun
  · exact absurd ((hfault hset).symm.trans hclear) nofun

/-- The host's turn on an idle engine neither sets DONE, nor, but by START, makes it busy or raises
FAULT. -/
theorem HostStep.raisesByStart {s t : State} {acc : Access} (h : HostStep s acc t)
    (hidle : s.phase = .idle) : raisesByStart s acc t := by
  cases h with
  | reset => exact raisesByStart_of_quiet _ rfl nofun nofun
  | unchanged | readByte | writeByte => exact raisesByStart_of_quiet _ hidle id id
  | readRegister _ off =>
    obtain ⟨hphase, hdone, hfault⟩ := registerRead_status off s
    exact raisesByStart_of_quiet _ (hphase.trans hidle) (hdone ▸ id) (hfault ▸ id)
  | start hv hstart =>
    rw [Machine.raisesByStart, startCommand_done hidle hstart]
    exact ⟨nofun, fun _ => ⟨_, rfl, hv⟩⟩
  | control v op irqEn abort =>
    obtain ⟨hphase, hdone, hfault⟩ := writeCtrl_status irqEn abort op s
    exact raisesByStart_of_quiet _ (hphase.trans hidle) (hdone ▸ id) (hfault ▸ id)
  | status =>
    exact raisesByStart_of_quiet _ hidle (fun h => (Bool.and_eq_true_iff.1 h).1)
      (fun h => (Bool.and_eq_true_iff.1 h).1)
  | operand _ off v =>
    obtain ⟨hphase, hdone, hfault⟩ := writeOperand_status off v s
    exact raisesByStart_of_quiet _ (hphase.trans hidle) (hdone ▸ id) (hfault ▸ id)

/-- Settles O59: an idle engine has no turn, and of the host's accesses only START does so. -/
theorem onlyStartRaisesWhileIdle : Obligations.OnlyStartRaisesWhileIdle := by
  intro s t hidle hstep
  obtain ⟨hturn, -⟩ | ⟨-, rfl⟩ | ⟨-, acc, rest, ⟨w, hhost, -⟩, hacc⟩ := step_cases hstep
  · exact absurd (hidle.symm.trans (busy_of_engineTurn hturn)) nofun
  · refine ⟨id, fun hraised => ?_⟩
    obtain hrun | ⟨hset, hclear⟩ := hraised
    · exact absurd (hidle.symm.trans hrun) nofun
    · exact absurd (hset.symm.trans hclear) nofun
  · obtain ⟨hdone, hraised⟩ := hacc.raisesByStart hidle
    refine ⟨hdone, fun h => ?_⟩
    obtain ⟨v, rfl, hv⟩ := hraised h
    exact ⟨w, v, rest, hhost, hv⟩

/-! ### The input cursor (10_state.md R21; 30_encoding.md R92) -/

theorem BuffersAfter.bp_eq {s v : State} (h : BuffersAfter s v) : v.bp = s.bp := by
  induction h with
  | same | cleared => rfl
  | row _ _ _ _ ih | zeros _ _ _ _ ih => exact ih
  | learnt => rw [learn_eq_learntDict]

/-- A fault leaves BP (60_exceptions.md R325); another element moves it past its bits. -/
theorem StepEnd.bp {n : Nat} {s t : State} (h : StepEnd n s t) :
    t.bp = s.bp ∨ t.bp = s.bp + BitVec.ofNat 35 n := by
  cases h with
  | fault => exact .inl rfl
  | eoi => exact .inr (by rw [complete_bp, noteShort_eq]; rfl)
  | ended e hv hu =>
    exact .inr ((finish_bp ..).trans ((congrArg State.bp hu :).trans hv.bp_eq))

/-- The bits an LZW code is read from lie in the input window. -/
theorem lzwCode_fits {s : State} {kind : LzwKind} {min w next : Nat} {hasPrev : Bool}
    {p rest : List Byte} {i : Instr} (hbp : s.bp.toNat ≤ 8 * s.srcLen.toNat)
    (hinput : s.input = p ++ rest)
    (helem : Element (.lzw kind min w next hasPrev (s.bp.toNat % 8)) p i) :
    s.bp.toNat + w ≤ 8 * s.srcLen.toNat ∨ w = 0 := by
  have hlen := congrArg List.length hinput
  simp only [State.input, List.length_map, List.length_range, List.length_append] at hlen
  cases helem with
  | lzw _ _ _ hp _ =>
    unfold divCeil at hp
    omega

/-- The element a run in the invariant decodes lies in its input window, where BP does not wrap. -/
theorem element_fits {s : State} (h : Inv s) (hrun : s.phase = .run) {c : Ctx} {p rest : List Byte}
    {i : Instr} (hc : s.ctx = some c) (hinput : s.input = p ++ rest) (helem : Element c p i) :
    s.bp.toNat + encodedBits c i < 2 ^ 35 := by
  have hprogress := h.progress (busy_of_run hrun)
  have hlen : s.srcLen.toNat < 2 ^ 32 := s.srcLen.isLt
  have hbytes : cursorOk s = true → s.bp.toNat + 8 * p.length < 2 ^ 35 := fun hcursor => by
    have hfits := bytes_fit hcursor hinput
    omega
  unfold State.ctx at hc
  split at hc <;> rename_i hop
  case h_3 =>
    obtain rfl := Option.some.inj hc
    have hfits := lzwCode_fits ((progressOk_lzw (.inl hop)).1 hprogress).1 hinput helem
    rw [encodedBits]
    omega
  case h_4 =>
    obtain rfl := Option.some.inj hc
    have hfits := lzwCode_fits ((progressOk_lzw (.inr hop)).1 hprogress).1 hinput helem
    rw [encodedBits]
    omega
  case h_9 =>
    obtain rfl := Option.some.inj hc
    cases helem with
    | hpred => exact s.bp.isLt
  case h_10 => cases hc
  all_goals
    obtain rfl := Option.some.inj hc
    rw [encodedBits_bytes helem nofun]
    refine hbytes ?_
  · exact ((progressOk_row (.inl hop)).1 hprogress).1
  · exact ((progressOk_adam7 hop).1 hprogress).1
  · exact ((progressOk_rle (.inl hop)).1 hprogress).1
  · exact ((progressOk_rle (.inr hop)).1 hprogress).1
  · exact ((progressOk_packbits hop).1 hprogress).1
  · exact ((progressOk_row (.inr hop)).1 hprogress).1

/-- An engine step never moves BP back. -/
theorem engineStep_bp_le {s t : State} (h : Inv s) (hrun : s.phase = .run)
    (ht : engineStep s = .next t) : s.bp.toNat ≤ t.bp.toNat := by
  obtain hend | ⟨c, p, rest, i, hc, hinput, helem, hend⟩ := engineStep_stepEnd ht
  · obtain hbp | hbp := hend.bp
    · exact hbp ▸ le_rfl
    · exact hbp ▸ by simp
  · obtain hbp | hbp := hend.bp
    · exact hbp ▸ le_rfl
    · have hfits := element_fits h hrun hc hinput helem
      rw [hbp, BitVec.toNat_add, BitVec.toNat_ofNat]
      omega

/-- A step that lets a run go on that reads input moves BP forward (40_command.md R144). -/
theorem engineStep_bp_lt {s t : State} (h : Inv s) (hrun : s.phase = .run)
    (ht : engineStep s = .next t) (hon : t.phase = .run) (h8 : s.op ≠ 8) :
    s.bp.toNat < t.bp.toNat := by
  obtain ⟨u, hu, hsetup, -⟩ := engineStep_within (h.running hrun).runnable
  obtain rfl := Host.Outcome.next.inj (ht.symm.trans hu)
  obtain ⟨u, hu, -, ⟨hidle, -⟩ | ⟨-, hfewer⟩⟩ := engineStep_ends (h.running hrun)
  · obtain rfl := Host.Outcome.next.inj (ht.symm.trans hu)
    exact absurd (hidle.symm.trans hon) nofun
  · obtain rfl := Host.Outcome.next.inj (ht.symm.trans hu)
    have hop : t.op = s.op := congrArg Setup.op hsetup
    have hlen : t.srcLen = s.srcLen := congrArg Setup.srcLen hsetup
    simp only [stepsLeft, hop, if_neg h8, hlen] at hfewer
    omega

/-- An HPRED row leaves BP and is one row (42_lzw.md R220). -/
theorem execHpredRow_counts {s t : State} (hr : s.r.toNat < s.H) (h : execHpredRow s = .next t) :
    t.bp = s.bp ∧ t.r.toNat = s.r.toNat + 1 := by
  obtain ⟨row, -, hrow⟩ := Option.bind_eq_some_iff.1 (orFault_next.1 h)
  obtain ⟨u, hu, rfl⟩ := Option.map_eq_some_iff.1 hrow
  obtain ⟨m, -, rfl⟩ := memWriteAll_eq_some.1 hu
  refine ⟨finish_bp .., ?_⟩
  rw [finishRow, finish_r]
  exact nextRow_r_toNat (s := s) hr

/-- A step of HPRED that lets the run go on. -/
theorem engineStep_hpred {s t : State} (h : Inv s) (hrun : s.phase = .run)
    (ht : engineStep s = .next t) (hon : t.phase = .run) (h8 : s.op = 8) :
    t.bp = s.bp ∧ t.r.toNat = s.r.toNat + 1 := by
  have hrow : s.r.toNat < s.H :=
    (progressOk_hpred (by rw [h8]; rfl)).1 (h.progress (busy_of_run hrun))
  have hfetch : fetch s = .instr .hpredRow :=
    fetch_eq_decode (c := .hpred) (by simp [State.ctx, h8])
  obtain ⟨-, rfl⟩ | ⟨-, -, ⟨-, rfl⟩ | ⟨i, hi, hexec⟩⟩ := engineStep_next ht
  · cases hon
  · cases hon
  · obtain rfl := Decoded.instr.inj (hi.symm.trans hfetch)
    exact execHpredRow_counts hrow hexec

/-- Settles O60: an element's bits do not wrap BP, and a run that goes on has fewer steps left. -/
theorem cursorMovesForward : Obligations.CursorMovesForward := by
  intro s t h hturn hstep
  have ht : engineStep (tick s) = .next t := (step_engine hturn).symm.trans hstep
  have hrun : (tick s).phase = .run := (tick_phase s).trans (busy_of_engineTurn hturn)
  have hbp := engineStep_bp_le h.tick hrun ht
  refine ⟨by simpa using hbp, fun hon h8 => ?_, fun hon h8 => ?_⟩
  · simpa using engineStep_bp_lt h.tick hrun ht hon (by simpa using h8)
  · simpa using engineStep_hpred h.tick hrun ht hon (by simpa using h8)

end Sys2Proof.Machine

/-! PROOFS. Commands while BUSY = 1 (40_command.md R134, R154), and the registers as the host reads
and writes them (10_state.md R23 to R49; 40_command.md R131, R132; 70_reset_and_hazards.md R360,
R375). -/

namespace Sys2Proof.Machine

open Sys2Proof.Claims

/-! ### Commands while BUSY = 1 (10_state.md R24) -/

theorem writeCtrl_of_run {s : State} (h : s.phase = .run) (irqEn abort : Bool) (op : BitVec 4) :
    writeCtrl irqEn abort op s = { s with irqEn := irqEn, abortReq := s.abortReq || abort } :=
  if_pos (busy_of_run h)

theorem writeCtrl_of_idle {s : State} (h : s.phase = .idle) (irqEn abort : Bool) (op : BitVec 4) :
    writeCtrl irqEn abort op s = { s with irqEn := irqEn, ctrlOp := op } :=
  if_neg (by simp [busy_of_idle h])

/-- Settles O18: a START in a run is the CTRL write of its other fields. -/
theorem startWhileBusyIsIgnored : Obligations.StartWhileBusyIsIgnored := by
  intro s op ie ab hrun
  rw [exec_startInstr, startCommand, if_pos (busy_of_run hrun), writeCtrl_of_run hrun]

/-- Settles O19: ABORT is the CTRL write with its bit set. -/
theorem abortSetsLatch : Obligations.AbortSetsLatch := by
  refine fun s ie op => ⟨fun hrun => ?_, fun hidle => ?_⟩
  · exact congrArg Host.Outcome.next ((writeCtrl_of_run hrun ..).trans (by rw [Bool.or_true]))
  · exact congrArg Host.Outcome.next (writeCtrl_of_idle hidle ..)

/-! ### Register reads (40_command.md R131) -/

/-- A host read of a register of the block. -/
theorem step_readOf {s : State} {off : Nat} {rest : List Queued}
    (h : hostTurn s (readOf s off) rest) (hoff : off < 256) (h4 : off % 4 = 0) :
    step s = .next (registerRead off { s with host := rest }) := by
  rw [step_hostTurn h]
  simp [performAccess, readOf, hostRead, regionOf_register _ hoff h4]

theorem registerRead_of_idle {s : State} (h : s.phase = .idle) (off : Nat) :
    registerRead off s = { s with returned := (readRegister off s).toNat :: s.returned } :=
  if_neg (by simp [busy_of_idle h])

theorem step_readOf_idle {s : State} {off : Nat} {rest : List Queued}
    (h : hostTurn s (readOf s off) rest) (hidle : s.phase = .idle) (hoff : off < 256)
    (h4 : off % 4 = 0) : step s =
      .next { s with host := rest, returned := (readRegister off s).toNat :: s.returned } := by
  rw [step_readOf h hoff h4, registerRead_of_idle (s := { s with host := rest }) hidle,
    readRegister_host]

/-- The registers of the reset state (10_state.md R23, R37, R49). -/
theorem readRegister_reset (off : Nat) :
    readRegister off State.reset = if off = 0 then 0x50585231 else 0 := by
  by_cases h : off = 0
  · rw [h]
    rfl
  · rw [if_neg h]
    unfold readRegister
    split
    case h_1 => exact absurd rfl h
    all_goals rfl

/-- Settles O44: the idle machine's reads, of the reset values. -/
theorem resetRegistersRead : Obligations.ResetRegistersRead := by
  intro off hoff h4
  refine ⟨_, step_readOf_idle (hostTurn_of_idle rfl rfl) rfl hoff h4, ?_⟩
  rw [readRegister_host, readRegister_reset]
  split <;> rfl

/-! ### Fields of a register's value -/

/-- A bit of a word, given as a digit of its value. -/
theorem getLsbD_eq_of_digit {n k : Nat} {v : BitVec n} {b : Bool}
    (h : v.toNat / 2 ^ k % 2 = b.toNat) : v.getLsbD k = b := by
  rw [BitVec.getLsbD, Nat.testBit_eq_decide_div_mod_eq, h]
  cases b <;> rfl

/-- A field of a word, given as digits of its value. -/
theorem extractLsb'_eq_of_digits {n k len : Nat} {v : BitVec n} {f : BitVec len}
    (h : v.toNat / 2 ^ k % 2 ^ len = f.toNat) : v.extractLsb' k len = f := by
  refine BitVec.eq_of_toNat_eq ?_
  rw [BitVec.extractLsb'_toNat, Nat.shiftRight_eq_div_pow, h]

theorem toNat_le_one (b : Bool) : b.toNat ≤ 1 := by cases b <;> decide

theorem statusValue_toNat (s : State) : (statusValue s).toNat =
    s.busy.toNat + 2 * s.done.toNat + 4 * s.fault.toNat + 8 * s.ovf.toNat + 16 * s.short.toNat
      + 256 * s.fcode.toNat := by
  have hbusy := toNat_le_one s.busy
  have hdone := toNat_le_one s.done
  have hfault := toNat_le_one s.fault
  have hovf := toNat_le_one s.ovf
  have hshort := toNat_le_one s.short
  have hfcode := s.fcode.isLt
  rw [statusValue, BitVec.toNat_ofNat]
  omega

theorem ctrlValue_toNat (s : State) :
    (ctrlValue s).toNat = 16 * s.ctrlOp.toNat + 256 * s.irqEn.toNat := by
  have hen := toNat_le_one s.irqEn
  have hop := s.ctrlOp.isLt
  rw [ctrlValue, BitVec.toNat_ofNat]
  omega

/-- STATUS bit by bit (10_state.md R25). -/
theorem statusValue_fields (s : State) :
    (statusValue s).getLsbD 0 = s.busy ∧ (statusValue s).getLsbD 1 = s.done ∧
    (statusValue s).getLsbD 2 = s.fault ∧ (statusValue s).getLsbD 3 = s.ovf ∧
    (statusValue s).getLsbD 4 = s.short ∧ (statusValue s).extractLsb' 5 3 = 0 ∧
    (statusValue s).extractLsb' 8 8 = s.fcode ∧ (statusValue s).extractLsb' 16 16 = 0 := by
  have hbusy := toNat_le_one s.busy
  have hdone := toNat_le_one s.done
  have hfault := toNat_le_one s.fault
  have hovf := toNat_le_one s.ovf
  have hshort := toNat_le_one s.short
  have hfcode := s.fcode.isLt
  have hvalue := statusValue_toNat s
  refine ⟨getLsbD_eq_of_digit ?_, getLsbD_eq_of_digit ?_, getLsbD_eq_of_digit ?_,
    getLsbD_eq_of_digit ?_, getLsbD_eq_of_digit ?_, extractLsb'_eq_of_digits ?_,
    extractLsb'_eq_of_digits ?_, extractLsb'_eq_of_digits ?_⟩ <;> rw [hvalue]
  all_goals simp
  all_goals omega

/-- CTRL bit by bit: START and ABORT read 0 (10_state.md R24). -/
theorem ctrlValue_fields (s : State) :
    (ctrlValue s).extractLsb' 0 4 = 0 ∧ (ctrlValue s).extractLsb' 4 4 = s.ctrlOp ∧
    (ctrlValue s).getLsbD 8 = s.irqEn ∧ (ctrlValue s).extractLsb' 9 23 = 0 := by
  have hen := toNat_le_one s.irqEn
  have hop := s.ctrlOp.isLt
  have hvalue := ctrlValue_toNat s
  refine ⟨extractLsb'_eq_of_digits ?_, extractLsb'_eq_of_digits ?_, getLsbD_eq_of_digit ?_,
    extractLsb'_eq_of_digits ?_⟩ <;> rw [hvalue]
  all_goals simp
  all_goals omega

/-- Where POS_X and POS_Y come from, by operation (10_state.md R33). -/
theorem position_rle {s : State} (h : s.op ∈ [4, 5]) : posX s = s.x ∧ posY s = s.y := by
  have hop : s.op.toNat = 4 ∨ s.op.toNat = 5 := by
    simp only [List.mem_cons, List.not_mem_nil, or_false] at h
    exact h.imp (congrArg BitVec.toNat) (congrArg BitVec.toNat)
  exact ⟨if_pos hop, if_pos hop⟩

theorem position_rows {s : State} (h : s.op ∈ [0, 1, 7, 8]) : posX s = 0 ∧ posY s = s.r := by
  simp only [List.mem_cons, List.not_mem_nil, or_false] at h
  obtain h | h | h | h := h <;> simp [posX, posY, isSequential, h]

theorem position_sequential {s : State} (h : s.op ∈ [2, 3, 6]) : posX s = 0 ∧ posY s = 0 := by
  simp only [List.mem_cons, List.not_mem_nil, or_false] at h
  obtain h | h | h := h <;> simp [posX, posY, isSequential, h]

/-- PASS (10_state.md R34). -/
theorem passValue_toNat (s : State) : (passValue s).toNat = if s.op = 1 then s.p.toNat else 0 := by
  have hop : s.op.toNat = 1 ↔ s.op = 1 :=
    ⟨fun h => BitVec.eq_of_toNat_eq h, fun h => by rw [h]; rfl⟩
  have hp := s.p.isLt
  unfold passValue
  simp only [hop]
  split
  · rw [BitVec.toNat_setWidth]
    omega
  · rfl

/-- Offsets past FINFO are reserved (10_state.md R38). -/
theorem readRegister_reserved {off : Nat} (h : 0x48 ≤ off) (s : State) :
    readRegister off s = 0 := by
  unfold readRegister
  split
  case h_19 => rfl
  all_goals omega

/-- SRC_PTR and SRC_BIT (10_state.md R31). -/
theorem cursorRegisters (s : State) : (readRegister 0x28 s).toNat = s.bp.toNat / 8 ∧
    (readRegister 0x2C s).toNat = s.bp.toNat % 8 := by
  have hbp := s.bp.isLt
  constructor
  · change (BitVec.ofNat 32 (s.bp.toNat / 8)).toNat = _
    rw [BitVec.toNat_ofNat]
    omega
  · change (BitVec.ofNat 32 (s.bp.toNat % 8)).toNat = _
    rw [BitVec.toNat_ofNat]
    omega

/-- Settles O45: the fields of STATUS and CTRL, each register's view, and the read of an idle
machine. -/
theorem statusAndControlBits : Obligations.StatusAndControlBits := by
  refine ⟨fun s => ?_, fun s => ?_, fun s off rest hturn hidle hoff h4 => ?_⟩
  · obtain ⟨hbusy, hdone, hfault, hovf, hshort, hlow, hfcode, hhigh⟩ := statusValue_fields s
    exact ⟨hbusy, hdone, hfault, hovf, hshort, hlow, hfcode, hhigh, ctrlValue_fields s⟩
  · obtain ⟨hptr, hbit⟩ := cursorRegisters s
    exact ⟨rfl, rfl, hptr, hbit, rfl, position_rle, position_rows, position_sequential,
      passValue_toNat s, rfl, rfl, fun off h => readRegister_reserved h s⟩
  · exact step_readOf_idle hturn hidle hoff h4

/-! ### Reads while BUSY = 1 (10_state.md R48) -/

theorem registerRead_of_run {s : State} (h : s.phase = .run) (off : Nat) :
    registerRead off s = { s with
      returned := (readRegister off (viewAt (seenBoundary s) s)).toNat :: s.returned
      seen := s.seen.take (seenIndex s + 1)
      free := s.free + 1 } :=
  if_pos (busy_of_run h)

/-- The boundary read does not depend on the host's queue. -/
theorem readRegister_viewAt_host (off : Nat) (b : Boundary) (s : State) (host : List Queued) :
    readRegister off (viewAt b { s with host := host }) = readRegister off (viewAt b s) :=
  readRegister_host off (viewAt b s) host

/-- Settles O48: the boundary read is the one at `seenIndex`, which is one of those that may be
seen. -/
theorem readWhileBusyShowsABoundary : Obligations.ReadWhileBusyShowsABoundary := by
  intro s off rest hrun hseen hturn hoff h4
  have hindex : seenIndex s < s.seen.length := Nat.mod_lt _ (List.length_pos_iff.2 hseen)
  refine ⟨seenIndex s, seenBoundary s, ?_, ?_⟩
  · rw [seenBoundary, List.getD_eq_getElem _ _ hindex, List.getElem?_eq_getElem hindex]
  · rw [step_readOf hturn hoff h4, registerRead_of_run (s := { s with host := rest }) hrun,
      readRegister_viewAt_host]
    rfl

/-! ### Register writes that carry no command (40_command.md R132) -/

/-- A host write to a register of the block. -/
theorem step_writeOf {s : State} {off : Nat} {v : Word} {rest : List Queued}
    (h : hostTurn s (writeOf s off v) rest) (hoff : off < 256) (h4 : off % 4 = 0) :
    step s = registerWrite off v { s with host := rest } := by
  rw [step_hostTurn h, performAccess_writeOf s hoff h4]

/-- An offset that is no operand register's takes no write (10_state.md R38). -/
theorem writeOperand_other {off : Nat} (h : off ∉ operandOffsets) (v : Word) (s : State) :
    writeOperand off v s = s := by
  unfold writeOperand
  split
  case h_8 => rfl
  all_goals exact absurd (by decide) h

/-- Settles O47: each is what a write to its offset does without its command bits. -/
theorem otherRegisterWritesIgnored : Obligations.OtherRegisterWritesIgnored := by
  refine ⟨fun s off v rest hturn hoff hmod h4 h8 hignored => ?_,
    fun s v rest hturn hstart habort => ?_, fun s v rest hturn hdone hfault => ?_⟩
  · rw [step_writeOf hturn hoff hmod, registerWrite_operand_eq h4 h8]
    obtain hrun | hother := hignored
    · rw [if_pos (busy_of_run (s := { s with host := rest }) hrun)]
    · rw [writeOperand_other hother, ite_self]
  · rw [step_writeOf hturn (by decide) rfl, registerWrite_ctrl_eq, hstart, habort,
      if_neg Bool.false_ne_true]
    by_cases hrun : s.phase = .run
    · rw [writeCtrl_of_run (s := { s with host := rest }) hrun, if_pos hrun, Bool.or_false]
    · have hidle : s.phase = .idle := phase_of_not_busy (by simpa [State.busy] using hrun)
      rw [writeCtrl_of_idle (s := { s with host := rest }) hidle, if_neg hrun]
  · rw [step_writeOf hturn (by decide) rfl, registerWrite_status_eq, hdone, hfault]
    simp [acknowledge]

/-! ### Operand registers (10_state.md R26 to R30) -/

/-- What was returned is in no register. -/
theorem readRegister_returned (off : Nat) (s : State) (returned : List Nat) :
    readRegister off { s with returned := returned } = readRegister off s := by
  unfold readRegister
  split <;> rfl

/-- The operand written reads back, FMT without its reserved bits. -/
theorem readRegister_writeOperand_same {off : Nat} (h : off ∈ operandOffsets) (v : Word)
    (s : State) : readRegister off (writeOperand off v s) =
      if off = 0x24 then v &&& fmtMask else v := by
  simp only [operandOffsets, List.mem_cons, List.not_mem_nil, or_false] at h
  obtain rfl | rfl | rfl | rfl | rfl | rfl | rfl := h <;> rfl

/-- No other register reads an operand register's field. -/
theorem readRegister_writeOperand_other {off other : Nat} (hne : other ≠ off) (v : Word)
    (s : State) : readRegister other (writeOperand off v s) = readRegister other s := by
  unfold writeOperand
  split
  case h_8 => rfl
  all_goals
    unfold readRegister
    split <;> try contradiction
    all_goals rfl

/-- What an operand register's write leaves. -/
theorem writeOperand_frame (off : Nat) (v : Word) (s : State) :
    (writeOperand off v s).params = s.params ∧ (writeOperand off v s).mem = s.mem ∧
      (writeOperand off v s).host = s.host ∧ (writeOperand off v s).returned = s.returned := by
  unfold writeOperand
  split <;> exact ⟨rfl, rfl, rfl, rfl⟩

/-- The operand registers are words of the block, and neither CTRL nor STATUS. -/
theorem operandOffsets_aligned : ∀ off ∈ operandOffsets,
    off < 256 ∧ off % 4 = 0 ∧ off ≠ 0x04 ∧ off ≠ 0x08 := by decide

/-- The write of an operand register while idle. -/
theorem step_writeOf_operand {s : State} {off : Nat} {v : Word} {rest : List Queued}
    (h : hostTurn s (writeOf s off v) rest) (hidle : s.phase = .idle)
    (hoff : off ∈ operandOffsets) :
    step s = .next (writeOperand off v { s with host := rest }) := by
  obtain ⟨hlt, hmod, h4, h8⟩ := operandOffsets_aligned off hoff
  rw [step_writeOf h hlt hmod, registerWrite_operand_eq h4 h8,
    if_neg (by simp [busy_of_idle (s := { s with host := rest }) hidle])]

/-- Settles O46: the write's step, then the read's; the other registers read through both. -/
theorem operandWriteReadsBack : Obligations.OperandWriteReadsBack := by
  intro s off w1 w2 v rest hidle hoff hhost
  have hwrite := step_writeOf_operand (hostTurn_of_idle hidle hhost) hidle hoff
  obtain ⟨hparams, hmem, hqueue, hreturned⟩ :=
    writeOperand_frame off v { s with host := ⟨w2, readOf s off⟩ :: rest }
  obtain ⟨hphase, -, -⟩ := writeOperand_status off v { s with host := ⟨w2, readOf s off⟩ :: rest }
  generalize hu : writeOperand off v { s with host := ⟨w2, readOf s off⟩ :: rest } = u at *
  have hidle' : u.phase = .idle := hphase.trans hidle
  have hturn : hostTurn u (readOf u off) rest :=
    hostTurn_of_idle hidle' (w := w2) (by rw [hqueue, readOf, readOf, hparams])
  obtain ⟨hlt, hmod, -⟩ := operandOffsets_aligned off hoff
  have hread := step_readOf_idle hturn hidle' hlt hmod
  refine ⟨_, steps_succ hwrite (steps_succ hread rfl), rfl, ?_, hmem, hidle', fun other hne => ?_⟩
  · rw [hreturned, ← hu, readRegister_writeOperand_same hoff]
    rfl
  · have hsame : readRegister other u = readRegister other s := by
      rw [← hu, readRegister_writeOperand_other hne, readRegister_host]
    exact ((readRegister_returned other { u with host := rest } _).trans
      (readRegister_host other u rest)).trans hsame

/-! ### The reset input (70_reset_and_hazards.md R360, R361) -/

/-- Settles O51: an idle machine's memory is left, and of a run's only the window is scrambled. -/
theorem platformResetLeavesMemory : Obligations.PlatformResetLeavesMemory := by
  intro s rest hturn hwf
  rw [step_hostTurn hturn]
  by_cases hrun : s.phase = .run
  · refine ⟨(scrambleOutput s).mem, s.free + 1, ?_, fun hidle => ?_, sameOutside_scrambleOutput hwf⟩
    · rw [performAccess, platformReset, if_pos (busy_of_run (s := { s with host := rest }) hrun)]
      rfl
    · exact absurd (hidle.symm.trans hrun) nofun
  · have hidle : s.phase = .idle := phase_of_not_busy (by simpa [State.busy] using hrun)
    refine ⟨s.mem, s.free, ?_, fun _ => rfl, hwf, fun _ _ => rfl⟩
    rw [performAccess, platformReset,
      if_neg (by simp [busy_of_idle (s := { s with host := rest }) hidle])]

end Sys2Proof.Machine

/-! PROOFS. The strings of LZW codes (10_state.md R41) and the entry a KWKWK code defines (42_lzw.md
R207). -/

namespace Sys2Proof.Machine

open Sys2Proof.Claims

/-! ### Strings (10_state.md R41) -/

/-- A dictionary whose entries below `next` are built from codes known before them, `clear` being
the first code that is no root. -/
def chained (clear next : Nat) (d : Dict) : Prop :=
  ∀ e, clear + 2 ≤ e → e < next →
    ((d.read e).pfx.toNat < clear ∨ clear + 2 ≤ (d.read e).pfx.toNat) ∧ (d.read e).pfx.toNat < e

theorem LzwOk.chained {s : State} (h : LzwOk s) : chained (clearOf s) s.next.toNat s.dict :=
  fun e hlow hhigh => by
    obtain ⟨hknown, hlt⟩ := h.entry_known e hlow hhigh
    exact ⟨hknown.imp id And.left, hlt⟩

theorem lzwString_root {clear c : Nat} (d : Dict) (fuel : Nat) (h : c < clear) :
    lzwString clear d (fuel + 1) c = [BitVec.ofNat 8 c] := if_pos h

theorem lzwString_entry {clear c : Nat} (d : Dict) (fuel : Nat) (h : clear ≤ c) :
    lzwString clear d (fuel + 1) c =
      lzwString clear d fuel (d.read c).pfx.toNat ++ [(d.read c).sfx] := if_neg (not_lt.2 h)

/-- The string of a code is found in as many links as the code, and depends on the entries below
`next` only. -/
theorem lzwString_congr {clear next : Nat} {d d' : Dict} (hd : chained clear next d)
    (hsame : ∀ e < next, d'.read e = d.read e) (fuel : Nat) :
    ∀ {fuel' c : Nat}, c < fuel → c < fuel' → c < clear ∨ (clear + 2 ≤ c ∧ c < next) →
      lzwString clear d' fuel' c = lzwString clear d fuel c := by
  induction fuel with
  | zero => exact fun h => absurd h (Nat.not_lt_zero _)
  | succ fuel ih =>
    intro fuel' c hc hc' hknown
    obtain ⟨fuel', rfl⟩ := Nat.exists_eq_succ_of_ne_zero (Nat.ne_zero_of_lt hc')
    obtain hroot | ⟨hlow, hhigh⟩ := hknown
    · rw [lzwString_root d' _ hroot, lzwString_root d _ hroot]
    · obtain ⟨hpfx, hlt⟩ := hd c hlow hhigh
      rw [lzwString_entry d' _ (by omega), lzwString_entry d _ (by omega), hsame c hhigh,
        ih (by omega) (by omega) (hpfx.imp id fun h => ⟨h, by omega⟩)]

/-- An entry's string is that of the code it extends and its suffix, at any bound above it. -/
theorem lzwString_unfold {clear next fuel c : Nat} {d : Dict} (hd : chained clear next d)
    (hfuel : c < fuel) (hlow : clear + 2 ≤ c) (hhigh : c < next) : lzwString clear d fuel c =
      lzwString clear d fuel (d.read c).pfx.toNat ++ [(d.read c).sfx] := by
  obtain ⟨n, rfl⟩ := Nat.exists_eq_succ_of_ne_zero (Nat.ne_zero_of_lt hfuel)
  obtain ⟨hpfx, hlt⟩ := hd c hlow hhigh
  rw [lzwString_entry d n (by omega),
    lzwString_congr hd (fun _ _ => rfl) (n + 1) (fuel' := n) (by omega) (by omega)
      (hpfx.imp id fun h => ⟨h, by omega⟩)]

/-- An entry (pfx, sfx) written at `next` has the string of `pfx` before the write and `sfx`. -/
theorem lzwString_write {clear next fuel : Nat} {d : Dict} (hd : chained clear next d)
    (hwf : sparseWf emptyEntry d = true) (hnext : clear + 2 ≤ next) (hfuel : next < fuel)
    {pfx : BitVec 12} (hpfx : pfx.toNat < clear ∨ (clear + 2 ≤ pfx.toNat ∧ pfx.toNat < next))
    (sfx : Byte) : lzwString clear (d.write next ⟨pfx, sfx⟩) fuel next =
      lzwString clear d fuel pfx.toNat ++ [sfx] := by
  obtain ⟨n, rfl⟩ := Nat.exists_eq_succ_of_ne_zero (Nat.ne_zero_of_lt hfuel)
  have hsame : ∀ e < next, (d.write next ⟨pfx, sfx⟩).read e = d.read e := fun e he =>
    (Dict.read_write hwf ..).trans (if_neg he.ne)
  rw [lzwString_entry _ n (by omega), Dict.read_write hwf, if_pos rfl,
    lzwString_congr hd hsame (n + 1) (fuel' := n) (by omega) (by omega) hpfx]

/-- A running variant's string, its CLEAR being the state's. -/
theorem str_eq {s : State} {kind : LzwKind} (hop : s.op = lzwOp kind) (code : BitVec 12) :
    s.str kind code = lzwString (clearOf s) s.dict 4096 code.toNat := by
  rw [State.str, clearOf_eq (congrArg BitVec.toNat hop)]

theorem ofNat_toNat_eq_setWidth (code : BitVec 12) :
    BitVec.ofNat 8 code.toNat = code.setWidth 8 := rfl

/-- Settles O38: one link of the chain, the code extended being below the entry. -/
theorem lzwStringUnfolds : Obligations.LzwStringUnfolds := by
  intro s kind code hop h
  have hclear : clearOf s = 2 ^ Claims.lzwMin kind s := by
    rw [clearOf_eq (congrArg BitVec.toNat hop)]
    cases kind <;> rfl
  rw [← hclear]
  refine ⟨fun hroot => ?_, fun hlow hhigh => ?_⟩
  · rw [str_eq hop, lzwString_root _ _ hroot, ofNat_toNat_eq_setWidth]
  · rw [str_eq hop, str_eq hop, lzwString_unfold h.chained code.isLt hlow hhigh]

/-! ### KWKWK (42_lzw.md R207) -/

/-- What a code that answers next leaves of the operation and FMT, and what it learnt. -/
theorem runCode_dict {kind : LzwKind} {string : List Byte} {code : BitVec 12} {s t : State}
    (h : runCode kind string code s = .next t) :
    t.op = s.op ∧ t.fmt = s.fmt ∧ t.dict = learntDict s (string.headD 0) := by
  obtain ⟨u, hu, rfl⟩ := Option.map_eq_some_iff.1 (orFault_next.1 h)
  have hstill := emitAll_still hu
  have hlearn : (learn kind (string.headD 0) code u).still =
      (learn kind (string.headD 0) code (advance s.w.toNat s)).still := by
    rw [learn_still, hstill, ← learn_still]
  rw [learn_eq_learntDict kind _ _ (advance _ _)] at hlearn
  exact ⟨(finish_op ..).trans (congrArg State.op hlearn :),
    (finish_fmt ..).trans (congrArg State.fmt hlearn :),
    (finish_dict ..).trans (congrArg State.dict hlearn :)⟩

/-- Settles O37: the entry added is (prev, the string's first byte), at the code itself. -/
theorem lzwKwkwkDefinesItsString : Obligations.LzwKwkwkDefinesItsString := by
  intro s t kind code prev hop h hwf hprev hcode hexec
  have hrun : runCode kind (s.kwkwkString kind) code s = .next t := by
    cases kind <;> exact hexec
  rw [State.kwkwkString, hprev] at hrun
  obtain ⟨htop, hfmt, hdict⟩ := runCode_dict hrun
  have hroom : s.next.toNat < 4096 := hcode ▸ code.isLt
  have hclear : clearOf t = clearOf s := by
    rw [clearOf_eq (kind := kind) (by rw [htop, hop]), clearOf_eq (congrArg BitVec.toNat hop)]
    cases kind
    · simp only [State.lzwMinOf, State.lzwMin, hfmt]
    · rfl
  rw [headD_append_headD, learntDict, hprev] at hdict
  simp only [if_pos hroom] at hdict
  rw [str_eq (htop.trans hop), hclear, hdict, hcode,
    lzwString_write h.chained hwf h.next_low hroom (h.prev_known prev hprev), str_eq hop]

end Sys2Proof.Machine
